-- ==== Sys2Proof/Word.lean ====
section
/-! DEFINITION. The plain value types of rule R7 of `00_scope.md`: a byte, a transfer word, a line level.
Bit 0 is the least significant bit of every value and every value is unsigned (rule R5). -/

namespace Sys2Proof

/-- `Byte` of rule R7: an 8-bit unsigned value. -/
abbrev Byte := BitVec 8

/-- `Word` of rule R7: a 32-bit unsigned value, the transfer word of `30_encoding.md` rule R65. -/
abbrev Word := BitVec 32

/-- `Level` of rule R7: `false` is 0 (low), `true` is 1 (high). -/
abbrev Level := Bool

end Sys2Proof
end

