-- ==== Sys2Proof/Config.lean ====
section
/-! DEFINITION. The parameters of rule R4 of `00_scope.md`. The fixed quantities are constants; the quantities
the document leaves `OPEN`, and the decided ones that may be overridden with their decision, are the fields of
`Config`, which a model takes as an argument (here: the field `cfg` of the state, which no step changes).
The one free value of the model, `Config.clkdivUnfit`, has no body. -/

namespace Sys2Proof

/-- FRAME_LEN of rule R4: entries in a DMX Frame. -/
def frameLen : Nat := 512

/-- RX_BAUD of rule R4: serial bits per second. -/
def rxBaud : Nat := 250000

/-- DIV_INT_BITS of rule R4. -/
def divIntBits : Nat := 16

/-- DIV_FRAC_BITS of rule R4. -/
def divFracBits : Nat := 8

/-- PUB_SITE of rules R4 and R152: which unit calls the publisher. -/
inductive PubSite where
  | none
  | rx
  | rl
  deriving DecidableEq, Repr

/-- The parameters of rule R4 that a build may set. -/
structure Config where
  /-- N_PIX, the number of pixels (OPEN, D16). -/
  nPix : Nat
  /-- ENC_FIFO_DEPTH (OPEN, D23). -/
  fifoDepth : Nat
  /-- SEQ_W, the width of a sequence counter in bits (OPEN, D26). -/
  seqW : Nat
  /-- PUB_SITE (OPEN, D27). -/
  pubSite : PubSite
  /-- F_SYS in Hz (OPEN, D18). -/
  fSys : Nat
  /-- F_BIT in bits per second (OPEN, D18). -/
  fBit : Nat
  /-- RX_OVERHEAD (decided 1, D3). -/
  rxOverhead : Nat
  /-- RX_RESYNC_ON_ERROR (decided true, D5). -/
  resyncOnError : Bool
  /-- RX_EMPTY_IS_ERROR (decided false, D7). -/
  emptyIsError : Bool
  /-- RX_IDLE_TIMEOUT in bit times, 0 when the feature is absent (decided 0, D8). -/
  idleTimeout : Nat
  /-- T1, ticks of the start sub-phase (decided 1, D17). -/
  t1 : Nat
  /-- T2, ticks of the data sub-phase (decided 1, D17). -/
  t2 : Nat
  /-- T3, ticks of the stop sub-phase (decided 1, D17). -/
  t3 : Nat
  deriving DecidableEq, Repr

namespace Config

/-- RX_CAP = FRAME_LEN + RX_OVERHEAD (rule R4). -/
def rxCap (c : Config) : Nat := frameLen + c.rxOverhead

/-- TICKS_PER_BIT = T1 + T2 + T3 (rule R4). -/
def ticksPerBit (c : Config) : Nat := c.t1 + c.t2 + c.t3

/-- The constraints of rules R4 and R67 that `93_implementation_defined.md` U17 lists, and `F_BIT ≥ 1`
(log entry 3: a bit rate of 0 gives rule R70 no quotient). -/
def legal (c : Config) : Bool :=
  decide (1 ≤ c.nPix) && decide (1 ≤ c.fifoDepth) && decide (1 ≤ c.seqW) && decide (1 ≤ c.fBit) &&
  decide (1 ≤ c.rxOverhead) && decide (1 ≤ c.t1) && decide (1 ≤ c.t2) && decide (1 ≤ c.t3) &&
  decide (c.t3 < c.t1 + c.t2) && decide (c.t1 < c.t2 + c.t3)

/-- The decided values of rule R4 hold (`40_receiver.md` rule R92 is stated for these). -/
def decided (c : Config) : Bool :=
  decide (c.rxOverhead = 1) && c.resyncOnError && !c.emptyIsError && decide (c.idleTimeout = 0)

/-- DESIGN CHOICE (log entry 2): the parameter set of `State.reset`. The decided values are those of rule R4; the
OPEN ones are the example values of `95_test_vectors.md` (N_PIX = 1, ENC_FIFO_DEPTH = 1, PUB_SITE = NONE as in
program P2, SEQ_W = 32, F_SYS and F_BIT as in vector V-DIV-1). No statement rests on them. -/
def example1 : Config where
  nPix := 1
  fifoDepth := 1
  seqW := 32
  pubSite := .none
  fSys := 125000000
  fBit := 800000
  rxOverhead := 1
  resyncOnError := true
  emptyIsError := false
  idleTimeout := 0
  t1 := 1
  t2 := 1
  t3 := 1

/-- FREE VALUE (log entry 4): what the 24-bit divisor register holds when the quotient of rule R70 does not fit
in it. Rule R130 then raises the hardware fault and the block never runs. -/
opaque clkdivUnfit : Nat → BitVec 24

end Config

end Sys2Proof
end

