-- ==== Sys2Proof/Syntax.lean ====
section
/-! DEFINITION. The operations of the block (`30_encoding.md` rule R74), one constructor of `Instr` per row of
`spec/opcode_table.json`, with the operands each rule's "Operands" line gives, and the coded forms (`Code`) in
which an operation is written: the interface formats of `30_encoding.md`, and, for the rows of format OP, which
the table gives no bits, the row's number with its operands (log entry 6). -/

namespace Sys2Proof

/-- `Pixel` of rule R7: the triple is always written red first, green second, blue third. -/
structure Pixel where
  r : Byte
  g : Byte
  b : Byte
  deriving DecidableEq, Repr

/-- `Frame` of rule R7: index 0 is DMX channel 1. That it has exactly 512 entries is checked by `WellFormed`. -/
abbrev Frame := List Byte

/-- The kinds of `ReceiveError` (rules R7 and R161). -/
inductive ReceiveKind where
  | framing
  | overrun
  | breakWithoutData
  deriving DecidableEq, Repr

/-- `Result` of rule R7: what a read of the receiver ends with. -/
inductive ReadResult where
  | ok (n : Nat)
  | err (kind : ReceiveKind)
  deriving DecidableEq, Repr

/-- The two execution contexts of `60_exceptions.md` rule R171, as publishing contexts of rule R32. -/
inductive Ctx where
  | receive
  | render
  deriving DecidableEq, Repr

/-- A line symbol of rules R7 and R73; `idle` is the symbol of the optional timeout of rule R90. -/
inductive Sym where
  | chr (b : Byte)
  | brk
  | ferr
  | idle
  deriving DecidableEq, Repr

/-- The operations of the block, one per row of `spec/opcode_table.json`, in the table's order. -/
inductive Instr where
  /-- RX.ARM, rule R80. -/
  | rxArm
  /-- RX.CHR, rule R81: the character `b`. -/
  | rxChr (b : Byte)
  /-- RX.BRK, rule R82. -/
  | rxBrk
  /-- RX.FERR, rule R83, window `0dddddddd0x`: first stop bit low, `x` the second one. -/
  | rxFerrStop1 (d : Byte) (x : Level)
  /-- RX.FERR, rule R83, window `0dddddddd10`: second stop bit low. -/
  | rxFerrStop2 (d : Byte)
  /-- RX.FULL, rule R84. -/
  | rxFull
  /-- RX.COMPLETE, rule R85. -/
  | rxComplete (result : ReadResult) (atBreak : Bool)
  /-- RX.DISCARD, rule R86. -/
  | rxDiscard
  /-- RX.BUILD, rule R87: the chunk length. -/
  | rxBuild (n : Nat)
  /-- RX.DELIVER, rule R88: the chunk length. -/
  | rxDeliver (n : Nat)
  /-- RX.DROP, rule R89. -/
  | rxDrop (kind : ReceiveKind) (atBreak : Bool)
  /-- RX.IDLE, rule R90. -/
  | rxIdle
  /-- MBX.DEPOSIT, rule R110. -/
  | mbxDeposit (frame : Frame)
  /-- MBX.TAKE, rule R111. -/
  | mbxTake
  /-- RL.TAKE, rule R120. -/
  | rlTake
  /-- RL.MAP, rules R121 and R122. -/
  | rlMap
  /-- RL.WRITE, rule R123. -/
  | rlWrite
  /-- RL.PUBLISH, rule R124. -/
  | rlPublish
  /-- ENC.INIT, rule R130: its operands are the parameters. -/
  | encInit
  /-- ENC.WRITE, rule R131: the pixel array. -/
  | encWrite (pixels : List Pixel)
  /-- ENC.PACK, rule R132: the pixel array. -/
  | encPack (pixels : List Pixel)
  /-- ENC.DMA, rule R133. -/
  | encDma
  /-- ENC.DONE, rule R137. -/
  | encDone
  /-- ENC.PULL, rule R134. -/
  | encPull
  /-- ENC.CELL0, rule R135 with `ENC.osr[31] = 0`. -/
  | encCell0
  /-- ENC.CELL1, rule R135 with `ENC.osr[31] = 1`. -/
  | encCell1
  /-- ENC.IDLE, rule R138. -/
  | encIdle
  /-- PUB.PUBLISH, rule R150: the calling context and the frame. -/
  | pubPublish (ctx : Ctx) (frame : Frame)
  /-- PUB.PUBLISH.FAIL, rule R151: the same call, not ready. -/
  | pubPublishFail (ctx : Ctx) (frame : Frame)
  /-- SYS.FAULT, rule R165. -/
  | sysFault
  /-- SYS.RESET, rule R190. -/
  | sysReset
  deriving DecidableEq, Repr

/-- The formats of `30_encoding.md` that the "format" column of the opcode table names. -/
inductive Format where
  | fChar
  | fBreak
  | fFerr
  | fWord
  | fCell
  | fDiv
  | fPubmsg
  | op
  deriving DecidableEq, Repr

/-- An operation as coded on its interface. -/
inductive Code where
  /-- F-CHAR, F-BREAK, F-FERR: the eleven samples of a character window, bit `i` is `s[i]` (rule R61). -/
  | serial (s : BitVec 11)
  /-- F-WORD, once per pixel of the array (rule R65). -/
  | words (ws : List Word)
  /-- F-CELL: the levels of one bit cell, one per tick, in time order (rule R67). -/
  | cell (ticks : List Level)
  /-- F-DIV: the divisor the parameters give (rule R70). -/
  | divisor (d : BitVec 24)
  /-- F-PUBMSG: the frame as `pub_frame` carries it (rules R8 and R71). The sequence number is the counter's. -/
  | pubmsg (ctx : Ctx) (frame : BitVec 4096)
  /-- OP: the row's number in `spec/opcode_table.json`, counted from 0, and its operands as numbers (log entry 6). -/
  | op (row : Nat) (args : List Nat)
  /-- Bits of no format of the spec. -/
  | raw (nbits w : Nat)
  deriving DecidableEq, Repr

/-- Why a coded form is no operation. -/
inductive Reject where
  /-- The start sample is high: a glitch, not a start bit, and no symbol (rule R61). -/
  | glitch
  /-- The number of words is not N_PIX: "a shorter or longer array cannot be passed" (rule R131). -/
  | wordCount
  /-- A transfer word whose bits 7:0 are not zero (rule R72). -/
  | lowByte
  /-- The ticks are neither the cell of a 1 nor the cell of a 0 (rule R67). -/
  | badCell
  /-- The divisor is illegal or is not the one rule R70 computes from the parameters. -/
  | badDivisor
  /-- The number names no row of format OP of the table. -/
  | noSuchRow
  /-- The operands are not of the number or the range that the row's rule gives. -/
  | badOperands
  /-- No format of the spec has this many bits, or a bit above the format's own is set. -/
  | noFormat
  deriving DecidableEq, Repr

namespace Instr

/-- The "format" column of `spec/opcode_table.json`. -/
def format : Instr → Format
  | .rxArm => .op
  | .rxChr _ => .fChar
  | .rxBrk => .fBreak
  | .rxFerrStop1 _ _ => .fFerr
  | .rxFerrStop2 _ => .fFerr
  | .rxFull => .op
  | .rxComplete _ _ => .op
  | .rxDiscard => .op
  | .rxBuild _ => .op
  | .rxDeliver _ => .op
  | .rxDrop _ _ => .op
  | .rxIdle => .op
  | .mbxDeposit _ => .op
  | .mbxTake => .op
  | .rlTake => .op
  | .rlMap => .op
  | .rlWrite => .op
  | .rlPublish => .op
  | .encInit => .fDiv
  | .encWrite _ => .op
  | .encPack _ => .fWord
  | .encDma => .op
  | .encDone => .op
  | .encPull => .op
  | .encCell0 => .fCell
  | .encCell1 => .fCell
  | .encIdle => .op
  | .pubPublish _ _ => .fPubmsg
  | .pubPublishFail _ _ => .op
  | .sysFault => .op
  | .sysReset => .op

end Instr

end Sys2Proof
end

