-- ==== Sys2Proof/Machine/Operands.lean ====
section
/-! DEFINITION. Operand forms: the formats of `30_encoding.md` as functions (character windows, transfer words,
bit cells, the publish port), and the assembly of frames and pixels. -/

namespace Sys2Proof.Machine

/-! ### The serial window (rules R60 to R63), sample `s[i]` in bit `i` -/

/-- A character window in time order: start bit low, `d` least significant bit first, then the stop samples. -/
def window (d : Byte) (stop1 stop2 : Level) : BitVec 11 :=
  BitVec.ofBool stop2 ++ (BitVec.ofBool stop1 ++ (d ++ 0#1))

/-- Rule R61: `b[i] = s[i+1]`. -/
def windowData (s : BitVec 11) : Byte := s.extractLsb' 1 8

/-- The window that a list of samples makes, the first sample in bit 0. -/
def windowOf (samples : List Level) : BitVec 11 :=
  BitVec.ofNat 11 (samples.foldr (fun v n => v.toNat + 2 * n) 0)

/-- The eleven samples of a window in time order. -/
def windowSamples (s : BitVec 11) : List Level := (List.range 11).map s.getLsbD

/-! ### Frames -/

/-- Rule R87: the first 512 bytes of a chunk, then `0x00` up to 512 entries. -/
def padFrame (bytes : List Byte) : Frame :=
  bytes.take frameLen ++ List.replicate (frameLen - bytes.length) 0

/-- Rule R8: the number whose bits `8*i+7 : 8*i` are entry `i` of the list. -/
def bytesNat : List Byte → Nat
  | [] => 0
  | b :: bs => b.toNat + 256 * bytesNat bs

/-- The first `k` bytes of a number, the least significant first. -/
def natBytes : Nat → Nat → List Byte
  | 0, _ => []
  | k + 1, n => BitVec.ofNat 8 n :: natBytes k (n / 256)

/-- `pub_frame` of rule R8: `frame[i]` in bits `8*i+7 : 8*i`. -/
def framePort (f : Frame) : BitVec 4096 := BitVec.ofNat 4096 (bytesNat f)

/-- The frame that `pub_frame` carries. -/
def portFrame (p : BitVec 4096) : Frame := natBytes frameLen p.toNat

/-! ### Pixels (rules R66, R121, R122) -/

/-- Rules R66, R121 and R122: pixel `i` is taken from entries `3i` (green), `3i+1` (red), `3i+2` (blue) when all
three exist, and is zero otherwise. -/
def mapPixel (f : Frame) (i : Nat) : Pixel :=
  if 3 * i + 2 ≤ 511 then ⟨f.getD (3 * i + 1) 0, f.getD (3 * i) 0, f.getD (3 * i + 2) 0⟩ else ⟨0, 0, 0⟩

/-- Rule R121: the pixels `0 .. N_PIX-1` of a frame. -/
def mapFrame (nPix : Nat) (f : Frame) : List Pixel := (List.range nPix).map (mapPixel f)

/-! ### Transfer words (rules R65, R132) -/

/-- F-WORD: `(zext_32(g) << 24) | (zext_32(r) << 16) | (zext_32(b) << 8)`. -/
def packPixel (p : Pixel) : Word :=
  ((p.g.setWidth 32 <<< 24) ||| (p.r.setWidth 32 <<< 16)) ||| (p.b.setWidth 32 <<< 8)

/-- The pixel of a transfer word (rule R65's table of fields). -/
def unpackWord (w : Word) : Pixel :=
  ⟨w.extractLsb' 16 8, w.extractLsb' 24 8, w.extractLsb' 8 8⟩

/-- The next `n` bits to be sent of a shift register, `w[31]` first ("shifting proceeds left", rule R28). -/
def shiftBits (w : Word) (n : Nat) : List Level := (List.range n).map fun k => w.getLsbD (31 - k)

/-- Rule R136: the 24 cells of a word carry `w[31], w[30], ..., w[8]`. -/
def wordBits (w : Word) : List Level := shiftBits w 24

/-- `msb8` of rule R140. -/
def msb8 (x : Byte) : List Level := (List.range 8).map fun k => x.getLsbD (7 - k)

/-- `bits(p)` of rule R140: what one write puts on the wire. -/
def ledFrameBits (pixels : List Pixel) : List Level :=
  pixels.flatMap fun p => msb8 p.g ++ msb8 p.r ++ msb8 p.b

/-! ### Bit cells (rules R67, R68) -/

/-- `cell(v) = [1]*T1 ++ [v]*T2 ++ [0]*T3` of rule R68. -/
def cellTicks (c : Config) (v : Level) : List Level :=
  List.replicate c.t1 true ++ List.replicate c.t2 v ++ List.replicate c.t3 false

end Sys2Proof.Machine
end

