-- ==== Sys2Proof/Machine/Divisor.lean ====
section
/-! DEFINITION. F-DIV, the clock divisor (`30_encoding.md` rule R70, `43_encoder.md` rule R130), and the serial
bit time in system clocks (rule R17's baud counter). -/

namespace Sys2Proof.Machine

/-- Rule R70: `floor (F_SYS * 256 / (F_BIT * TICKS_PER_BIT))`, in exact integer arithmetic. -/
def divisorQuotient (c : Config) : Nat :=
  c.fSys * 2 ^ divFracBits / (c.fBit * c.ticksPerBit)

/-- Rule R70: the value is legal when `256 <= ENC.clkdiv < 2^24`. -/
def divisorLegal (c : Config) : Bool :=
  decide (2 ^ divFracBits ≤ divisorQuotient c) && decide (divisorQuotient c < 2 ^ (divIntBits + divFracBits))

/-- What `ENC.clkdiv` holds (rules R24 and R130): the quotient, or a free value where 24 bits cannot hold it
(log entry 4). -/
def divisorWord (c : Config) : BitVec 24 :=
  if divisorQuotient c < 2 ^ (divIntBits + divFracBits) then BitVec.ofNat 24 (divisorQuotient c)
  else Config.clkdivUnfit (divisorQuotient c)

/-- INT = `clkdiv[23:8]` (rules R24 and R36). -/
def divisorInt (d : BitVec 24) : BitVec 16 := d.extractLsb' 8 16

/-- FRAC = `clkdiv[7:0]` (rules R24 and R36). -/
def divisorFrac (d : BitVec 24) : BitVec 8 := d.extractLsb' 0 8

/-- System clocks per serial bit time, for the baud counter of rule R17 that "divides clk_sys to RX_BAUD".
DESIGN CHOICE (log entry 11): rounded down, and at least 1. -/
def clocksPerBit (c : Config) : Nat := max 1 (c.fSys / rxBaud)

end Sys2Proof.Machine
end

