-- ==== Sys2Proof/Machine/State.lean ====
section
/-! DEFINITION. The state of the block (`10_state.md`), the environment's pending inputs, the reasons a step can
stop, and the state after reset (rule R38). Every field is plain data. -/

namespace Sys2Proof.Machine

/-- The buffers of `20_memory.md` rule R40 that have indices. -/
inductive BufName where
  | rxBuf
  | slot
  | rlFrame
  | pix
  | wordbuf
  deriving DecidableEq, Repr

/-- Why the machine stops. -/
inductive Fault where
  /-- Raised by a read of a buffer element that nothing has written (`93_implementation_defined.md` U1: "fault if
  read before written; no rule does"). Safe: the block never gets here from reset. -/
  | unwritten (b : BufName)
  /-- Raised by an access to an index outside a buffer (rule R43: it "cannot arise"). Safe. -/
  | badIndex (b : BufName) (i : Nat)
  /-- Raised by ENC.WRITE when its precondition `ENC.dma_busy = 0` fails (rule R131: "it always holds"). Safe. -/
  | writeWhileBusy
  deriving DecidableEq, Repr

/-- Why a step has no meaning. -/
inductive Refusal where
  /-- Raised by `exec` for an operation that has no meaning yet. Safe. -/
  | notModelled (mnemonic : String)
  /-- Raised by `step` for a coded form that is no operation (rule R72, and U4 and R131 for calls that cannot be
  expressed). Safe. -/
  | undecodable (r : Reject)
  /-- Raised by `step` when a parameter breaks a constraint (U17: `refuse`). Safe. -/
  | illegalParameters
  deriving DecidableEq, Repr

/-- A buffer of rule R40: pairs of index and element, indices strictly rising. An index that is not listed holds
no value: "a model gives the field no value, and a rule that read it before a write would fault" (rule R38). A
byte buffer is a list of `Host.Cell`. -/
abbrev Memory (α : Type) := List (Nat × α)

/-- `RL.state` of rule R21. -/
inductive RlState where
  | take
  | map
  | write
  | publish
  deriving DecidableEq, Repr

/-- `ENC.phase` of rule R30. -/
inductive Phase where
  | start
  | data
  | stop
  deriving DecidableEq, Repr

/-- An entry of the `LOG` trace (rules R161, R175) and of the `FATAL` trace (rule R165). -/
inductive LogEntry where
  | receive (kind : ReceiveKind)
  | publishError
  | hardwareFault
  deriving DecidableEq, Repr

/-- An accepted message (rule R71). -/
structure PubMsg where
  seq : Nat
  frame : Frame
  deriving DecidableEq, Repr

/-- The bit-level state of the serial input (rule R17), and `opened` (DEDUCED, log entry 10: rule R61's "a falling
edge opens a window"). -/
structure Serial where
  /-- Waiting for the line to return high. -/
  waitHigh : Bool
  /-- A window is open. -/
  opened : Bool
  /-- The samples of the character in progress, oldest first. -/
  sampler : List Level
  /-- The bit counter, 0 to 10. -/
  bitCnt : Nat
  /-- The baud counter, in system clocks. -/
  baudCnt : Nat
  deriving DecidableEq, Repr

/-- Unit RX (rules R12 to R17). -/
structure Rx where
  /-- `RX.buf[0]`. -/
  buf0 : Memory Byte
  /-- `RX.buf[1]`. -/
  buf1 : Memory Byte
  /-- `RX.active`: `false` is 0, `true` is 1. -/
  active : Bool
  count : Nat
  first : Bool
  prevLen : Nat
  /-- `RX.idle_cnt`. -/
  idleCnt : Nat
  serial : Serial
  deriving DecidableEq, Repr

/-- Unit MBX (rules R18 to R20). -/
structure Mbx where
  slot : Memory Byte
  full : Bool
  deriving DecidableEq, Repr

/-- Unit RL (rules R21 to R23). -/
structure Rl where
  state : RlState
  frame : Memory Byte
  pix : Memory Pixel
  deriving DecidableEq, Repr

/-- Unit ENC (rules R24 to R31), and `divAcc`, the divider's accumulator of rule R143. -/
structure Enc where
  clkdiv : BitVec 24
  wordbuf : Memory Word
  dmaBusy : Bool
  dmaIdx : Nat
  fifo : List Word
  osr : Word
  bitsLeft : Nat
  phase : Phase
  tickCnt : Nat
  led : Level
  divAcc : Nat
  deriving DecidableEq, Repr

/-- Unit PUB (rule R32): one counter per publishing context, below `2^SEQ_W`. -/
structure Pub where
  seqReceive : Nat
  seqRender : Nat
  deriving DecidableEq, Repr

/-- SYS (rule R33), and the model's own `runOn`: how many bit cells went out after the fatal fault (rule R142). -/
structure Sys where
  fatal : Bool
  runOn : Nat
  deriving DecidableEq, Repr

/-- The output traces of rule R34, oldest entry first. `ledBits` is the `LED` trace at the bit level and
`ledTicks` the same trace at the tick level (rules R8, R68). -/
structure Trace where
  ledBits : List Level
  ledTicks : List Level
  pub : List PubMsg
  log : List LogEntry
  fatal : List LogEntry
  deriving DecidableEq, Repr

/-- What an operation that returns a value gave its caller when it was called on its own (log entry 9). -/
inductive Ret where
  | frame (f : Frame)
  | published (ok : Bool)
  deriving DecidableEq, Repr

/-- The agents of rule R3 that have no input symbol of their own. -/
inductive Agent where
  | rl
  | dma
  | shift
  deriving DecidableEq, Repr

/-- One entry of an input trace: a line input, a draw of the environment, or which agent steps next (rule R3 and
the programs of `95_test_vectors.md`; log entry 5). -/
inductive Event where
  /-- LINE: a whole character window, eleven samples (rules R60 to R63). -/
  | window (s : BitVec 11)
  /-- LINE: the line timeout of rule R90 (symbol `IDLE` of rule R73). -/
  | idle
  /-- LINE at the bit level: one bit time with `dmx_rx` at a level. -/
  | lineBit (v : Level)
  /-- LINE at the clock level: one period of the receiver's `clk_sys` with `dmx_rx` at a level. -/
  | lineClk (v : Level)
  /-- The agent takes its next step. -/
  | run (a : Agent)
  /-- ENC.SHIFT at the tick level: one tick. -/
  | encTick
  /-- ENC.SHIFT at the clock level: one period of the encoder's `clk_sys`. -/
  | encClk
  /-- HOST: the level of `pub_ready` from now on. -/
  | ready (v : Bool)
  /-- FAULT: `enc_fault`. -/
  | encFault
  /-- The input `rst`. -/
  | rst
  /-- After a fatal fault: one more bit cell that was already handed off goes out (rule R142). -/
  | runOn
  /-- An operation called on its own, outside the order in which the units call it (log entry 8). -/
  | call (c : Code)
  deriving DecidableEq, Repr

/-- What is outside the block: the pending input trace and the level of `pub_ready`. -/
structure Env where
  pending : List Event
  pubReady : Bool
  deriving DecidableEq, Repr

/-- The state. -/
structure State where
  cfg : Config
  rx : Rx
  mbx : Mbx
  rl : Rl
  enc : Enc
  pub : Pub
  sys : Sys
  trace : Trace
  ret : Option Ret
  env : Env
  deriving DecidableEq, Repr

/-- What the next pending event comes to: an operation to run, a step of hidden or environment state only, or a
coded form that is no operation. -/
inductive Fetched where
  | run (i : Instr) (s : State)
  | quiet (s : State)
  | reject (r : Reject)
  deriving DecidableEq, Repr

namespace State

/-- The updates of one part of the state. -/
def withRx (s : State) (x : Rx) : State := { s with rx := x }
def withMbx (s : State) (x : Mbx) : State := { s with mbx := x }
def withRl (s : State) (x : Rl) : State := { s with rl := x }
def withEnc (s : State) (x : Enc) : State := { s with enc := x }
def withPub (s : State) (x : Pub) : State := { s with pub := x }
def withSys (s : State) (x : Sys) : State := { s with sys := x }
def withTrace (s : State) (x : Trace) : State := { s with trace := x }
def withRet (s : State) (x : Option Ret) : State := { s with ret := x }
def withEnv (s : State) (x : Env) : State := { s with env := x }

/-- The table of rule R38, with ENC.INIT's divisor (rules R24, R70). Buffers hold no value. The baud counter and
the divider's accumulator, which the table does not name, are 0 (DESIGN CHOICE, log entry 12); `pub_ready` is low
and nothing is pending (DESIGN CHOICE, log entry 5). -/
def powerOn (c : Config) : State where
  cfg := c
  rx :=
    { buf0 := [], buf1 := [], active := false, count := 0, first := true, prevLen := 0, idleCnt := 0,
      serial := { waitHigh := true, opened := false, sampler := [], bitCnt := 0, baudCnt := 0 } }
  mbx := { slot := [], full := false }
  rl := { state := .take, frame := [], pix := [] }
  enc :=
    { clkdiv := divisorWord c, wordbuf := [], dmaBusy := false, dmaIdx := 0, fifo := [], osr := 0, bitsLeft := 0,
      phase := .start, tickCnt := 0, led := false, divAcc := 0 }
  pub := { seqReceive := 0, seqRender := 0 }
  sys := { fatal := false, runOn := 0 }
  trace := { ledBits := [], ledTicks := [], pub := [], log := [], fatal := [] }
  ret := none
  env := { pending := [], pubReady := false }

/-- The state after reset for given parameters: rule R38 when the divisor is legal; otherwise ENC.INIT has raised
the hardware fault and "the block is in the fatal state before either context does anything" (rules R130, R164,
R165, R192). -/
def resetOf (c : Config) : State :=
  if divisorLegal c then powerOn c
  else
    { powerOn c with
      sys := { fatal := true, runOn := 0 }
      trace := { ledBits := [], ledTicks := [], pub := [], log := [.hardwareFault], fatal := [.hardwareFault] } }

/-- The machine right after reset, under the parameter set of log entry 2. Its divisor is legal, so this is
`resetOf Config.example1` (`Laws/State.lean`). -/
def reset : State := powerOn Config.example1

end State

end Sys2Proof.Machine
end

