-- ==== Sys2Proof/Machine/Ops.lean ====
section
/-! DEFINITION. The named operations the meanings share: reads and writes of buffers (`20_memory.md` rules R40 to
R46), the output traces (rule R34), the enabling condition of every unit (rule R33), the entry into the fatal state
(`60_exceptions.md` rule R165) and the return from it (rules R166, R190). -/

namespace Sys2Proof.Machine

/-! ### Buffers -/

namespace Memory

variable {α : Type}

/-- The element at an index, if it has been written. -/
def read : Memory α → Nat → Option α
  | [], _ => none
  | (k, v) :: m, i => if k = i then some v else read m i

/-- Write one element, keeping the indices rising. -/
def write : Memory α → Nat → α → Memory α
  | [], i, v => [(i, v)]
  | (k, w) :: m, i, v =>
    if i < k then (i, v) :: (k, w) :: m
    else if i = k then (i, v) :: m
    else (k, w) :: write m i v

/-- The `n` elements from index `i` on, if all of them have been written. -/
def readBlock : Memory α → Nat → Nat → Option (List α)
  | _, _, 0 => some []
  | [], _, _ + 1 => none
  | (k, v) :: m, i, n + 1 =>
    if k < i then readBlock m i (n + 1)
    else if k = i then (readBlock m (i + 1) n).map (v :: ·)
    else none

/-- A buffer that holds exactly the given elements, from index `i` on. -/
def ofListAt (i : Nat) : List α → Memory α
  | [] => []
  | v :: vs => (i, v) :: ofListAt (i + 1) vs

/-- A buffer that holds exactly the given elements, from index 0 on. -/
def ofList (vs : List α) : Memory α := ofListAt 0 vs

/-- The indices are at least `lo` and strictly rising. -/
def risingFrom (lo : Nat) : Memory α → Bool
  | [] => true
  | (k, _) :: m => decide (lo ≤ k) && risingFrom (k + 1) m

/-- The canonical form: indices strictly rising. (An unlisted index holds no value, so no entry equals it.) -/
def wf (m : Memory α) : Bool := risingFrom 0 m

/-- Every index is below the buffer's size. -/
def below (cap : Nat) (m : Memory α) : Bool := m.all fun e => decide (e.1 < cap)

/-- The elements `i .. i+n-1` have been written. -/
def written (m : Memory α) (i n : Nat) : Bool := (readBlock m i n).isSome

end Memory

/-- `BufRead(B, i)` of rule R6, for a buffer of `cap` elements. -/
def bufRead {α : Type} (b : BufName) (cap : Nat) (m : Memory α) (i : Nat) : Except Fault α :=
  if i < cap then
    match Memory.read m i with
    | some v => .ok v
    | none => .error (.unwritten b)
  else .error (.badIndex b i)

/-- `BufWrite(B, i, v)` of rule R6, for a buffer of `cap` elements. -/
def bufWrite {α : Type} (b : BufName) (cap : Nat) (m : Memory α) (i : Nat) (v : α) : Except Fault (Memory α) :=
  if i < cap then .ok (Memory.write m i v) else .error (.badIndex b i)

/-- Elements `0 .. n-1` in one indivisible step (rules R44, R45). -/
def bufBlock {α : Type} (b : BufName) (m : Memory α) (n : Nat) : Except Fault (List α) :=
  match Memory.readBlock m 0 n with
  | some vs => .ok vs
  | none => .error (.unwritten b)

/-! ### Which buffer, which counter -/

/-- `RX.buf[j]`. -/
def Rx.buf (r : Rx) (j : Bool) : Memory Byte := if j then r.buf1 else r.buf0

/-- `RX.buf[j]` replaced. -/
def Rx.setBuf (r : Rx) (j : Bool) (m : Memory Byte) : Rx :=
  if j then { r with buf1 := m } else { r with buf0 := m }

/-- `PUB.seq[c]`. -/
def Pub.seq (p : Pub) : Ctx → Nat
  | .receive => p.seqReceive
  | .render => p.seqRender

/-- `PUB.seq[c]` replaced. -/
def Pub.setSeq (p : Pub) (c : Ctx) (n : Nat) : Pub :=
  match c with
  | .receive => { p with seqReceive := n }
  | .render => { p with seqRender := n }

/-! ### Traces -/

/-- `emit(LOG, e)`. -/
def Trace.emitLog (t : Trace) (e : LogEntry) : Trace := { t with log := t.log ++ [e] }

/-- `emit(PUB, m)`. -/
def Trace.emitPub (t : Trace) (m : PubMsg) : Trace := { t with pub := t.pub ++ [m] }

/-- `emit(FATAL, e)`. -/
def Trace.emitFatal (t : Trace) (e : LogEntry) : Trace := { t with fatal := t.fatal ++ [e] }

/-- `emit(LED, v)`, with the ticks by which the cell is seen at the tick level. -/
def Trace.emitCell (t : Trace) (v : Level) (ticks : List Level) : Trace :=
  { t with ledBits := t.ledBits ++ [v], ledTicks := t.ledTicks ++ ticks }

/-- One tick of `led_out`. -/
def Trace.emitTick (t : Trace) (v : Level) : Trace := { t with ledTicks := t.ledTicks ++ [v] }

/-! ### Enabling, faults, and the fatal state -/

/-- The outcome of an operation of a unit: "While it is 1 no unit takes a step" (rule R33), and a step that is not
enabled changes no state (rule R6, `await`). -/
def live (s : State) (r : Except Fault State) : Host.Outcome State Fault Refusal :=
  if s.sys.fatal then .next s
  else
    match r with
    | .ok t => .next t
    | .error f => .fault f

/-- Taking the hardware fault (rule R165): the latch, one `FATAL` entry, one `LOG` entry, nothing saved. -/
def takeHardwareFault (s : State) : State :=
  (s.withSys { s.sys with fatal := true }).withTrace
    ((s.trace.emitFatal .hardwareFault).emitLog .hardwareFault)

/-- The return from the fatal state, reset (rules R166, R190): every field of the block as rule R38 says. The
parameters and what is outside the block stay. -/
def returnByReset (s : State) : State := (State.resetOf s.cfg).withEnv s.env

end Sys2Proof.Machine
end

