-- ==== Sys2Proof/Machine/Flags.lean ====
section
/-! DEFINITION. The one-bit status flags of `10_state.md` rule R35: what sets and clears each. (`ENC.dma_busy` is
set by ENC.WRITE and cleared by ENC.DONE, `SYS.fatal` is set by `takeHardwareFault`, all cleared by reset.) -/

namespace Sys2Proof.Machine

/-- The roles of the two raw receive buffers swap (rule R13). -/
def toggleActive (s : State) : State := s.withRx { s.rx with active := !s.rx.active }

/-- `RX.first <- 0` (rule R86). -/
def clearFirst (s : State) : State := s.withRx { s.rx with first := false }

/-- `RX.first <- 1` (rules R89 and R90). -/
def setFirst (s : State) : State := s.withRx { s.rx with first := true }

/-- Whether an error sets `RX.first` again (rule R89): `RX_RESYNC_ON_ERROR and not at_break`. -/
def resyncs (c : Config) (atBreak : Bool) : Bool := c.resyncOnError && !atBreak

/-- The result of a read that ends at a break (rule R82); the first-frame flag is tested before the empty chunk
(rule R170). -/
def breakResult (s : State) : ReadResult :=
  if !s.rx.first && decide (s.rx.count = 0) && s.cfg.emptyIsError then .err .breakWithoutData else .ok s.rx.count

/-- `ENC.dma_busy <- b` (rules R131 and R137). -/
def setDmaBusy (s : State) (b : Bool) : State := s.withEnc { s.enc with dmaBusy := b }

/-- `ENC.done`, the completion that the caller of a write awaits: `ENC.dma_busy = 0` (rule R137). -/
def encDone (s : State) : Bool := !s.enc.dmaBusy

/-- `MBX.wake` is the level `MBX.full` (rules R20 and R113). -/
def mbxWake (s : State) : Bool := s.mbx.full

end Sys2Proof.Machine
end

