-- ==== Sys2Proof/Machine/Encoder.lean ====
section
/-! DEFINITION. Unit ENC, the waveform encoder (`43_encoder.md`): initialisation, the write, the streaming
transfer, the bit generator at the event level and, below, at the tick and clock levels. -/

namespace Sys2Proof.Machine

/-! ### Front end -/

/-- The assignments of ENC.INIT (rule R130). The tick-level fields take their reset values too (log entry 13). -/
def initFields (s : State) : State :=
  s.withEnc
    { s.enc with
      clkdiv := divisorWord s.cfg, dmaBusy := false, dmaIdx := 0, fifo := [], osr := 0, bitsLeft := 0, led := false,
      phase := .start, tickCnt := 0, divAcc := 0 }

/-- ENC.INIT (rule R130): an illegal divisor raises the hardware fault (rule R164). -/
def initialise (s : State) : State :=
  if divisorLegal s.cfg then initFields s else takeHardwareFault (initFields s)

/-- ENC.PACK (rule R132): the word buffer holds the transfer words of the array. -/
def pack (px : List Pixel) (s : State) : State :=
  s.withEnc { s.enc with wordbuf := Memory.ofList (px.map packPixel) }

/-- ENC.WRITE (rule R131), with its precondition `ENC.dma_busy = 0`. -/
def write (px : List Pixel) (s : State) : Except Fault State :=
  if s.enc.dmaBusy then .error .writeWhileBusy
  else
    let t := pack px s
    .ok (setDmaBusy (t.withEnc { t.enc with dmaIdx := 0 }) true)

/-! ### The streaming transfer -/

/-- ENC.DONE (rule R137). -/
def transferDone (s : State) : State := setDmaBusy s false

/-- ENC.DMA is enabled (rule R133; `SYS.fatal` apart). -/
def dmaEnabled (s : State) : Bool := s.enc.dmaBusy && decide (s.enc.fifo.length < s.cfg.fifoDepth)

/-- ENC.DMA (rule R133) when enabled: one word moves. -/
def moveWord (s : State) : Except Fault State :=
  match bufRead .wordbuf s.cfg.nPix s.enc.wordbuf s.enc.dmaIdx with
  | .ok w =>
    let t := s.withEnc { s.enc with fifo := s.enc.fifo ++ [w], dmaIdx := s.enc.dmaIdx + 1 }
    .ok (if s.enc.dmaIdx + 1 = s.cfg.nPix then transferDone t else t)
  | .error e => .error e

/-! ### The bit generator -/

/-- ENC.PULL (rule R134), enabled when `ENC.bits_left = 0` and the FIFO is not empty. -/
def pull (s : State) : State :=
  match s.enc.fifo with
  | [] => s
  | w :: ws => if s.enc.bitsLeft = 0 then s.withEnc { s.enc with osr := w, fifo := ws, bitsLeft := 24 } else s

/-- `v = ENC.osr[31]` (rule R135). -/
def nextBit (s : State) : Level := s.enc.osr.getLsbD 31

/-- The ticks of the cell in progress that are still to come; the whole cell at a cell boundary (rules R30, R68). -/
def cellRest (c : Config) (ph : Phase) (cnt : Nat) (v : Level) : List Level :=
  if cnt = 0 then cellTicks c v
  else
    match ph with
    | .start => List.replicate cnt true ++ List.replicate c.t2 v ++ List.replicate c.t3 false
    | .data => List.replicate cnt v ++ List.replicate c.t3 false
    | .stop => List.replicate cnt false

/-- One bit cell (rule R135): emitted, shifted out, counted. It ends low and at a cell boundary. (In a state that
the tick level has left inside a cell, this is the rest of that cell, log entry 14.) -/
def cellStep (s : State) : State :=
  let v := nextBit s
  (s.withTrace (s.trace.emitCell v (cellRest s.cfg s.enc.phase s.enc.tickCnt v))).withEnc
    { s.enc with
      osr := s.enc.osr <<< 1, bitsLeft := s.enc.bitsLeft - 1, phase := .start, tickCnt := 0, led := false }

/-- The shifter is idle (rule R138). -/
def shifterIdle (s : State) : Bool := decide (s.enc.bitsLeft = 0) && s.enc.fifo.isEmpty

/-- ENC.IDLE (rule R138): the line is low, and the tick that passes is seen at the tick level only. -/
def idleTick (s : State) : State := (s.withTrace (s.trace.emitTick false)).withEnc { s.enc with led := false }

/-! ### The tick level (rules R30, R67, R134, R135) -/

/-- The sub-phase of the coming tick and the ticks left in it, this one included: at a cell boundary the start
sub-phase is loaded. -/
def tickPhase (s : State) : Phase × Nat :=
  if s.enc.tickCnt = 0 then (.start, s.cfg.t1) else (s.enc.phase, s.enc.tickCnt)

/-- The level of a sub-phase (rule R67). -/
def phaseLevel (v : Level) : Phase → Level
  | .start => true
  | .data => v
  | .stop => false

/-- The last tick of a cell: the bit is recorded, shifted out and counted (rule R135). -/
def endCell (s : State) : State :=
  (s.withTrace { s.trace with ledBits := s.trace.ledBits ++ [nextBit s] }).withEnc
    { s.enc with osr := s.enc.osr <<< 1, bitsLeft := s.enc.bitsLeft - 1, phase := .start, tickCnt := 0 }

/-- One tick inside a cell: the level is driven, then the sub-phase's ticks count down and the next sub-phase is
loaded with its own. -/
def cellTick (s : State) : State :=
  let p := tickPhase s
  let v := phaseLevel (nextBit s) p.1
  let t := (s.withTrace (s.trace.emitTick v)).withEnc { s.enc with led := v, phase := p.1, tickCnt := p.2 - 1 }
  if p.2 - 1 = 0 then
    match p.1 with
    | .start => t.withEnc { t.enc with phase := .data, tickCnt := s.cfg.t2 }
    | .data => t.withEnc { t.enc with phase := .stop, tickCnt := s.cfg.t3 }
    | .stop => endCell t
  else t

/-- One tick of the bit generator. A pull takes no tick of its own (rule R134); an idle tick is low (rule R138). -/
def tick (s : State) : State :=
  let t := pull s
  if t.enc.bitsLeft = 0 then idleTick t else cellTick t

/-! ### The clock level (rules R143, R173) -/

/-- One period of `clk_sys`: the accumulator gains 256 and a tick falls due each time it reaches `ENC.clkdiv`, so
that a tick is INT or INT + 1 clocks long (DEDUCED, log entry 12). -/
def encClock (s : State) : State :=
  let a := s.enc.divAcc + 2 ^ divFracBits
  if s.enc.clkdiv.toNat ≤ a then tick (s.withEnc { s.enc with divAcc := a - s.enc.clkdiv.toNat })
  else s.withEnc { s.enc with divAcc := a }

/-! ### After a fatal fault (rule R142) -/

/-- The bits that the words already requested still hold, in the order in which they go out: the shift register's,
the FIFO's, and those of the transfer in progress. -/
def owedBits (s : State) : List Level :=
  shiftBits s.enc.osr s.enc.bitsLeft ++ s.enc.fifo.flatMap wordBits ++
    (if s.enc.dmaBusy then
      ((Memory.readBlock s.enc.wordbuf s.enc.dmaIdx (s.cfg.nPix - s.enc.dmaIdx)).getD []).flatMap wordBits
    else [])

/-- The same, less the cells that went out after the fatal fault. -/
def owed (s : State) : List Level := (owedBits s).drop s.sys.runOn

/-- Rule R142: after the fault "words already handed off may still go out", cell by cell; the line is low after
each. Nothing but the `LED` trace and the count of such cells changes. DEDUCED (log entry 20): the cells follow one
another without a gap; no idle tick falls before or between them once `SYS.fatal = 1`. -/
def runOnCell (s : State) : State :=
  if s.sys.fatal then
    match owed s with
    | [] => s
    | v :: _ =>
      (s.withTrace (s.trace.emitCell v (cellTicks s.cfg v))).withSys { s.sys with runOn := s.sys.runOn + 1 }
  else s

/-! ### The meanings -/

/-- ENC.INIT, rule R130. -/
def execEncInit (s : State) : Host.Outcome State Fault Refusal := live s (.ok (initialise s))

/-- ENC.WRITE, rule R131. -/
def execEncWrite (px : List Pixel) (s : State) : Host.Outcome State Fault Refusal := live s (write px s)

/-- ENC.PACK, rule R132. -/
def execEncPack (px : List Pixel) (s : State) : Host.Outcome State Fault Refusal := live s (.ok (pack px s))

/-- ENC.DMA, rule R133. -/
def execEncDma (s : State) : Host.Outcome State Fault Refusal :=
  live s (if dmaEnabled s then moveWord s else .ok s)

/-- ENC.DONE, rule R137. -/
def execEncDone (s : State) : Host.Outcome State Fault Refusal := live s (.ok (transferDone s))

/-- ENC.PULL, rule R134. -/
def execEncPull (s : State) : Host.Outcome State Fault Refusal := live s (.ok (pull s))

/-- ENC.CELL0, rule R135: the operation of a cell whose bit is 0. -/
def execEncCell0 (s : State) : Host.Outcome State Fault Refusal :=
  live s (.ok (if 0 < s.enc.bitsLeft ∧ nextBit s = false then cellStep s else s))

/-- ENC.CELL1, rule R135: the operation of a cell whose bit is 1. -/
def execEncCell1 (s : State) : Host.Outcome State Fault Refusal :=
  live s (.ok (if 0 < s.enc.bitsLeft ∧ nextBit s = true then cellStep s else s))

/-- ENC.IDLE, rule R138. -/
def execEncIdle (s : State) : Host.Outcome State Fault Refusal :=
  live s (.ok (if shifterIdle s then idleTick s else s))

end Sys2Proof.Machine
end

