-- ==== Sys2Proof/Machine/Mailbox.lean ====
section
/-! DEFINITION. Unit MBX, the single-slot Frame Mailbox (`41_mailbox.md`). -/

namespace Sys2Proof.Machine

/-- MBX.DEPOSIT (rule R110): the slot holds the frame and is full, whatever it held. -/
def deposit (f : Frame) (s : State) : State := s.withMbx { slot := Memory.ofList f, full := true }

/-- The frame of MBX.TAKE and the state after it (rule R111), for a full slot. Afterwards the slot's contents are
unspecified (rule R18, U2): it holds no value. -/
def takeFrame (s : State) : Except Fault (Frame × State) :=
  match bufBlock .slot s.mbx.slot frameLen with
  | .ok f => .ok (f, s.withMbx { slot := [], full := false })
  | .error e => .error e

/-- MBX.DEPOSIT, rule R110. -/
def execMbxDeposit (f : Frame) (s : State) : Host.Outcome State Fault Refusal := live s (.ok (deposit f s))

/-- MBX.TAKE, rule R111: waits while the slot is empty. The frame goes to the caller. -/
def execMbxTake (s : State) : Host.Outcome State Fault Refusal :=
  live s <|
    if s.mbx.full then
      match takeFrame s with
      | .ok (f, t) => .ok (t.withRet (some (.frame f)))
      | .error e => .error e
    else .ok s

end Sys2Proof.Machine
end

