-- ==== Sys2Proof/Machine/Publisher.lean ====
section
/-! DEFINITION. Unit PUB, the Frame Publisher's handshake and sequence counters (`44_publisher.md`). The draw
`ready` of a call is the level of `pub_ready` at that time (rules R8 and R150). -/

namespace Sys2Proof.Machine

/-- PUB.PUBLISH, the transport is ready (rule R150): the message carries the counter before the increment. -/
def publishSuccess (c : Ctx) (f : Frame) (s : State) : State :=
  (s.withTrace (s.trace.emitPub ⟨s.pub.seq c, f⟩)).withPub
    (s.pub.setSeq c ((s.pub.seq c + 1) % 2 ^ s.cfg.seqW))

/-- PUB.PUBLISH, the transport is not ready (rule R151): one log entry and nothing else. -/
def publishFailure (s : State) : State := s.withTrace (s.trace.emitLog .publishError)

/-- One publish attempt (rules R150 and R151). -/
def publish (c : Ctx) (f : Frame) (s : State) : State :=
  if s.env.pubReady then publishSuccess c f s else publishFailure s

/-- PUB.PUBLISH, rule R150, which goes to rule R151 when the transport is not ready. -/
def execPubPublish (c : Ctx) (f : Frame) (s : State) : Host.Outcome State Fault Refusal :=
  live s (.ok ((publish c f s).withRet (some (.published s.env.pubReady))))

/-- PUB.PUBLISH.FAIL, rule R151: selected when the draw is `false`; when it is `true` the operation is not
enabled. The frame is neither sent nor queued. -/
def execPubPublishFail (_c : Ctx) (_f : Frame) (s : State) : Host.Outcome State Fault Refusal :=
  live s (.ok (if s.env.pubReady then s else (publishFailure s).withRet (some (.published false))))

end Sys2Proof.Machine
end

