-- ==== Sys2Proof/Machine/Receiver.lean ====
section
/-! DEFINITION. Unit RX, the DMX Frame Receiver (`40_receiver.md`). -/

namespace Sys2Proof.Machine

/-- RX.ARM (rule R80): a read is armed on `RX.buf[RX.active]` with `RX.count = 0`. -/
def arm (s : State) : State := s.withRx { s.rx with count := 0 }

/-- RX.DISCARD (rule R86). -/
def discard (s : State) : State := clearFirst s

/-- RX.BUILD (rule R87): from the previous buffer, `k = min(n, 512)` bytes and then zeros. -/
def build (n : Nat) (s : State) : Except Fault Frame :=
  match bufBlock .rxBuf (s.rx.buf (!s.rx.active)) (min n frameLen) with
  | .ok bytes => .ok (padFrame bytes)
  | .error e => .error e

/-- RX.DELIVER (rule R88): build, publish when PUB_SITE = RX, deposit. -/
def deliver (n : Nat) (s : State) : Except Fault State :=
  match build n s with
  | .ok f => .ok (deposit f (if s.cfg.pubSite = .rx then publish .receive f s else s))
  | .error e => .error e

/-- RX.DROP (rule R89). -/
def drop (kind : ReceiveKind) (atBreak : Bool) (s : State) : State :=
  let t := s.withTrace (s.trace.emitLog (.receive kind))
  if resyncs s.cfg atBreak then setFirst t else t

/-- Steps 1 to 3 of RX.COMPLETE (rule R85): the length is kept, the roles swap, the next read is armed. -/
def swapBuffers (s : State) : State :=
  arm (toggleActive (s.withRx { s.rx with prevLen := s.rx.count }))

/-- RX.COMPLETE (rule R85). -/
def complete (result : ReadResult) (atBreak : Bool) (s : State) : Except Fault State :=
  let t := swapBuffers s
  match result with
  | .ok n => if t.rx.first then .ok (discard t) else deliver n t
  | .err kind => .ok (drop kind atBreak t)

/-- RX.FULL (rule R84). -/
def readFull (s : State) : Except Fault State := complete (.err .overrun) false s

/-- RX.CHR (rule R81). -/
def character (b : Byte) (s : State) : Except Fault State :=
  match bufWrite .rxBuf s.cfg.rxCap (s.rx.buf s.rx.active) s.rx.count b with
  | .ok m =>
    let t := s.withRx { s.rx.setBuf s.rx.active m with count := s.rx.count + 1 }
    if s.rx.count + 1 = s.cfg.rxCap then readFull t else .ok t
  | .error e => .error e

/-- RX.FERR (rule R83): the data samples are dropped. -/
def framingError (s : State) : Except Fault State := complete (.err .framing) false s

/-- The condition under which the symbol `Idle` is produced (rule R90), the timing apart. -/
def idleEnabled (s : State) : Bool :=
  decide (0 < s.cfg.idleTimeout) && !s.rx.first && decide (0 < s.rx.count)

/-- RX.IDLE (rule R90). -/
def lineTimeout (s : State) : Except Fault State :=
  match complete (.ok s.rx.count) false s with
  | .ok t => .ok (setFirst t)
  | .error e => .error e

/-- RX.ARM, rule R80. -/
def execRxArm (s : State) : Host.Outcome State Fault Refusal := live s (.ok (arm s))

/-- RX.CHR, rule R81. -/
def execRxChr (b : Byte) (s : State) : Host.Outcome State Fault Refusal := live s (character b s)

/-- RX.BRK, rule R82. -/
def execRxBrk (s : State) : Host.Outcome State Fault Refusal := live s (complete (breakResult s) true s)

/-- RX.FERR, rule R83, first stop bit low. -/
def execRxFerrStop1 (_d : Byte) (_x : Level) (s : State) : Host.Outcome State Fault Refusal :=
  live s (framingError s)

/-- RX.FERR, rule R83, second stop bit low. -/
def execRxFerrStop2 (_d : Byte) (s : State) : Host.Outcome State Fault Refusal := live s (framingError s)

/-- RX.FULL, rule R84. -/
def execRxFull (s : State) : Host.Outcome State Fault Refusal := live s (readFull s)

/-- RX.COMPLETE, rule R85. -/
def execRxComplete (result : ReadResult) (atBreak : Bool) (s : State) : Host.Outcome State Fault Refusal :=
  live s (complete result atBreak s)

/-- RX.DISCARD, rule R86. -/
def execRxDiscard (s : State) : Host.Outcome State Fault Refusal := live s (.ok (discard s))

/-- RX.BUILD, rule R87: a pure function; the frame goes to the caller. -/
def execRxBuild (n : Nat) (s : State) : Host.Outcome State Fault Refusal :=
  live s <|
    match build n s with
    | .ok f => .ok (s.withRet (some (.frame f)))
    | .error e => .error e

/-- RX.DELIVER, rule R88. -/
def execRxDeliver (n : Nat) (s : State) : Host.Outcome State Fault Refusal := live s (deliver n s)

/-- RX.DROP, rule R89. -/
def execRxDrop (kind : ReceiveKind) (atBreak : Bool) (s : State) : Host.Outcome State Fault Refusal :=
  live s (.ok (drop kind atBreak s))

/-- RX.IDLE, rule R90: idle time with the feature absent, with `RX.first = 1` or with `RX.count = 0` produces
nothing. -/
def execRxIdle (s : State) : Host.Outcome State Fault Refusal :=
  live s (if idleEnabled s then lineTimeout s else .ok s)

end Sys2Proof.Machine
end

