-- ==== Sys2Proof/Machine/Render.lean ====
section
/-! DEFINITION. Unit RL, the Render Loop (`42_render.md`). -/

namespace Sys2Proof.Machine

/-- `RL.state <- st`. -/
def setRlState (st : RlState) (s : State) : State := s.withRl { s.rl with state := st }

/-- RL.TAKE (rule R120) when enabled. -/
def rlTake (s : State) : Except Fault State :=
  match takeFrame s with
  | .ok (f, t) => .ok (t.withRl { t.rl with frame := Memory.ofList f, state := .map })
  | .error e => .error e

/-- RL.MAP (rules R121, R122) when enabled: the pixels are computed, `WRITE` is entered and the write requested. -/
def rlMap (s : State) : Except Fault State :=
  match bufBlock .rlFrame s.rl.frame frameLen with
  | .ok f =>
    let px := mapFrame s.cfg.nPix f
    write px (s.withRl { s.rl with pix := Memory.ofList px, state := .write })
  | .error e => .error e

/-- RL.PUBLISH (rule R124) when enabled. -/
def rlPublish (s : State) : Except Fault State :=
  match bufBlock .rlFrame s.rl.frame frameLen with
  | .ok f => .ok (setRlState .take (publish .render f s))
  | .error e => .error e

/-- RL.TAKE, rule R120: waits while the mailbox is empty. -/
def execRlTake (s : State) : Host.Outcome State Fault Refusal :=
  live s (if s.rl.state = .take ∧ s.mbx.full = true then rlTake s else .ok s)

/-- RL.MAP, rules R121 and R122. -/
def execRlMap (s : State) : Host.Outcome State Fault Refusal :=
  live s (if s.rl.state = .map then rlMap s else .ok s)

/-- RL.WRITE, rule R123: waits until the encoder signals completion. -/
def execRlWrite (s : State) : Host.Outcome State Fault Refusal :=
  live s (.ok (if s.rl.state = .write ∧ encDone s = true then
    setRlState (if s.cfg.pubSite = .rl then .publish else .take) s else s))

/-- RL.PUBLISH, rule R124. -/
def execRlPublish (s : State) : Host.Outcome State Fault Refusal :=
  live s (if s.rl.state = .publish then rlPublish s else .ok s)

end Sys2Proof.Machine
end

