-- ==== Sys2Proof/Machine/System.lean ====
section
/-! DEFINITION. SYS: the hardware fault (`60_exceptions.md` rule R165) and reset (`70_reset_and_hazards.md` rule
R190). -/

namespace Sys2Proof.Machine

/-- A cell that the tick level has begun ends, so that the `LED` trace ends "at a cell boundary; after it the line
is low" (rule R142; log entry 14). At a cell boundary, nothing. -/
def finishCell (s : State) : State :=
  if s.enc.tickCnt ≠ 0 ∧ 0 < s.enc.bitsLeft then cellStep s else s

/-- SYS.FAULT, rule R165. Once the latch is set no other step runs (rule R170). -/
def execSysFault (s : State) : Host.Outcome State Fault Refusal :=
  live s (.ok (takeHardwareFault (finishCell s)))

/-- SYS.RESET, rule R190: the only way out of the fatal state. -/
def execSysReset (s : State) : Host.Outcome State Fault Refusal := .next (returnByReset s)

end Sys2Proof.Machine
end

