-- ==== Sys2Proof/Machine/Dispatch.lean ====
section
/-! DEFINITION. The operation map (`30_encoding.md` rule R74): one arm per row of `spec/opcode_table.json`. -/

namespace Sys2Proof.Machine

def exec (i : Instr) (s : State) : Host.Outcome State Fault Refusal :=
  match i with
  | .rxArm => Sys2Proof.Machine.execRxArm s
  | .rxChr b => Sys2Proof.Machine.execRxChr b s
  | .rxBrk => Sys2Proof.Machine.execRxBrk s
  | .rxFerrStop1 d x => Sys2Proof.Machine.execRxFerrStop1 d x s
  | .rxFerrStop2 d => Sys2Proof.Machine.execRxFerrStop2 d s
  | .rxFull => Sys2Proof.Machine.execRxFull s
  | .rxComplete result atBreak => Sys2Proof.Machine.execRxComplete result atBreak s
  | .rxDiscard => Sys2Proof.Machine.execRxDiscard s
  | .rxBuild n => Sys2Proof.Machine.execRxBuild n s
  | .rxDeliver n => Sys2Proof.Machine.execRxDeliver n s
  | .rxDrop kind atBreak => Sys2Proof.Machine.execRxDrop kind atBreak s
  | .rxIdle => Sys2Proof.Machine.execRxIdle s
  | .mbxDeposit frame => Sys2Proof.Machine.execMbxDeposit frame s
  | .mbxTake => Sys2Proof.Machine.execMbxTake s
  | .rlTake => Sys2Proof.Machine.execRlTake s
  | .rlMap => Sys2Proof.Machine.execRlMap s
  | .rlWrite => Sys2Proof.Machine.execRlWrite s
  | .rlPublish => Sys2Proof.Machine.execRlPublish s
  | .encInit => Sys2Proof.Machine.execEncInit s
  | .encWrite pixels => Sys2Proof.Machine.execEncWrite pixels s
  | .encPack pixels => Sys2Proof.Machine.execEncPack pixels s
  | .encDma => Sys2Proof.Machine.execEncDma s
  | .encDone => Sys2Proof.Machine.execEncDone s
  | .encPull => Sys2Proof.Machine.execEncPull s
  | .encCell0 => Sys2Proof.Machine.execEncCell0 s
  | .encCell1 => Sys2Proof.Machine.execEncCell1 s
  | .encIdle => Sys2Proof.Machine.execEncIdle s
  | .pubPublish ctx frame => Sys2Proof.Machine.execPubPublish ctx frame s
  | .pubPublishFail ctx frame => Sys2Proof.Machine.execPubPublishFail ctx frame s
  | .sysFault => Sys2Proof.Machine.execSysFault s
  | .sysReset => Sys2Proof.Machine.execSysReset s

end Sys2Proof.Machine
end

