-- ==== Sys2Proof/WellFormed.lean ====
section
/-! DEFINITION. Which operands an operation can have, for given parameters: the types of rule R7, the ranges of
`10_state.md` and the array length of `43_encoder.md` rule R131. -/

namespace Sys2Proof

/-- Rule R7: a Frame has exactly 512 entries. -/
def Frame.wf (f : Frame) : Bool := decide (f.length = frameLen)

/-- Rule R7 with rule R14: a byte count is 0 to RX_CAP. -/
def ReadResult.wf (c : Config) : ReadResult → Bool
  | .ok n => decide (n ≤ c.rxCap)
  | .err _ => true

/-- The operands are ones the operation's rule admits. -/
def Instr.wf (c : Config) : Instr → Bool
  | .rxArm => true
  | .rxChr _ => true
  | .rxBrk => true
  -- rule R63: "excluding the all-zero window"
  | .rxFerrStop1 d x => x || decide (d ≠ 0)
  | .rxFerrStop2 _ => true
  | .rxFull => true
  | .rxComplete result _ => result.wf c
  | .rxDiscard => true
  | .rxBuild n => decide (n ≤ c.rxCap)
  | .rxDeliver n => decide (n ≤ c.rxCap)
  | .rxDrop _ _ => true
  | .rxIdle => true
  | .mbxDeposit frame => Frame.wf frame
  | .mbxTake => true
  | .rlTake => true
  | .rlMap => true
  | .rlWrite => true
  | .rlPublish => true
  -- rule R70: only a legal divisor is an F-DIV value
  | .encInit => Machine.divisorLegal c
  -- rule R131: "The array length is N_PIX by type"
  | .encWrite pixels => decide (pixels.length = c.nPix)
  | .encPack pixels => decide (pixels.length = c.nPix)
  | .encDma => true
  | .encDone => true
  | .encPull => true
  | .encCell0 => true
  | .encCell1 => true
  | .encIdle => true
  | .pubPublish _ frame => Frame.wf frame
  | .pubPublishFail _ frame => Frame.wf frame
  | .sysFault => true
  | .sysReset => true

end Sys2Proof
end

