-- ==== Sys2Proof/Decode.lean ====
section
/-! DEFINITION. The decoder, total on every coded form and rejecting by name, and after it the encoder, both
written from the formats of `30_encoding.md` (rules R60 to R71) and the rows of `spec/opcode_table.json`. -/

namespace Sys2Proof

/-- Rule R61: what a window of eleven samples is. -/
def decodeSerial (s : BitVec 11) : Except Reject Instr :=
  if s.getLsbD 0 then .error .glitch
  else if s = 0 then .ok .rxBrk
  else if s.getLsbD 9 then
    if s.getLsbD 10 then .ok (.rxChr (Machine.windowData s)) else .ok (.rxFerrStop2 (Machine.windowData s))
  else .ok (.rxFerrStop1 (Machine.windowData s) (s.getLsbD 10))

/-- F-WORD (rules R65, R72): bits 7:0 are zero. -/
def decodeWord (w : Word) : Except Reject Pixel :=
  if w.extractLsb' 0 8 = 0#8 then .ok (Machine.unpackWord w) else .error .lowByte

/-- One F-WORD per pixel. -/
def decodeWords : List Word → Except Reject (List Pixel)
  | [] => .ok []
  | w :: ws =>
    match decodeWord w, decodeWords ws with
    | .ok p, .ok ps => .ok (p :: ps)
    | .error r, _ => .error r
    | _, .error r => .error r

/-- F-CELL (rule R67) for the given tick counts. -/
def decodeCell (c : Config) (ticks : List Level) : Except Reject Instr :=
  if ticks = Machine.cellTicks c true then .ok .encCell1
  else if ticks = Machine.cellTicks c false then .ok .encCell0
  else .error .badCell

/-- F-DIV (rule R70): the one divisor the parameters give, when it is legal. -/
def decodeDivisor (c : Config) (d : BitVec 24) : Except Reject Instr :=
  if Machine.divisorLegal c && decide (d = Machine.divisorWord c) then .ok .encInit else .error .badDivisor

/-! ### Operands of the OP rows, as numbers (log entry 6) -/

def byteArg (n : Nat) : Option Byte := if n < 256 then some (BitVec.ofNat 8 n) else none

def byteArgs : List Nat → Option (List Byte)
  | [] => some []
  | n :: ns =>
    match byteArg n, byteArgs ns with
    | some b, some bs => some (b :: bs)
    | _, _ => none

/-- A pixel is three numbers, red first (rule R7). -/
def pixelArgs : List Nat → Option (List Pixel)
  | [] => some []
  | r :: g :: b :: ns =>
    match byteArg r, byteArg g, byteArg b, pixelArgs ns with
    | some r, some g, some b, some ps => some (⟨r, g, b⟩ :: ps)
    | _, _, _, _ => none
  | _ => none

def boolArg : Nat → Option Bool
  | 0 => some false
  | 1 => some true
  | _ => none

/-- The kinds by their codes on the log port (rule R161). -/
def kindArg : Nat → Option ReceiveKind
  | 1 => some .framing
  | 2 => some .overrun
  | 3 => some .breakWithoutData
  | _ => none

def ctxArg : Nat → Option Ctx
  | 0 => some .receive
  | 1 => some .render
  | _ => none

/-- A completion: `[0, n, at_break]` for `Ok(n)`, `[1, kind, at_break]` for `Err(kind)`. -/
def completeArgs : List Nat → Option Instr
  | [0, n, ab] => (boolArg ab).map (.rxComplete (.ok n))
  | [1, k, ab] => (kindArg k).bind fun kind => (boolArg ab).map (.rxComplete (.err kind))
  | _ => none

def dropArgs : List Nat → Option Instr
  | [k, ab] => (kindArg k).bind fun kind => (boolArg ab).map (.rxDrop kind)
  | _ => none

def noArgs (i : Instr) : List Nat → Option Instr
  | [] => some i
  | _ => none

def oneArg (f : Nat → Instr) : List Nat → Option Instr
  | [n] => some (f n)
  | _ => none

def failArgs : List Nat → Option Instr
  | ctx :: bytes => (ctxArg ctx).bind fun x => (byteArgs bytes).map (.pubPublishFail x)
  | [] => none

/-- The rows of format OP of `spec/opcode_table.json`, by their position, counted from 0; `none` for a number that
names no such row. -/
def opRow (row : Nat) (args : List Nat) : Option (Option Instr) :=
  match row with
  | 0 => some (noArgs .rxArm args)
  | 5 => some (noArgs .rxFull args)
  | 6 => some (completeArgs args)
  | 7 => some (noArgs .rxDiscard args)
  | 8 => some (oneArg .rxBuild args)
  | 9 => some (oneArg .rxDeliver args)
  | 10 => some (dropArgs args)
  | 11 => some (noArgs .rxIdle args)
  | 12 => some ((byteArgs args).map .mbxDeposit)
  | 13 => some (noArgs .mbxTake args)
  | 14 => some (noArgs .rlTake args)
  | 15 => some (noArgs .rlMap args)
  | 16 => some (noArgs .rlWrite args)
  | 17 => some (noArgs .rlPublish args)
  | 19 => some ((pixelArgs args).map .encWrite)
  | 21 => some (noArgs .encDma args)
  | 22 => some (noArgs .encDone args)
  | 23 => some (noArgs .encPull args)
  | 26 => some (noArgs .encIdle args)
  | 28 => some (failArgs args)
  | 29 => some (noArgs .sysFault args)
  | 30 => some (noArgs .sysReset args)
  | _ => none

/-- A row of format OP with operands that its rule admits. -/
def decodeOp (c : Config) (row : Nat) (args : List Nat) : Except Reject Instr :=
  match opRow row args with
  | none => .error .noSuchRow
  | some none => .error .badOperands
  | some (some i) => if i.wf c then .ok i else .error .badOperands

/-- The decoder. -/
def decode (c : Config) : Code → Except Reject Instr
  | .serial s => decodeSerial s
  | .words ws =>
    if ws.length = c.nPix then
      match decodeWords ws with
      | .ok ps => .ok (.encPack ps)
      | .error r => .error r
    else .error .wordCount
  | .cell ticks => decodeCell c ticks
  | .divisor d => decodeDivisor c d
  | .pubmsg ctx p => .ok (.pubPublish ctx (Machine.portFrame p))
  | .op row args => decodeOp c row args
  | .raw _ _ => .error .noFormat

/-! ### The encoder -/

def boolNum (b : Bool) : Nat := if b then 1 else 0

/-- `log_code` of rule R161 for a receive error. -/
def kindNum : ReceiveKind → Nat
  | .framing => 1
  | .overrun => 2
  | .breakWithoutData => 3

def ctxNum : Ctx → Nat
  | .receive => 0
  | .render => 1

def resultNums : ReadResult → List Nat
  | .ok n => [0, n]
  | .err kind => [1, kindNum kind]

def pixelNums (ps : List Pixel) : List Nat := ps.flatMap fun p => [p.r.toNat, p.g.toNat, p.b.toNat]

/-- The encoder. -/
def encode (c : Config) : Instr → Code
  | .rxArm => .op 0 []
  | .rxChr b => .serial (Machine.window b true true)
  | .rxBrk => .serial (Machine.window 0 false false)
  | .rxFerrStop1 d x => .serial (Machine.window d false x)
  | .rxFerrStop2 d => .serial (Machine.window d true false)
  | .rxFull => .op 5 []
  | .rxComplete result atBreak => .op 6 (resultNums result ++ [boolNum atBreak])
  | .rxDiscard => .op 7 []
  | .rxBuild n => .op 8 [n]
  | .rxDeliver n => .op 9 [n]
  | .rxDrop kind atBreak => .op 10 [kindNum kind, boolNum atBreak]
  | .rxIdle => .op 11 []
  | .mbxDeposit frame => .op 12 (frame.map BitVec.toNat)
  | .mbxTake => .op 13 []
  | .rlTake => .op 14 []
  | .rlMap => .op 15 []
  | .rlWrite => .op 16 []
  | .rlPublish => .op 17 []
  | .encInit => .divisor (Machine.divisorWord c)
  | .encWrite pixels => .op 19 (pixelNums pixels)
  | .encPack pixels => .words (pixels.map Machine.packPixel)
  | .encDma => .op 21 []
  | .encDone => .op 22 []
  | .encPull => .op 23 []
  | .encCell0 => .cell (Machine.cellTicks c false)
  | .encCell1 => .cell (Machine.cellTicks c true)
  | .encIdle => .op 26 []
  | .pubPublish ctx frame => .pubmsg ctx (Machine.framePort frame)
  | .pubPublishFail ctx frame => .op 28 (ctxNum ctx :: frame.map BitVec.toNat)
  | .sysFault => .op 29 []
  | .sysReset => .op 30 []

/-- The format a coded form is written in. -/
def Code.format : Code → Option Format
  | .serial s =>
    if s = 0 then some .fBreak
    else if s.getLsbD 0 then none
    else if s.getLsbD 9 && s.getLsbD 10 then some .fChar else some .fFerr
  | .words _ => some .fWord
  | .cell _ => some .fCell
  | .divisor _ => some .fDiv
  | .pubmsg _ _ => some .fPubmsg
  | .op _ _ => some .op
  | .raw _ _ => none

/-! ### Words of the opcode table (log entry 7) -/

/-- The coded form of `w`, read in the format that has `nbits` bits when counted in whole bytes: 3 ticks of a bit
cell in 8, a serial window in 16, a divisor in 24, a transfer word in 32. The first tick and the first sample are
bit 0. -/
def tableCode (nbits w : Nat) : Code :=
  match nbits with
  | 8 => if w < 2 ^ 3 then .cell ((List.range 3).map w.testBit) else .raw 8 w
  | 16 => if w < 2 ^ 11 then .serial (BitVec.ofNat 11 w) else .raw 16 w
  | 24 => if w < 2 ^ 24 then .divisor (BitVec.ofNat 24 w) else .raw 24 w
  | 32 => if w < 2 ^ 32 then .words [BitVec.ofNat 32 w] else .raw 32 w
  | n => .raw n w

/-- The operation that the decoder reads from a word of the opcode table, under the parameters of `State.reset`. -/
def decodeTableWord (nbits w : Nat) : Option Instr :=
  match decode Config.example1 (tableCode nbits w) with
  | .ok i => some i
  | .error _ => none

end Sys2Proof
end

