-- ==== Sys2Proof/Machine/Line.lean ====
section
/-! DEFINITION. The serial input below the line symbol: the window, the sampler and the baud counter (rules R17,
R60 to R63), and the bit times of the optional timeout (rule R90). While `SYS.fatal = 1` line input has no effect
(rule R91). -/

namespace Sys2Proof.Machine

/-- A classified window: a glitch is ignored (rules R61, R72), any other window is an operation. -/
def lineWindow (w : BitVec 11) (s : State) : Fetched :=
  match decodeSerial w with
  | .ok i => .run i s
  | .error _ => .quiet s

/-- The window is closed; the receiver looks for the next falling edge, or first for a high line. The idle time of
rule R90 is counted from here on. -/
def closeWindow (waitHigh : Bool) (s : State) : State :=
  s.withRx
    { s.rx with
      idleCnt := 0
      serial := { waitHigh := waitHigh, opened := false, sampler := [], bitCnt := 0, baudCnt := 0 } }

/-- A falling edge opens a window (rule R61). -/
def openWindow (s : State) : State :=
  s.withRx
    { s.rx with serial := { s.rx.serial with opened := true, sampler := [], bitCnt := 0, baudCnt := 0 } }

/-- One sample of an open window, taken at the centre of its bit time (rule R61). A high start sample is a glitch:
the receiver goes back to waiting. -/
def takeSample (v : Level) (s : State) : State :=
  let z := s.rx.serial
  if z.bitCnt = 0 ∧ v = true then closeWindow false s
  else s.withRx { s.rx with serial := { z with sampler := z.sampler ++ [v] } }

/-- Whether the receiver first waits for a high line after a window: after a break or a framing error, when the line
is low as the window ends (rule R61; log entry 10). -/
def waitsAfter (w : BitVec 11) (v : Level) : Bool := !v && !(w.getLsbD 9 && w.getLsbD 10)

/-- The end of a bit time of an open window, with the line at a level. The end of the eleventh, the second stop bit,
is the end of the character: the window closes and is classified (rules R60 and R61). -/
def endBit (v : Level) (s : State) : Fetched :=
  let z := s.rx.serial
  if z.bitCnt < 10 then .quiet (s.withRx { s.rx with serial := { z with bitCnt := z.bitCnt + 1, baudCnt := 0 } })
  else
    let w := windowOf z.sampler
    lineWindow w (closeWindow (waitsAfter w v) s)

/-- One bit time in which the line is high and no window is open (rule R90): `Idle` is produced once, when the
count reaches RX_IDLE_TIMEOUT. The count stands still when the feature is absent (rule R17). -/
def idleBit (s : State) : Fetched :=
  if s.cfg.idleTimeout = 0 then .quiet s
  else
    let t := s.withRx { s.rx with idleCnt := s.rx.idleCnt + 1 }
    if s.rx.idleCnt + 1 = s.cfg.idleTimeout ∧ idleEnabled s = true then .run .rxIdle t else .quiet t

/-- The line is seen high after a break or a framing error, or after reset. -/
def lineHigh (s : State) : State := s.withRx { s.rx with serial := { s.rx.serial with waitHigh := false } }

/-- One bit time of an open window: its sample, if that has not been taken yet, and its end. -/
def windowBit (v : Level) (s : State) : Fetched :=
  let t := if s.rx.serial.sampler.length ≤ s.rx.serial.bitCnt then takeSample v s else s
  if t.rx.serial.opened then endBit v t else .quiet t

/-- One bit time of the line (rule R61). -/
def lineBit (v : Level) (s : State) : Fetched :=
  if s.sys.fatal then .quiet s
  else if s.rx.serial.waitHigh then .quiet (if v then lineHigh s else s)
  else if s.rx.serial.opened then windowBit v s
  else if v then idleBit s
  else windowBit false (openWindow s)

/-- `RX` baud counter replaced. -/
def setBaud (n : Nat) (s : State) : State := s.withRx { s.rx with serial := { s.rx.serial with baudCnt := n } }

/-- One clock of an open window: a sample falls due in the middle of the bit time (log entry 11), and the bit time
ends with its last clock. -/
def windowClock (v : Level) (s : State) : Fetched :=
  let n := s.rx.serial.baudCnt
  let t := if n = clocksPerBit s.cfg / 2 then takeSample v s else s
  if t.rx.serial.opened then (if clocksPerBit s.cfg ≤ n + 1 then endBit v t else .quiet (setBaud (n + 1) t))
  else .quiet t

/-- One period of the receiver's `clk_sys` (rules R17, R173). A falling edge opens a window; while the line is high
between windows the baud counter times the bit times of rule R90. -/
def lineClock (v : Level) (s : State) : Fetched :=
  if s.sys.fatal then .quiet s
  else if s.rx.serial.waitHigh then .quiet (if v then lineHigh s else s)
  else if s.rx.serial.opened then windowClock v s
  else if v then
    if clocksPerBit s.cfg ≤ s.rx.serial.baudCnt + 1 then idleBit (setBaud 0 s)
    else .quiet (setBaud (s.rx.serial.baudCnt + 1) s)
  else windowClock false (openWindow s)

end Sys2Proof.Machine
end

