-- ==== Sys2Proof/Machine/Fetch.lean ====
section
/-! DEFINITION. What the next pending event comes to: the operation map of `30_encoding.md` rule R74 ("an operation
is selected by the input symbol or by the state that enables it"). -/

namespace Sys2Proof.Machine

/-- The operation of an agent's next step (the "selected by" column of rule R74). -/
def select (a : Agent) (s : State) : Instr :=
  match a with
  | .rl =>
    match s.rl.state with
    | .take => .rlTake
    | .map => .rlMap
    | .write => .rlWrite
    | .publish => .rlPublish
  | .dma => .encDma
  | .shift =>
    if 0 < s.enc.bitsLeft then (if nextBit s then .encCell1 else .encCell0)
    else if s.enc.fifo.isEmpty then .encIdle
    else .encPull

/-- An operation called on its own, by its coded form. A window whose start sample is high is ignored. -/
def fetchCall (c : Code) (s : State) : Fetched :=
  match decode s.cfg c with
  | .ok i => .run i s
  | .error .glitch => .quiet s
  | .error r => .reject r

/-- One tick or clock of the encoder's own time; none while `SYS.fatal = 1`. An idle tick is ENC.IDLE. -/
def fetchTick (s : State) : Fetched :=
  if s.sys.fatal then .quiet s
  else if shifterIdle s then .run .encIdle s
  else .quiet (tick s)

/-- The next event. -/
def fetch (e : Event) (s : State) : Fetched :=
  match e with
  | .window w => lineWindow w s
  | .idle => .run .rxIdle s
  | .lineBit v => lineBit v s
  | .lineClk v => lineClock v s
  | .run a => .run (select a s) s
  | .encTick => fetchTick s
  | .encClk => .quiet (if s.sys.fatal then s else encClock s)
  | .ready v => .quiet (s.withEnv { s.env with pubReady := v })
  | .encFault => .run .sysFault s
  | .rst => .run .sysReset s
  | .runOn => .quiet (runOnCell s)
  | .call c => fetchCall c s

/-- The event is consumed. -/
def dropEvent (s : State) : State := s.withEnv { s.env with pending := s.env.pending.tail }

end Sys2Proof.Machine
end

