-- ==== Sys2Proof/Machine/Step.lean ====
section
/-! DEFINITION. One step of the machine: the first pending event is consumed and what it comes to happens. With
nothing pending every agent waits and nothing changes (rules R2, R6). -/

namespace Sys2Proof.Machine

/-- What a fetched event does. -/
def perform : Fetched → Host.Outcome State Fault Refusal
  | .run i s => exec i s
  | .quiet s => .next s
  | .reject r => .refused (.undecodable r)

/-- One step. Parameters that break a constraint are refused (U17). -/
def step (s : State) : Host.Outcome State Fault Refusal :=
  if s.cfg.legal then
    match s.env.pending with
    | [] => .next s
    | e :: _ => perform (fetch e (dropEvent s))
  else .refused .illegalParameters

/-- `s` with the operation that a word of the opcode table codes as its next event (log entries 5 and 7). -/
def State.withFetchWord (s : State) (nbits w : Nat) : State :=
  s.withEnv { s.env with pending := .call (tableCode nbits w) :: s.env.pending }

end Sys2Proof.Machine
end

