-- ==== Sys2Proof/Machine/Ports.lean ====
section
/-! DEFINITION. The output ports of rule R8 as functions of the state and of trace entries: `led_out`, `fatal`,
`log_code` (rule R161), `pub_seq` and `pub_frame` (rule R71). -/

namespace Sys2Proof.Machine

/-- `led_out`. -/
def ledOut (s : State) : Level := s.enc.led

/-- `fatal`. -/
def fatalOut (s : State) : Bool := s.sys.fatal

/-- `log_code` of rule R161. Codes 0, 5 and 6 are unused. -/
def logCode : LogEntry → BitVec 3
  | .receive .framing => 1
  | .receive .overrun => 2
  | .receive .breakWithoutData => 3
  | .publishError => 4
  | .hardwareFault => 7

/-- `pub_seq` while a message is on the port: SEQ_W bits. -/
def pubSeqPort (w : Nat) (m : PubMsg) : BitVec w := BitVec.ofNat w m.seq

/-- `pub_frame` while a message is on the port: `frame[i]` in bits `8*i+7 : 8*i`. -/
def pubFramePort (m : PubMsg) : BitVec 4096 := framePort m.frame

end Sys2Proof.Machine
end

