-- ==== Sys2Proof/Safety.lean ====
section
/-! DEFINITION. What the claims about the machine speak of: the invariant of `10_state.md` rule R39 with what it
rests on, the views of the state that a claim compares, and the receiver of `40_receiver.md` rule R92 as a
reference. Nothing here is used by the machine. -/

namespace Sys2Proof.Safety

open Sys2Proof.Machine

/-! ### The invariant -/

/-- The event is a call of an operation on its own (log entry 8): no step of the block by the spec's own order. -/
def isCall : Event → Bool
  | .call _ => true
  | _ => false

/-- The low byte of a transfer word is 0 (rules R65 and R39). -/
def lowByteZero (w : Word) : Bool := decide (w.extractLsb' 0 8 = 0#8)

/-- A buffer is in canonical form and within its size (rules R40 and R43). -/
def bufferOk {α : Type} (cap : Nat) (m : Memory α) : Bool := Memory.wf m && Memory.below cap m

/-- The ticks of a sub-phase (rule R67). -/
def phaseTicks (c : Config) : Phase → Nat
  | .start => c.t1
  | .data => c.t2
  | .stop => c.t3

/-- Rule R17: the sampler and its counters. An open window has one sample for each bit time that is over, and one
more once the clock level has passed the centre of the bit time (log entries 10 and 11). -/
def serialOk (c : Config) (z : Serial) : Bool :=
  decide (z.sampler.length = z.bitCnt + (if z.opened ∧ clocksPerBit c / 2 < z.baudCnt then 1 else 0)) &&
  decide (z.bitCnt ≤ 10) && decide (z.baudCnt < clocksPerBit c) &&
  (z.opened || decide (z.bitCnt = 0)) && !(z.waitHigh && z.opened)

/-- RX: rules R14, R16 and R39, and that the bytes of the open chunk have been written (rule R12). -/
def rxOk (c : Config) (r : Rx) : Bool :=
  decide (r.count < c.rxCap) && decide (r.prevLen ≤ c.rxCap) && bufferOk c.rxCap r.buf0 && bufferOk c.rxCap r.buf1 &&
  Memory.written (r.buf r.active) 0 r.count && serialOk c r.serial

/-- MBX: a full slot holds a whole frame (rules R18, R45). -/
def mbxOk (m : Mbx) : Bool := bufferOk frameLen m.slot && (!m.full || Memory.written m.slot 0 frameLen)

/-- RL: outside `TAKE` the loop owns a whole frame, and after the mapping all its pixels (rules R22, R23); it is in
`PUBLISH` only where PUB_SITE = RL (rules R21, R124). -/
def rlOk (c : Config) (r : Rl) : Bool :=
  bufferOk frameLen r.frame && bufferOk c.nPix r.pix && (decide (r.state ≠ .publish) || decide (c.pubSite = .rl)) &&
  (decide (r.state = .take) || Memory.written r.frame 0 frameLen) &&
  (decide (r.state = .take) || decide (r.state = .map) || Memory.written r.pix 0 c.nPix)

/-- The transfer (rules R26 and R39): while it runs, the loop waits in `WRITE` (rule R50). DEDUCED (log entry 25):
rule R39's "requested and not yet completed" for `WRITE` is read as "the transfer runs or has moved its last word",
since between ENC.DONE (rule R137) and RL.WRITE (rule R123) the loop is still in `WRITE`. -/
def dmaOk (c : Config) (st : RlState) (e : Enc) : Bool :=
  if e.dmaBusy then decide (e.dmaIdx < c.nPix) && Memory.written e.wordbuf 0 c.nPix && decide (st = .write)
  else decide (e.dmaIdx = c.nPix) || (decide (e.dmaIdx = 0) && decide (st ≠ .write))

/-- Rule R39's "a write has been requested": in `WRITE` the word buffer holds the transfer words of `RL.pix`, as the
request put them there (rules R50, R123, R131, R132). -/
def writeOk (r : Rl) (e : Enc) : Bool :=
  decide (r.state ≠ .write) || decide (e.wordbuf = r.pix.map fun x => (x.1, packPixel x.2))

/-- The buffers and the shift register of ENC (rule R39). -/
def encOk (c : Config) (e : Enc) : Bool :=
  bufferOk c.nPix e.wordbuf && e.wordbuf.all (fun x => lowByteZero x.2) &&
  decide (e.fifo.length ≤ c.fifoDepth) && e.fifo.all lowByteZero &&
  decide (e.bitsLeft ≤ 24) && (decide (e.bitsLeft = 0) || lowByteZero e.osr)

/-- The tick level (rules R30, R31): at a cell boundary `START`, 0 and a low line; idle is at a boundary. -/
def tickOk (c : Config) (e : Enc) : Bool :=
  decide (e.tickCnt ≤ phaseTicks c e.phase) &&
  (decide (e.tickCnt ≠ 0) || (decide (e.phase = .start) && !e.led)) &&
  (decide (e.bitsLeft ≠ 0) || decide (e.tickCnt = 0))

/-- The divider of a running block (rules R24, R70, R143). -/
def dividerOk (c : Config) (e : Enc) : Bool :=
  divisorLegal c && decide (e.clkdiv = divisorWord c) && decide (e.divAcc < e.clkdiv.toNat)

/-- PUB: SEQ_W bits (rule R32). -/
def pubOk (c : Config) (p : Pub) : Bool := decide (p.seqReceive < 2 ^ c.seqW) && decide (p.seqRender < 2 ^ c.seqW)

/-- SYS: the `FATAL` trace has one entry exactly when the latch is set (rules R161 and R165; that a reset with an
illegal divisor leaves one is log entry 13, that a second fault adds none log entry 19), and a running block has no
cell that went out after a fault. -/
def sysOk (y : Sys) (t : Trace) : Bool :=
  if y.fatal then decide (t.fatal = [.hardwareFault]) else decide (t.fatal = []) && decide (y.runOn = 0)

/-- The invariant: rule R39, its clause on `WRITE` as log entry 25 reads it, and what it rests on. -/
structure Inv (s : State) : Prop where
  legal : s.cfg.legal = true
  rx : rxOk s.cfg s.rx = true
  mbx : mbxOk s.mbx = true
  rl : rlOk s.cfg s.rl = true
  dma : dmaOk s.cfg s.rl.state s.enc = true
  write : writeOk s.rl s.enc = true
  enc : encOk s.cfg s.enc = true
  tick : tickOk s.cfg s.enc = true
  divider : s.sys.fatal = true ∨ dividerOk s.cfg s.enc = true
  pub : pubOk s.cfg s.pub = true
  sys : sysOk s.sys s.trace = true

/-- The last clause of rule R39 as it is written, with rule R137's completion: in `WRITE` the write is not yet
completed. It is no part of `Inv`: the step that hands off the last word makes it false until RL.WRITE's step (rules
R123 and R137; log entry 25). -/
def writeNotCompleted (s : State) : Prop := s.rl.state = .write → encDone s = false

/-! ### Views -/

/-- The bits that are on the wire or still to go there because a write asked for them (rule R140). -/
def promised (s : State) : List Level := s.trace.ledBits ++ owed s

/-- The mailbox as a deposit of some whole frame leaves it, or untouched (rules R48 and R110). -/
def untouchedOrDeposited (s t : State) : Prop :=
  t.mbx = s.mbx ∨ ∃ f : Frame, f.length = 512 ∧ t.mbx = { slot := Memory.ofList f, full := true }

/-- The mailbox as the render loop's take of the whole frame of a full slot leaves it, or untouched (rules R48, R111
and R120). -/
def untouchedOrTaken (s t : State) : Prop :=
  t.mbx = s.mbx ∨
    s.mbx.full = true ∧ t.mbx.full = false ∧
      ∃ f : Frame, Memory.readBlock s.mbx.slot 0 512 = some f ∧ t.rl.frame = Memory.ofList f

/-- What a step of the receive context may touch (rule R171): RX, `PUB.seq[receive]`, the mailbox through a deposit
only, and the publisher's and the log's traces. -/
def onlyReceiveSide (s t : State) : Prop :=
  t.cfg = s.cfg ∧ t.rl = s.rl ∧ t.enc = s.enc ∧ t.sys = s.sys ∧ t.ret = s.ret ∧ t.env = s.env ∧
  t.pub.seqRender = s.pub.seqRender ∧ t.trace.ledBits = s.trace.ledBits ∧ t.trace.ledTicks = s.trace.ledTicks ∧
  t.trace.fatal = s.trace.fatal ∧ untouchedOrDeposited s t

/-- What a step of the render context may touch (rule R171): RL, ENC, `PUB.seq[render]`, the mailbox through a take
only, and the traces other than `FATAL`. -/
def onlyRenderSide (s t : State) : Prop :=
  t.cfg = s.cfg ∧ t.rx = s.rx ∧ t.sys = s.sys ∧ t.ret = s.ret ∧ t.env = s.env ∧
  t.pub.seqReceive = s.pub.seqReceive ∧ t.trace.fatal = s.trace.fatal ∧ untouchedOrTaken s t

/-- A trace of pending inputs with the levels that the host will put on `pub_ready` forgotten. -/
def forgetReady (es : List Event) : List Event :=
  es.map fun e => match e with | .ready _ => .ready false | e => e

/-- Two states that agree on all that the LEDs depend on, and on what is to come except what the host does: they may
differ in the counters, the `PUB` and `LOG` traces, the level of `pub_ready` now and at each later change, and what
a call returned (rule R154). -/
def sameLights (s t : State) : Prop :=
  s.cfg = t.cfg ∧ s.rx = t.rx ∧ s.mbx = t.mbx ∧ s.rl = t.rl ∧ s.enc = t.enc ∧ s.sys = t.sys ∧
  s.trace.ledBits = t.trace.ledBits ∧ s.trace.ledTicks = t.trace.ledTicks ∧ s.trace.fatal = t.trace.fatal ∧
  forgetReady s.env.pending = forgetReady t.env.pending

/-- Two outcomes of the same kind, with the same reason, or with next states that agree on the lights. -/
def sameLightsOutcome : Host.Outcome State Fault Refusal → Host.Outcome State Fault Refusal → Prop
  | .next s, .next t => sameLights s t
  | .fault f, .fault g => f = g
  | .refused r, .refused q => r = q
  | _, _ => False

/-- A state with its output traces emptied. -/
def forgetTraces (s : State) : State :=
  s.withTrace { ledBits := [], ledTicks := [], pub := [], log := [], fatal := [] }

/-- An outcome with the output traces of its next state emptied. -/
def forgetOutcome : Host.Outcome State Fault Refusal → Host.Outcome State Fault Refusal
  | .next s => .next (forgetTraces s)
  | .fault f => .fault f
  | .refused r => .refused r

/-- The buffer is in canonical form and its first elements are these. -/
def holds {α : Type} (m : Memory α) (vs : List α) : Prop :=
  Memory.wf m = true ∧ ∀ i < vs.length, Memory.read m i = vs[i]?

/-- All five buffers are in canonical form and within their sizes (rules R40 and R43). -/
def buffersOk (s : State) : Bool :=
  bufferOk s.cfg.rxCap s.rx.buf0 && bufferOk s.cfg.rxCap s.rx.buf1 && bufferOk frameLen s.mbx.slot &&
  bufferOk frameLen s.rl.frame && bufferOk s.cfg.nPix s.rl.pix && bufferOk s.cfg.nPix s.enc.wordbuf

/-- `s` with the trace of pending inputs replaced. -/
def withPending (s : State) (es : List Event) : State := s.withEnv { s.env with pending := es }

/-! ### What a chunk and a publish attempt give -/

/-- Rule R87: the frame of a chunk. -/
def isFrameOf (chunk : List Byte) (f : Frame) : Prop :=
  f.length = 512 ∧ ∀ i < 512, f[i]? = some (if i < chunk.length then chunk.getD i 0 else 0)

/-- Rules R150 and R151: what one publish attempt in context `c` does to the counters and the traces. -/
def publishAttempt (c : Ctx) (f : Frame) (s t : State) : Prop :=
  (s.env.pubReady = true →
    t.trace = { s.trace with pub := s.trace.pub ++ [⟨s.pub.seq c, f⟩] } ∧
    t.pub.seq c = (s.pub.seq c + 1) % 2 ^ s.cfg.seqW) ∧
  (s.env.pubReady = false →
    t.trace = { s.trace with log := s.trace.log ++ [.publishError] } ∧ t.pub.seq c = s.pub.seq c) ∧
  ∀ d, d ≠ c → t.pub.seq d = s.pub.seq d

/-- Rule R88: the frame was published, where PUB_SITE = RX, and is in the mailbox; RL, ENC, SYS, the parameters and
the surroundings are as they were. -/
def delivered (f : Frame) (s t : State) : Prop :=
  t.mbx.full = true ∧ (∀ i, Memory.read t.mbx.slot i = f[i]?) ∧
  (s.cfg.pubSite = .rx → publishAttempt .receive f s t) ∧
  (s.cfg.pubSite ≠ .rx → t.pub = s.pub ∧ t.trace = s.trace) ∧
  t = (((s.withRx t.rx).withMbx t.mbx).withPub t.pub).withTrace t.trace

/-- The receive errors of a `LOG` trace. -/
def receiveErrors (log : List LogEntry) : List ReceiveKind :=
  log.filterMap fun e => match e with | .receive k => some k | _ => none

/-- The render loop publishes only where PUB_SITE = RL (rules R21 and R124); a part of the invariant. -/
def publishesAtItsSite (s : State) : Prop := s.rl.state = .publish → s.cfg.pubSite = .rl

/-- The `PUB` trace numbers its messages 0, 1, 2, ... modulo `2^SEQ_W`, and the counter of the publishing context is
their count; the other counter is 0 (rules R32, R152 and R153). -/
def sequenceOk (s : State) : Prop :=
  s.trace.pub.map PubMsg.seq = (List.range s.trace.pub.length).map (· % 2 ^ s.cfg.seqW) ∧
  match s.cfg.pubSite with
  | .none => s.trace.pub = [] ∧ s.pub = ⟨0, 0⟩
  | .rx => s.pub = ⟨s.trace.pub.length % 2 ^ s.cfg.seqW, 0⟩
  | .rl => s.pub = ⟨0, s.trace.pub.length % 2 ^ s.cfg.seqW⟩

/-- The frame the mailbox holds, if it is full. -/
def mailboxFrame (s : State) : Option Frame :=
  if s.mbx.full then Memory.readBlock s.mbx.slot 0 frameLen else none

/-! ### The receiver as one function (rule R92) -/

/-- The state of rule R92's fold. -/
structure RxRef where
  first : Bool
  acc : List Byte
  deriving DecidableEq, Repr

/-- What one symbol gives: the next state, the frame delivered and the error logged. -/
structure RxRefOut where
  next : RxRef
  delivered : Option Frame
  logged : Option ReceiveKind
  deriving DecidableEq, Repr

/-- Rule R92, with RX_CAP = 513. The optional symbol `Idle` does nothing (RX_IDLE_TIMEOUT = 0). -/
def rxRefStep (r : RxRef) : Sym → RxRefOut
  | .chr b =>
    if r.acc.length + 1 = 513 then ⟨⟨true, []⟩, none, some .overrun⟩
    else ⟨⟨r.first, r.acc ++ [b]⟩, none, none⟩
  | .brk =>
    if r.first then ⟨⟨false, []⟩, none, none⟩
    else ⟨⟨false, []⟩, some (r.acc.take 512 ++ List.replicate (512 - r.acc.length) 0), none⟩
  | .ferr => ⟨⟨true, []⟩, none, some .framing⟩
  | .idle => ⟨r, none, none⟩

/-- The fold of rule R92 over a sequence of symbols: the state, the frames delivered and the errors logged, in
order. -/
def rxRefRun (r : RxRef) : List Sym → RxRef × List Frame × List ReceiveKind
  | [] => (r, [], [])
  | x :: xs =>
    let o := rxRefStep r x
    let p := rxRefRun o.next xs
    (p.1, o.delivered.toList ++ p.2.1, o.logged.toList ++ p.2.2)

/-- The receiver's state as rule R92 sees it: the flag, and the bytes of the open chunk. -/
def rxView (s : State) : Option RxRef :=
  (Memory.readBlock (s.rx.buf s.rx.active) 0 s.rx.count).map fun acc => ⟨s.rx.first, acc⟩

/-- The event that presents a line symbol; the windows are those of rules R60, R62 and R63. -/
def symEvent : Sym → Event
  | .chr b => .window (window b true true)
  | .brk => .window 0
  | .ferr => .window (window 0x10 true false)
  | .idle => .idle

/-- The operation that a line symbol selects (rule R74), a framing error by either of its windows. -/
def selectsSym : Instr → Sym → Prop
  | .rxChr b, .chr b' => b = b'
  | .rxBrk, .brk => True
  | .rxFerrStop1 _ _, .ferr => True
  | .rxFerrStop2 _, .ferr => True
  | .rxIdle, .idle => True
  | _, _ => False

end Sys2Proof.Safety
end

