-- ==== Sys2Proof/Certificates/Slice0/Obligations.lean ====
section
/-! DEFINITION. The statements for the provers. Each docstring names the rule of `spec/` it speaks of. "Running block"
means `SYS.fatal = 0`. -/

open Sys2Proof Sys2Proof.Machine Sys2Proof.Safety

/-- Written-out codes of the formats decode to their operations (30_encoding.md sections 1 to 3; 95_test_vectors.md
section 2; log entry 6 (the OP codes 12 and 14, a DESIGN CHOICE)). -/
def Obligations.SampleCodesDecode : Prop :=
  decode Config.example1 (.serial 0b11001100000) = .ok (.rxChr 0x30) ∧
  decode Config.example1 (.serial 0b00000000000) = .ok .rxBrk ∧
  decode Config.example1 (.serial 0b01000100000) = .ok (.rxFerrStop2 0x10) ∧
  decode Config.example1 (.serial 0b10000100000) = .ok (.rxFerrStop1 0x10 true) ∧
  decode Config.example1 (.serial 0b11111111111) = .error .glitch ∧
  decode Config.example1 (.cell [true, true, false]) = .ok .encCell1 ∧
  decode Config.example1 (.cell [true, false, false]) = .ok .encCell0 ∧
  decode Config.example1 (.divisor 0x003415) = .ok .encInit ∧
  decode Config.example1 (.words [0x34125600]) = .ok (.encPack [⟨0x12, 0x34, 0x56⟩]) ∧
  decode Config.example1 (.words [0x34125601]) = .error .lowByte ∧
  decode Config.example1 (.op 14 []) = .ok .rlTake ∧
  decode Config.example1 (.op 12 (List.replicate 511 0)) = .error .badOperands

/-- For legal parameters, decoding the encoding of any well-formed operation gives it back (30_encoding.md rules R60
to R71; log entry 6). -/
def Obligations.DecodeOfEncodeIsTheOperation : Prop :=
  ∀ (c : Config) (i : Instr), c.legal = true → i.wf c = true → decode c (encode c i) = .ok i

/-- A code that decodes to an operation is that operation's one encoding (30_encoding.md rules R60 to R71; log entry
6). -/
def Obligations.EncodeOfDecodeIsTheCode : Prop :=
  ∀ (c : Config) (k : Code) (i : Instr), decode c k = .ok i → encode c i = k

/-- What the decoder accepts has operands that the rules admit (00_scope.md rule R7; 10_state.md rule R14;
30_encoding.md rules R63, R64 and R70; 43_encoder.md rule R131; log entry 6 (the OP codes, a DESIGN CHOICE)). -/
def Obligations.DecodedOperationIsWellFormed : Prop :=
  ∀ (c : Config) (k : Code) (i : Instr), decode c k = .ok i → i.wf c = true

/-- A step whose next event calls a coded operation runs exactly that operation (30_encoding.md rule R74; log
entries 5 and 8). -/
def Obligations.StepRunsTheDecodedCall : Prop :=
  ∀ (s : State) (k : Code) (es : List Event) (i : Instr), s.cfg.legal = true → s.env.pending = .call k :: es →
    decode s.cfg k = .ok i → step s = exec i (withPending s es)

/-- A step of an agent runs the operation that the operation map selects (30_encoding.md rule R74; 00_scope.md rule
R3). -/
def Obligations.StepSelectsTheOperation : Prop :=
  ∀ (s : State) (e : Event) (es : List Event), s.cfg.legal = true → s.env.pending = e :: es →
    let u := withPending s es
    (e = .run .rl → s.rl.state = .take → step s = exec .rlTake u) ∧
    (e = .run .rl → s.rl.state = .map → step s = exec .rlMap u) ∧
    (e = .run .rl → s.rl.state = .write → step s = exec .rlWrite u) ∧
    (e = .run .rl → s.rl.state = .publish → step s = exec .rlPublish u) ∧
    (e = .run .dma → step s = exec .encDma u) ∧
    (e = .run .shift → s.enc.bitsLeft = 0 → s.enc.fifo = [] → step s = exec .encIdle u) ∧
    (e = .run .shift → s.enc.bitsLeft = 0 → s.enc.fifo ≠ [] → step s = exec .encPull u) ∧
    (e = .run .shift → 0 < s.enc.bitsLeft → s.enc.osr.getLsbD 31 = false → step s = exec .encCell0 u) ∧
    (e = .run .shift → 0 < s.enc.bitsLeft → s.enc.osr.getLsbD 31 = true → step s = exec .encCell1 u) ∧
    (e = .idle → step s = exec .rxIdle u) ∧
    (e = .encFault → step s = exec .sysFault u) ∧
    (e = .rst → step s = exec .sysReset u)

/-- With nothing pending nothing changes; bad parameters and undecodable codes are refused by name (00_scope.md
rules R2 and R6; 93_implementation_defined.md U17; 30_encoding.md rule R72; log entry 3 (F_BIT = 0 is refused too);
log entry 5 (nothing pending); log entries 6 and 8 (called codes)). -/
def Obligations.StepWaitsAndRefuses : Prop :=
  ∀ s : State,
    (s.cfg.legal = true → s.env.pending = [] → step s = .next s) ∧
    (s.cfg.legal = false → step s = .refused .illegalParameters) ∧
    (∀ k es r, s.cfg.legal = true → s.env.pending = .call k :: es → decode s.cfg k = .error r →
      (r = .glitch → step s = .next (withPending s es)) ∧ (r ≠ .glitch → step s = .refused (.undecodable r)))

/-- Each of the 2048 character windows is a glitch, a character, a break or a framing error (30_encoding.md rules
R60 to R63). -/
def Obligations.WindowsAreClassified : Prop :=
  ∀ (s : State) (w : BitVec 11) (es : List Event), s.cfg.legal = true → s.env.pending = .window w :: es →
    let u := withPending s es
    (w.getLsbD 0 = true → step s = .next u) ∧
    (w.getLsbD 0 = false → w.getLsbD 9 = true → w.getLsbD 10 = true →
      ∃ b : Byte, (∀ i < 8, b.getLsbD i = w.getLsbD (i + 1)) ∧ step s = exec (.rxChr b) u) ∧
    ((∀ i < 11, w.getLsbD i = false) → step s = exec .rxBrk u) ∧
    (w.getLsbD 0 = false → (w.getLsbD 9 = false ∨ w.getLsbD 10 = false) → (∃ i < 11, w.getLsbD i = true) →
      ∃ i, selectsSym i .ferr ∧ step s = exec i u)

/-- Sampling a window bit time by bit time does what the whole window does at once (30_encoding.md rule R61;
10_state.md rule R17; log entry 10 (the sampler is the model's reading)). -/
def Obligations.ElevenBitTimesAreTheWindow : Prop :=
  ∀ (s : State) (w : BitVec 11) (es : List Event), s.cfg.legal = true → s.sys.fatal = false →
    s.rx.serial.waitHigh = false → s.rx.serial.opened = false → w.getLsbD 0 = false →
    s.env.pending = (List.range 11).map (fun i => Event.lineBit (w.getLsbD i)) ++ es →
    Sys2Proof.core.run 11 s =
      step ((withPending s (.window w :: es)).withRx
        { s.rx with
          idleCnt := 0
          serial :=
            { waitHigh := !w.getLsbD 10, opened := false, sampler := [], bitCnt := 0, baudCnt := 0 } })

/-- Between windows: one break however long, a glitch gives no symbol, idle bit times give Idle once (30_encoding.md
rules R61 and R62; 10_state.md rule R17; 40_receiver.md rule R90; log entry 10 (the sampler and the idle count, the
model's reading); log entry 11 (the clock of the sample)). -/
def Obligations.LineWaitsForHighAfterBreak : Prop :=
  ∀ (s : State) (v : Level) (es : List Event), s.cfg.legal = true → s.sys.fatal = false →
    let u := withPending s es
    (s.rx.serial.waitHigh = true → s.env.pending = .lineBit v :: es →
      step s = .next (u.withRx { s.rx with serial := { s.rx.serial with waitHigh := !v } })) ∧
    (s.rx.serial.waitHigh = false → s.rx.serial.opened = true → s.rx.serial.bitCnt = 0 →
      (s.env.pending = .lineClk true :: es ∧ s.rx.serial.baudCnt = clocksPerBit s.cfg / 2 ∨
        s.env.pending = .lineBit true :: es ∧ s.rx.serial.sampler = []) →
      step s = .next (u.withRx
        { s.rx with
          idleCnt := 0
          serial := { waitHigh := false, opened := false, sampler := [], bitCnt := 0, baudCnt := 0 } })) ∧
    (s.rx.serial.waitHigh = false → s.rx.serial.opened = false → s.env.pending = .lineBit true :: es →
      (s.cfg.idleTimeout = 0 → step s = .next u) ∧
      (0 < s.cfg.idleTimeout →
        let w := u.withRx { s.rx with idleCnt := s.rx.idleCnt + 1 }
        let due := s.rx.idleCnt + 1 = s.cfg.idleTimeout ∧ s.rx.first = false ∧ 0 < s.rx.count
        (due → step s = exec .rxIdle w) ∧ (¬ due → step s = .next w)))

/-- A clock of the encoder adds 256 and is a tick at the divisor; the clocks of one serial bit are one bit time
(43_encoder.md rule R143; 10_state.md rule R17; 30_encoding.md rule R61; 40_receiver.md rule R90; log entries 10 and
11 (the serial divider, the model's reading); log entry 12 (the tick divider, DEDUCED)). -/
def Obligations.ClockDividersDriveTheirLevels : Prop :=
  (∀ (s : State) (es : List Event), s.cfg.legal = true → s.sys.fatal = false → 256 ≤ s.enc.clkdiv.toNat →
    s.enc.divAcc < s.enc.clkdiv.toNat → s.env.pending = .encClk :: es →
    (s.enc.divAcc + 256 < s.enc.clkdiv.toNat →
      step s = .next ((withPending s es).withEnc { s.enc with divAcc := s.enc.divAcc + 256 })) ∧
    (s.enc.clkdiv.toNat ≤ s.enc.divAcc + 256 →
      step s = step (withPending (s.withEnc { s.enc with divAcc := s.enc.divAcc + 256 - s.enc.clkdiv.toNat })
        (.encTick :: es))) ∧
    ∃ t, step s = .next t ∧ t.enc.divAcc = (s.enc.divAcc + 256) % s.enc.clkdiv.toNat ∧
      t.enc.clkdiv = s.enc.clkdiv ∧
      (s.enc.clkdiv.toNat ≤ s.enc.divAcc + 256 →
        t.trace.ledTicks = s.trace.ledTicks ++ [t.enc.led] ∧ t.rx = s.rx ∧ t.rl = s.rl ∧ t.mbx = s.mbx)) ∧
  (∀ (s : State) (v : Level) (es : List Event), s.cfg.legal = true → s.rx.serial.waitHigh = false →
    s.rx.serial.baudCnt = 0 → (s.rx.serial.opened = true → s.rx.serial.sampler.length ≤ s.rx.serial.bitCnt) →
    ¬ (s.rx.serial.opened = true ∧ s.rx.serial.bitCnt = 0 ∧ v = true) →
    s.env.pending = List.replicate (clocksPerBit s.cfg) (.lineClk v) ++ es →
    Sys2Proof.core.run (clocksPerBit s.cfg) s = step (withPending s (.lineBit v :: es))) ∧
  (∀ (s : State) (v : Level) (es : List Event), s.cfg.legal = true → s.rx.serial.waitHigh = true →
    s.env.pending = .lineClk v :: es → step s = step (withPending s (.lineBit v :: es)))

/-- SYS.RESET gives every field its value of the reset table (R38). -/
def Obligations.ResetGivesTheTable : Prop :=
  ∀ s : State, divisorLegal s.cfg = true → ∃ t, exec .sysReset s = .next t ∧
    t.rx.buf0 = [] ∧ t.rx.buf1 = [] ∧ t.mbx.slot = [] ∧ t.rl.frame = [] ∧ t.rl.pix = [] ∧ t.enc.wordbuf = [] ∧
    t.rx.active = false ∧ t.rx.count = 0 ∧ t.rx.first = true ∧ t.rx.prevLen = 0 ∧ t.rx.idleCnt = 0 ∧
    t.mbx.full = false ∧ t.rl.state = .take ∧
    t.enc.clkdiv.toNat = s.cfg.fSys * 256 / (s.cfg.fBit * (s.cfg.t1 + s.cfg.t2 + s.cfg.t3)) ∧
    t.enc.dmaBusy = false ∧ t.enc.dmaIdx = 0 ∧ t.enc.fifo = [] ∧ t.enc.osr = 0 ∧ t.enc.bitsLeft = 0 ∧
    t.enc.phase = .start ∧ t.enc.tickCnt = 0 ∧ t.enc.led = false ∧
    t.pub = ⟨0, 0⟩ ∧ t.sys.fatal = false ∧
    t.trace = { ledBits := [], ledTicks := [], pub := [], log := [], fatal := [] } ∧
    t.cfg = s.cfg ∧ t.env = s.env

/-- With an illegal divisor the block leaves reset in the fatal state (43_encoder.md rule R130;
70_reset_and_hazards.md rule R192; 95_test_vectors.md V-ERR-5; log entry 13 (LOG and FATAL after it, DEDUCED)). -/
def Obligations.ResetWithIllegalDivisorIsFatal : Prop :=
  ∀ s : State, divisorLegal s.cfg = false → ∃ t, exec .sysReset s = .next t ∧
    t.sys.fatal = true ∧ t.rx.first = true ∧ t.rx.count = 0 ∧ t.mbx.full = false ∧ t.rl.state = .take ∧
    t.enc.dmaBusy = false ∧ t.enc.led = false ∧ t.pub = ⟨0, 0⟩ ∧
    t.trace = { ledBits := [], ledTicks := [], pub := [], log := [.hardwareFault], fatal := [.hardwareFault] } ∧
    t.cfg = s.cfg ∧ t.env = s.env

/-- The state after reset meets the invariants, for every legal parameter set (10_state.md rules R38 and R39; log
entry 2 (the parameters of the reset state); log entries 10 and 11 (the sampler); log entry 12 (the two divider
counters are 0 at reset, a DESIGN CHOICE); log entry 13 (an illegal divisor); log entry 19 (one FATAL entry); log
entry 25 (the clause on WRITE)). -/
def Obligations.ResetEstablishesTheInvariants : Prop :=
  (∀ c : Config, c.legal = true →
    Inv (State.resetOf c) ∧ buffersOk (State.resetOf c) = true ∧ sequenceOk (State.resetOf c)) ∧
  State.reset = State.resetOf State.reset.cfg ∧ Inv State.reset ∧ buffersOk State.reset = true ∧
  sequenceOk State.reset

/-- RX.ARM sets RX.count to 0 and changes nothing else (40_receiver.md rule R80; log entry 23 (DEDUCED: R80 gives no
pseudocode)). -/
def Obligations.RxArmStartsARead : Prop :=
  ∀ s : State, s.sys.fatal = false → exec .rxArm s = .next (s.withRx { s.rx with count := 0 })

/-- RX.CHR stores the byte at RX.count, and the byte that fills the buffer is an overrun (R81; R84). -/
def Obligations.RxChrStoresTheByte : Prop :=
  ∀ (s : State) (b : Byte), s.sys.fatal = false → s.rx.count < s.cfg.rxCap → ∃ t, exec (.rxChr b) s = .next t ∧
    Memory.read (t.rx.buf s.rx.active) s.rx.count = some b ∧
    (∀ j, j ≠ s.rx.count → Memory.read (t.rx.buf s.rx.active) j = Memory.read (s.rx.buf s.rx.active) j) ∧
    (∀ j, Memory.read (t.rx.buf (!s.rx.active)) j = Memory.read (s.rx.buf (!s.rx.active)) j) ∧
    t.rx.idleCnt = s.rx.idleCnt ∧ t.rx.serial = s.rx.serial ∧
    (s.rx.count + 1 ≠ s.cfg.rxCap →
      t.rx.count = s.rx.count + 1 ∧ t.rx.active = s.rx.active ∧ t.rx.first = s.rx.first ∧
      t.rx.prevLen = s.rx.prevLen ∧ t = s.withRx t.rx) ∧
    (s.rx.count + 1 = s.cfg.rxCap →
      t.rx.count = 0 ∧ t.rx.active = !s.rx.active ∧ t.rx.prevLen = s.cfg.rxCap ∧
      t.rx.first = (s.rx.first || s.cfg.resyncOnError) ∧
      t.trace = { s.trace with log := s.trace.log ++ [.receive .overrun] } ∧
      t = (s.withRx t.rx).withTrace t.trace)

/-- RX.BRK discards the first chunk, else delivers the chunk, or, where configured, logs an empty one (R82). -/
def Obligations.RxBrkEndsTheChunk : Prop :=
  ∀ s : State, s.sys.fatal = false →
    let done : Rx := { s.rx with prevLen := s.rx.count, active := !s.rx.active, count := 0 }
    (s.rx.first = true → exec .rxBrk s = .next (s.withRx { done with first := false })) ∧
    (s.rx.first = false → s.rx.count = 0 → s.cfg.emptyIsError = true →
      exec .rxBrk s = .next ((s.withRx done).withTrace
        { s.trace with log := s.trace.log ++ [.receive .breakWithoutData] })) ∧
    (∀ chunk : List Byte, s.rx.first = false → (s.rx.count ≠ 0 ∨ s.cfg.emptyIsError = false) →
      chunk.length = s.rx.count → holds (s.rx.buf s.rx.active) chunk →
      ∃ t f, exec .rxBrk s = .next t ∧ isFrameOf chunk f ∧ t.rx = done ∧ delivered f s t)

/-- RX.FERR, in both its forms, ends the read with a framing error; so does RX.FULL with an overrun (R83; R84). -/
def Obligations.FramingErrorDropsTheChunk : Prop :=
  ∀ (s : State) (d : Byte) (x : Level), s.sys.fatal = false →
    let dropped (k : ReceiveKind) : State :=
      (s.withRx
        { s.rx with
          prevLen := s.rx.count, active := !s.rx.active, count := 0, first := s.rx.first || s.cfg.resyncOnError
        }).withTrace { s.trace with log := s.trace.log ++ [.receive k] }
    exec (.rxFerrStop1 d x) s = .next (dropped .framing) ∧ exec (.rxFerrStop2 d) s = .next (dropped .framing) ∧
    exec .rxFull s = .next (dropped .overrun)

/-- RX.COMPLETE keeps the length, swaps the roles, re-arms, and discards, delivers or drops (R85). -/
def Obligations.RxCompleteEndsTheRead : Prop :=
  ∀ (s : State) (atBreak : Bool), s.sys.fatal = false →
    let done : Rx := { s.rx with prevLen := s.rx.count, active := !s.rx.active, count := 0 }
    (∀ n, s.rx.first = true →
      exec (.rxComplete (.ok n) atBreak) s = .next (s.withRx { done with first := false })) ∧
    (∀ n (bytes : List Byte), s.rx.first = false → bytes.length = min n 512 → holds (s.rx.buf s.rx.active) bytes →
      ∃ t f, exec (.rxComplete (.ok n) atBreak) s = .next t ∧ isFrameOf bytes f ∧ t.rx = done ∧ delivered f s t) ∧
    (∀ k, exec (.rxComplete (.err k) atBreak) s =
      .next ((s.withRx { done with first := s.rx.first || (s.cfg.resyncOnError && !atBreak) }).withTrace
        { s.trace with log := s.trace.log ++ [.receive k] }))

/-- RX.DISCARD clears RX.first and does nothing else (R86). -/
def Obligations.RxDiscardClearsFirst : Prop :=
  ∀ s : State, s.sys.fatal = false → exec .rxDiscard s = .next (s.withRx { s.rx with first := false })

/-- RX.BUILD(n) returns the first min(n,512) bytes of the previous buffer, zero-padded to 512 (R87). -/
def Obligations.RxBuildPadsTheChunk : Prop :=
  ∀ (s : State) (n : Nat) (bytes : List Byte), s.sys.fatal = false → bytes.length = min n 512 →
    holds (s.rx.buf (!s.rx.active)) bytes →
    ∃ f, isFrameOf bytes f ∧ exec (.rxBuild n) s = .next (s.withRet (some (.frame f)))

/-- Two buffers that agree below the chunk length build the same frame (40_receiver.md rule R87;
93_implementation_defined.md U3). -/
def Obligations.RxBuildIgnoresStaleBytes : Prop :=
  ∀ (s u : State) (n : Nat), s.sys.fatal = false → u.sys.fatal = false →
    Memory.wf (s.rx.buf (!s.rx.active)) = true → Memory.wf (u.rx.buf (!u.rx.active)) = true →
    (∀ i < min n 512,
      Memory.read (s.rx.buf (!s.rx.active)) i = Memory.read (u.rx.buf (!u.rx.active)) i) →
    ∀ t, exec (.rxBuild n) s = .next t → exec (.rxBuild n) u = .next (u.withRet t.ret)

/-- RX.DELIVER(n) builds the frame, publishes it where PUB_SITE = RX, and deposits it (R88). -/
def Obligations.RxDeliverDepositsTheFrame : Prop :=
  ∀ (s : State) (n : Nat) (bytes : List Byte), s.sys.fatal = false → bytes.length = min n 512 →
    holds (s.rx.buf (!s.rx.active)) bytes →
    ∃ t f, exec (.rxDeliver n) s = .next t ∧ isFrameOf bytes f ∧ t.rx = s.rx ∧ delivered f s t

/-- RX.DROP logs the kind and sets RX.first after an error that was not at a break (R89). -/
def Obligations.RxDropLogsAndResyncs : Prop :=
  ∀ (s : State) (k : ReceiveKind) (atBreak : Bool), s.sys.fatal = false →
    exec (.rxDrop k atBreak) s =
      .next ((s.withRx { s.rx with first := s.rx.first || (s.cfg.resyncOnError && !atBreak) }).withTrace
        { s.trace with log := s.trace.log ++ [.receive k] })

/-- RX.IDLE delivers the open chunk where the timeout is built in, and otherwise does nothing (40_receiver.md rule
R90). -/
def Obligations.RxIdleDeliversWhenEnabled : Prop :=
  ∀ s : State, s.sys.fatal = false →
    (∀ chunk : List Byte, 0 < s.cfg.idleTimeout → s.rx.first = false → 0 < s.rx.count → chunk.length = s.rx.count →
      holds (s.rx.buf s.rx.active) chunk →
      ∃ t f, exec .rxIdle s = .next t ∧ isFrameOf chunk f ∧
        t.rx = { s.rx with prevLen := s.rx.count, active := !s.rx.active, count := 0, first := true } ∧
        delivered f s t) ∧
    ((s.cfg.idleTimeout = 0 ∨ s.rx.first = true ∨ s.rx.count = 0) → exec .rxIdle s = .next s)

/-- Each line symbol does to the receiver what one step of the reference fold does (40_receiver.md rule R92). -/
def Obligations.ReceiverStepMatchesTheFold : Prop :=
  ∀ (s : State) (i : Instr) (x : Sym), s.cfg.decided = true → s.sys.fatal = false → rxOk s.cfg s.rx = true →
    selectsSym i x →
    ∃ r t, rxView s = some r ∧ exec i s = .next t ∧ rxView t = some (rxRefStep r x).next ∧
      receiveErrors t.trace.log = receiveErrors s.trace.log ++ (rxRefStep r x).logged.toList ∧
      (∀ f, (rxRefStep r x).delivered = some f → mailboxFrame t = some f) ∧
      ((rxRefStep r x).delivered = none → t.mbx = s.mbx)

/-- A whole sequence of line symbols leaves the receiver, the log and the mailbox as the fold says (40_receiver.md
rule R92; 41_mailbox.md rule R112). -/
def Obligations.ReceiverRunMatchesTheFold : Prop :=
  ∀ (s : State) (xs : List Sym) (es : List Event) (r : RxRef), s.cfg.legal = true → s.cfg.decided = true →
    s.sys.fatal = false → rxOk s.cfg s.rx = true → rxView s = some r → s.env.pending = xs.map symEvent ++ es →
    ∃ t, Sys2Proof.core.run xs.length s = .next t ∧ rxView t = some (rxRefRun r xs).1 ∧
      receiveErrors t.trace.log = receiveErrors s.trace.log ++ (rxRefRun r xs).2.2 ∧
      (∀ f, (rxRefRun r xs).2.1.getLast? = some f → mailboxFrame t = some f) ∧
      ((rxRefRun r xs).2.1 = [] → t.mbx = s.mbx) ∧ t.env.pending = es

/-- MBX.DEPOSIT always succeeds, fills the slot with the whole frame and marks it full (R110). -/
def Obligations.DepositOverwritesTheSlot : Prop :=
  ∀ (s : State) (f : Frame), s.sys.fatal = false → f.length = 512 → ∃ t, exec (.mbxDeposit f) s = .next t ∧
    t.mbx.full = true ∧ (∀ i, Memory.read t.mbx.slot i = f[i]?) ∧ Memory.wf t.mbx.slot = true ∧
    t = s.withMbx t.mbx

/-- MBX.TAKE returns the slot's 512 bytes and empties it, or waits while it is empty (R111). -/
def Obligations.TakeReturnsAndEmpties : Prop :=
  ∀ s : State, s.sys.fatal = false →
    (∀ f : Frame, s.mbx.full = true → f.length = 512 → holds s.mbx.slot f →
      ∃ t, exec .mbxTake s = .next t ∧ t.ret = some (.frame f) ∧ t.mbx.full = false ∧
        t = (s.withMbx t.mbx).withRet t.ret) ∧
    (s.mbx.full = false → exec .mbxTake s = .next s)

/-- Deposits A and B before a take: the take returns B, and a second take waits (41_mailbox.md rule R112;
95_test_vectors.md V-MBX-2). -/
def Obligations.TakeReturnsTheLatestDeposit : Prop :=
  ∀ (s : State) (a b : Frame), s.sys.fatal = false → a.length = 512 → b.length = 512 → ∃ t1 t2 t3,
    exec (.mbxDeposit a) s = .next t1 ∧ exec (.mbxDeposit b) t1 = .next t2 ∧ exec .mbxTake t2 = .next t3 ∧
    t3.ret = some (.frame b) ∧ t3.mbx.full = false ∧ exec .mbxTake t3 = .next t3

/-- A deposit of B and a take by the render loop, in either order, never lose or mix frames (41_mailbox.md rule
R115). -/
def Obligations.ConcurrentDepositAndTake : Prop :=
  ∀ (s : State) (a b : Frame), s.sys.fatal = false → s.rl.state = .take → a.length = 512 → b.length = 512 →
    (s.mbx.full = true → holds s.mbx.slot a → ∃ t u,
      exec .rlTake s = .next t ∧ exec (.mbxDeposit b) t = .next u ∧
      holds u.rl.frame a ∧ mailboxFrame u = some b) ∧
    (∃ t u, exec (.mbxDeposit b) s = .next t ∧ exec .rlTake t = .next u ∧
      holds u.rl.frame b ∧ u.mbx.full = false) ∧
    (s.mbx.full = false → exec .rlTake s = .next s)

/-- RL.TAKE moves the mailbox's frame to RL.frame and enters MAP, or waits (R120). -/
def Obligations.RlTakeMovesTheFrame : Prop :=
  ∀ s : State, s.sys.fatal = false →
    (∀ f : Frame, s.rl.state = .take → s.mbx.full = true → f.length = 512 → holds s.mbx.slot f →
      ∃ t, exec .rlTake s = .next t ∧ t.rl.state = .map ∧ (∀ i, Memory.read t.rl.frame i = f[i]?) ∧
        Memory.wf t.rl.frame = true ∧ t.rl.pix = s.rl.pix ∧ t.mbx.full = false ∧
        t = (s.withRl t.rl).withMbx t.mbx) ∧
    ((s.rl.state ≠ .take ∨ s.mbx.full = false) → exec .rlTake s = .next s)

/-- RL.MAP computes every pixel, packs it, starts the transfer and enters WRITE (R121; R122). -/
def Obligations.RlMapMapsAndRequestsTheWrite : Prop :=
  ∀ s : State, s.sys.fatal = false →
    (∀ f : Frame, s.rl.state = .map → s.enc.dmaBusy = false → f.length = 512 → holds s.rl.frame f →
      ∃ t, exec .rlMap s = .next t ∧
        (∀ i < s.cfg.nPix, ∃ p : Pixel, Memory.read t.rl.pix i = some p ∧
          (3 * i + 2 ≤ 511 → p = ⟨f.getD (3 * i + 1) 0, f.getD (3 * i) 0, f.getD (3 * i + 2) 0⟩) ∧
          (511 < 3 * i + 2 → p = ⟨0, 0, 0⟩) ∧
          Memory.read t.enc.wordbuf i =
            some (((p.g.setWidth 32 <<< 24) ||| (p.r.setWidth 32 <<< 16)) ||| (p.b.setWidth 32 <<< 8))) ∧
        (∀ i, s.cfg.nPix ≤ i → Memory.read t.rl.pix i = none ∧ Memory.read t.enc.wordbuf i = none) ∧
        t.rl.state = .write ∧ t.rl.frame = s.rl.frame ∧
        t.enc = { s.enc with wordbuf := t.enc.wordbuf, dmaIdx := 0, dmaBusy := true } ∧
        t = (s.withRl t.rl).withEnc t.enc) ∧
    (s.rl.state ≠ .map → exec .rlMap s = .next s)

/-- RL.WRITE leaves WRITE when the transfer is complete, to PUBLISH where PUB_SITE = RL, else to TAKE (42_render.md
rule R123). -/
def Obligations.RlWriteWaitsForCompletion : Prop :=
  ∀ s : State, s.sys.fatal = false →
    (s.rl.state = .write → s.enc.dmaBusy = false →
      (s.cfg.pubSite = .rl → exec .rlWrite s = .next (s.withRl { s.rl with state := .publish })) ∧
      (s.cfg.pubSite ≠ .rl → exec .rlWrite s = .next (s.withRl { s.rl with state := .take }))) ∧
    ((s.rl.state ≠ .write ∨ s.enc.dmaBusy = true) → exec .rlWrite s = .next s)

/-- RL.PUBLISH makes one publish attempt of RL.frame in context render and goes back to TAKE (R124). -/
def Obligations.RlPublishOffersTheFrame : Prop :=
  ∀ s : State, s.sys.fatal = false →
    (∀ f : Frame, s.rl.state = .publish → f.length = 512 → holds s.rl.frame f →
      ∃ t, exec .rlPublish s = .next t ∧ publishAttempt .render f s t ∧ t.rl = { s.rl with state := .take } ∧
        t = ((s.withRl t.rl).withPub t.pub).withTrace t.trace) ∧
    (s.rl.state ≠ .publish → exec .rlPublish s = .next s)

/-- ENC.INIT computes the divisor, clears the encoder, and faults when the divisor is out of range (43_encoder.md
rule R130; 30_encoding.md rule R70; 60_exceptions.md rules R164 and R165; log entry 13 (all assignments, then the
fault, DEDUCED)). -/
def Obligations.EncInitComputesTheDivisor : Prop :=
  ∀ s : State, s.sys.fatal = false → ∃ t, exec .encInit s = .next t ∧
    let q := s.cfg.fSys * 256 / (s.cfg.fBit * (s.cfg.t1 + s.cfg.t2 + s.cfg.t3))
    (q < 2 ^ 24 → t.enc.clkdiv.toNat = q) ∧
    t.enc.dmaBusy = false ∧ t.enc.dmaIdx = 0 ∧ t.enc.fifo = [] ∧ t.enc.osr = 0 ∧ t.enc.bitsLeft = 0 ∧
    t.enc.led = false ∧ t.enc.wordbuf = s.enc.wordbuf ∧
    (256 ≤ q ∧ q < 2 ^ 24 → t = s.withEnc t.enc) ∧
    (¬ (256 ≤ q ∧ q < 2 ^ 24) →
      t = ((s.withEnc t.enc).withSys { s.sys with fatal := true }).withTrace
        { s.trace with log := s.trace.log ++ [.hardwareFault], fatal := s.trace.fatal ++ [.hardwareFault] })

/-- ENC.WRITE packs the whole array and starts the transfer; its precondition is an idle transfer (43_encoder.md
rule R131; log entry 15). -/
def Obligations.EncWriteStartsTheTransfer : Prop :=
  ∀ (s : State) (px : List Pixel), s.sys.fatal = false → px.length = s.cfg.nPix →
    (s.enc.dmaBusy = false → ∃ t, exec (.encWrite px) s = .next t ∧
      (∀ i (p : Pixel), px[i]? = some p → Memory.read t.enc.wordbuf i =
        some (((p.g.setWidth 32 <<< 24) ||| (p.r.setWidth 32 <<< 16)) ||| (p.b.setWidth 32 <<< 8))) ∧
      (∀ i, s.cfg.nPix ≤ i → Memory.read t.enc.wordbuf i = none) ∧
      t.enc = { s.enc with wordbuf := t.enc.wordbuf, dmaIdx := 0, dmaBusy := true } ∧ t = s.withEnc t.enc) ∧
    (s.enc.dmaBusy = true → exec (.encWrite px) s = .fault .writeWhileBusy)

/-- ENC.PACK puts green in bits 31:24, red in 23:16, blue in 15:8 and zero below, for every pixel (R132). -/
def Obligations.EncPackLaysOutTheWord : Prop :=
  ∀ (s : State) (px : List Pixel), s.sys.fatal = false → px.length = s.cfg.nPix →
    ∃ t, exec (.encPack px) s = .next t ∧
      (∀ i (p : Pixel), px[i]? = some p → ∃ w : Word, Memory.read t.enc.wordbuf i = some w ∧
        w.extractLsb' 24 8 = p.g ∧ w.extractLsb' 16 8 = p.r ∧ w.extractLsb' 8 8 = p.b ∧ w.extractLsb' 0 8 = 0) ∧
      t.enc = { s.enc with wordbuf := t.enc.wordbuf } ∧ t = s.withEnc t.enc

/-- ENC.DMA moves the next word to the FIFO, ends the transfer at the last, and waits for room (R133). -/
def Obligations.EncDmaMovesOneWord : Prop :=
  ∀ s : State, s.sys.fatal = false →
    (∀ w : Word, s.enc.dmaBusy = true → s.enc.fifo.length < s.cfg.fifoDepth → s.enc.dmaIdx < s.cfg.nPix →
      Memory.read s.enc.wordbuf s.enc.dmaIdx = some w →
      exec .encDma s = .next (s.withEnc
        { s.enc with
          fifo := s.enc.fifo ++ [w], dmaIdx := s.enc.dmaIdx + 1,
          dmaBusy := decide (s.enc.dmaIdx + 1 ≠ s.cfg.nPix) })) ∧
    ((s.enc.dmaBusy = false ∨ s.cfg.fifoDepth ≤ s.enc.fifo.length) → exec .encDma s = .next s)

/-- ENC.DONE clears ENC.dma_busy and nothing else (R137). -/
def Obligations.EncDoneClearsBusy : Prop :=
  ∀ s : State, s.sys.fatal = false → exec .encDone s = .next (s.withEnc { s.enc with dmaBusy := false })

/-- ENC.PULL takes the oldest word and sets 24 bits left, or waits (R134). -/
def Obligations.EncPullLoadsTheShifter : Prop :=
  ∀ s : State, s.sys.fatal = false →
    (∀ w ws, s.enc.bitsLeft = 0 → s.enc.fifo = w :: ws →
      exec .encPull s = .next (s.withEnc { s.enc with osr := w, fifo := ws, bitsLeft := 24 })) ∧
    ((0 < s.enc.bitsLeft ∨ s.enc.fifo = []) → exec .encPull s = .next s)

/-- ENC.CELL0 and ENC.CELL1 send osr[31] as one bit cell, shift left and count down (R135). -/
def Obligations.EncCellsSendTheTopBit : Prop :=
  ∀ s : State, s.sys.fatal = false →
    (0 < s.enc.bitsLeft → s.enc.tickCnt = 0 → s.enc.phase = .start →
      exec (if s.enc.osr.getLsbD 31 then .encCell1 else .encCell0) s =
        .next ((s.withEnc
          { s.enc with osr := s.enc.osr <<< 1, bitsLeft := s.enc.bitsLeft - 1, led := false }).withTrace
            { s.trace with
              ledBits := s.trace.ledBits ++ [s.enc.osr.getLsbD 31]
              ledTicks := s.trace.ledTicks ++ (List.replicate s.cfg.t1 true ++
                List.replicate s.cfg.t2 (s.enc.osr.getLsbD 31) ++ List.replicate s.cfg.t3 false) })) ∧
    ((s.enc.bitsLeft = 0 ∨ s.enc.osr.getLsbD 31 = false) → exec .encCell1 s = .next s) ∧
    ((s.enc.bitsLeft = 0 ∨ s.enc.osr.getLsbD 31 = true) → exec .encCell0 s = .next s)

/-- ENC.IDLE keeps the line low and adds one low tick and no bit (43_encoder.md rule R138; log entry 21 (the
operation is one tick, DEDUCED)). -/
def Obligations.EncIdleKeepsTheLineLow : Prop :=
  ∀ s : State, s.sys.fatal = false →
    (s.enc.bitsLeft = 0 → s.enc.fifo = [] →
      exec .encIdle s = .next ((s.withEnc { s.enc with led := false }).withTrace
        { s.trace with ledTicks := s.trace.ledTicks ++ [false] })) ∧
    ((0 < s.enc.bitsLeft ∨ s.enc.fifo ≠ []) → exec .encIdle s = .next s)

/-- A word in the FIFO goes out as w[31] down to w[8] in 25 steps of the bit generator (43_encoder.md rule R136). -/
def Obligations.WordGoesOutMostSignificantFirst : Prop :=
  ∀ (s : State) (w : Word) (ws : List Word) (es : List Event), s.cfg.legal = true → s.sys.fatal = false →
    s.enc.bitsLeft = 0 → s.enc.tickCnt = 0 → s.enc.phase = .start → s.enc.fifo = w :: ws →
    s.env.pending = List.replicate 25 (.run .shift) ++ es →
    ∃ t, Sys2Proof.core.run 25 s = .next t ∧
      t.trace.ledBits = s.trace.ledBits ++ (List.range 24).map (fun k => w.getLsbD (31 - k)) ∧
      t.trace.ledTicks = s.trace.ledTicks ++
        (List.range 24).flatMap (fun k => cellTicks s.cfg (w.getLsbD (31 - k))) ∧
      t.enc.fifo = ws ∧ t.enc.bitsLeft = 0 ∧ t.enc.led = false ∧ t.enc.dmaBusy = s.enc.dmaBusy ∧
      t.enc.dmaIdx = s.enc.dmaIdx ∧ t.enc.wordbuf = s.enc.wordbuf ∧ t.enc.tickCnt = 0 ∧ t.enc.phase = .start ∧
      t = (((withPending s es).withEnc t.enc).withTrace
        { s.trace with ledBits := t.trace.ledBits, ledTicks := t.trace.ledTicks })

/-- The ticks that a cell still lacks do exactly what its bit cell operation does, from its start or from inside it
(30_encoding.md rules R67 and R68; 10_state.md rule R30; 43_encoder.md rule R135; log entry 14 (a cell operation
inside a cell, DEDUCED)). -/
def Obligations.TicksRefineTheCell : Prop :=
  ∀ (s : State) (es : List Event), s.cfg.legal = true → s.sys.fatal = false → 0 < s.enc.bitsLeft →
    let v := s.enc.osr.getLsbD 31
    let rest : List Level :=
      if s.enc.tickCnt = 0 then
        List.replicate s.cfg.t1 true ++ List.replicate s.cfg.t2 v ++ List.replicate s.cfg.t3 false
      else if s.enc.phase = .start then
        List.replicate s.enc.tickCnt true ++ List.replicate s.cfg.t2 v ++ List.replicate s.cfg.t3 false
      else if s.enc.phase = .data then List.replicate s.enc.tickCnt v ++ List.replicate s.cfg.t3 false
      else List.replicate s.enc.tickCnt false
    let done := exec (if v then .encCell1 else .encCell0) (withPending s es)
    (s.env.pending = List.replicate rest.length .encTick ++ es → Sys2Proof.core.run rest.length s = done) ∧
    done = .next (((withPending s es).withEnc
      { s.enc with
        osr := s.enc.osr <<< 1, bitsLeft := s.enc.bitsLeft - 1, phase := .start, tickCnt := 0, led := false
      }).withTrace
        { s.trace with ledBits := s.trace.ledBits ++ [v], ledTicks := s.trace.ledTicks ++ rest })

/-- The bits sent and still owed grow by exactly bits(p) at a write request and never otherwise change
(43_encoder.md rules R140 to R142; 42_render.md rule R126). -/
def Obligations.EveryStepKeepsThePromisedBits : Prop :=
  ∀ (s t : State) (e : Event) (es : List Event), Inv s → s.env.pending = e :: es → isCall e = false → e ≠ .rst →
    step s = .next t →
    (e = .run .rl → s.rl.state = .map → s.sys.fatal = false →
      ∃ f, Memory.readBlock s.rl.frame 0 512 = some f ∧
        promised t = promised s ++ ledFrameBits (mapFrame s.cfg.nPix f)) ∧
    (¬ (e = .run .rl ∧ s.rl.state = .map ∧ s.sys.fatal = false) → promised t = promised s)

/-- From an idle encoder a write followed by N_PIX rounds of transfer and shifting sends exactly bits(p)
(43_encoder.md rule R140). -/
def Obligations.OneWritePutsItsBitsOnTheWire : Prop :=
  ∀ (s t : State) (px : List Pixel) (es : List Event), s.cfg.legal = true → s.sys.fatal = false →
    s.enc.dmaBusy = false → s.enc.fifo = [] → s.enc.bitsLeft = 0 → s.enc.tickCnt = 0 → s.enc.phase = .start →
    px.length = s.cfg.nPix → exec (.encWrite px) s = .next t →
    ∃ u, Sys2Proof.core.run (26 * s.cfg.nPix)
        (withPending t
          ((List.replicate s.cfg.nPix (Event.run .dma :: List.replicate 25 (.run .shift))).flatten ++ es)) = .next u ∧
      u.trace.ledBits = s.trace.ledBits ++ px.flatMap (fun p => msb8 p.g ++ msb8 p.r ++ msb8 p.b) ∧
      u.trace.ledTicks = s.trace.ledTicks ++
        (px.flatMap fun p => msb8 p.g ++ msb8 p.r ++ msb8 p.b).flatMap (cellTicks s.cfg) ∧
      u.enc.dmaBusy = false ∧ u.enc.fifo = [] ∧ u.enc.bitsLeft = 0 ∧ u.enc.led = false ∧ u.env.pending = es

/-- PUB.PUBLISH sends (seq, frame) and counts up when ready, else logs and changes no counter (R150; R151). -/
def Obligations.PublishSendsOrLogs : Prop :=
  ∀ (s : State) (c : Ctx) (f : Frame), s.sys.fatal = false →
    (s.env.pubReady = true → ∃ t, exec (.pubPublish c f) s = .next t ∧
      t.trace = { s.trace with pub := s.trace.pub ++ [⟨s.pub.seq c, f⟩] } ∧
      t.pub.seq c = (s.pub.seq c + 1) % 2 ^ s.cfg.seqW ∧ (∀ d, d ≠ c → t.pub.seq d = s.pub.seq d) ∧
      t.ret = some (.published true) ∧ t = ((s.withTrace t.trace).withPub t.pub).withRet t.ret) ∧
    (s.env.pubReady = false →
      exec (.pubPublish c f) s = .next ((s.withTrace
        { s.trace with log := s.trace.log ++ [.publishError] }).withRet (some (.published false))) ∧
      exec (.pubPublishFail c f) s = .next ((s.withTrace
        { s.trace with log := s.trace.log ++ [.publishError] }).withRet (some (.published false)))) ∧
    (s.env.pubReady = true → exec (.pubPublishFail c f) s = .next s)

/-- Every step keeps the published sequence numbers consecutive, with the counter their count (10_state.md rules R21
and R32; 42_render.md rule R124; 44_publisher.md rules R150 to R153). -/
def Obligations.SequenceNumbersStayConsecutive : Prop :=
  ∀ (s t : State) (e : Event) (es : List Event), sequenceOk s → publishesAtItsSite s → s.env.pending = e :: es →
    isCall e = false → step s = .next t → sequenceOk t ∧ publishesAtItsSite t

/-- Two blocks that differ only in the publisher and the host do the same on the lighting path (44_publisher.md rule
R154). -/
def Obligations.HostCannotReachTheLights : Prop :=
  ∀ s t : State, sameLights s t → sameLightsOutcome (step s) (step t)

/-- SYS.FAULT completes in every running block: it sets the latch and adds HardwareFault to FATAL and LOG
(60_exceptions.md rule R165; 10_state.md rule R33; 43_encoder.md rule R142; log entry 14 (inside a cell, DEDUCED);
log entry 19 (a second fault, DEDUCED)). -/
def Obligations.SysFaultEntersTheFatalState : Prop :=
  ∀ s : State, s.sys.fatal = false →
    let stopped (u : State) : State :=
      (u.withSys { s.sys with fatal := true }).withTrace
        { u.trace with log := s.trace.log ++ [.hardwareFault], fatal := s.trace.fatal ++ [.hardwareFault] }
    ((s.enc.tickCnt = 0 ∨ s.enc.bitsLeft = 0) → exec .sysFault s = .next (stopped s)) ∧
    (s.enc.tickCnt ≠ 0 → 0 < s.enc.bitsLeft →
      exec .sysFault s = .next (stopped ((s.withEnc
        { s.enc with
          osr := s.enc.osr <<< 1, bitsLeft := s.enc.bitsLeft - 1, phase := .start, tickCnt := 0, led := false
        }).withTrace
          { s.trace with
            ledBits := s.trace.ledBits ++ [s.enc.osr.getLsbD 31]
            ledTicks := s.trace.ledTicks ++
              cellRest s.cfg s.enc.phase s.enc.tickCnt (s.enc.osr.getLsbD 31) }))) ∧
    ∃ t, exec .sysFault s = .next t ∧ ∀ i : Instr, i ≠ .sysReset → exec i t = .next t

/-- While SYS.fatal = 1 no operation but SYS.RESET changes anything (10_state.md rule R33; 40_receiver.md rule R91;
log entry 8 (operations called on their own); log entry 19 (SYS.FAULT and direct calls, DEDUCED)). -/
def Obligations.NoOperationRunsWhileFatal : Prop :=
  ∀ (s : State) (i : Instr), s.sys.fatal = true → i ≠ .sysReset → exec i s = .next s

/-- In the fatal state a step changes no unit; at most the next owed cell still goes out (10_state.md rule R33;
60_exceptions.md rule R165; 43_encoder.md rule R142; log entry 19 (a second enc_fault, DEDUCED); log entry 20 (which
bits are owed, whole cells without a gap, DEDUCED)). -/
def Obligations.FatalStopsEveryUnit : Prop :=
  ∀ (s : State) (e : Event) (es : List Event), s.cfg.legal = true → s.sys.fatal = true → s.env.pending = e :: es →
    isCall e = false → e ≠ .rst → ∃ t, step s = .next t ∧
      t.cfg = s.cfg ∧ t.rx = s.rx ∧ t.mbx = s.mbx ∧ t.rl = s.rl ∧ t.enc = s.enc ∧ t.pub = s.pub ∧
      t.sys.fatal = true ∧ t.trace.pub = s.trace.pub ∧ t.trace.log = s.trace.log ∧ t.trace.fatal = s.trace.fatal ∧
      (t.trace = s.trace ∧ t.sys = s.sys ∨
        e = .runOn ∧ ∃ v, owed s = v :: owed t ∧ t.trace.ledBits = s.trace.ledBits ++ [v] ∧
          t.trace.ledTicks = s.trace.ledTicks ++ cellTicks s.cfg v)

/-- A step that leaves the fatal state is a reset, with a legal divisor (60_exceptions.md rule R166;
70_reset_and_hazards.md rules R190 and R192; 43_encoder.md rule R130; log entry 8 (the direct call); log entry 13 (a
reset with an illegal divisor stays fatal, DEDUCED)). -/
def Obligations.OnlyResetLeavesTheFatalState : Prop :=
  ∀ (s t : State) (e : Event) (es : List Event), s.env.pending = e :: es → step s = .next t →
    s.sys.fatal = true → t.sys.fatal = false →
    (e = .rst ∨ ∃ k, e = .call k ∧ decode s.cfg k = .ok .sysReset) ∧ divisorLegal s.cfg = true ∧
    t = (State.resetOf s.cfg).withEnv { s.env with pending := es }

/-- A step that enters the fatal state is enc_fault, or a reset with an illegal divisor (60_exceptions.md rule
R164). -/
def Obligations.OnlyTheHardwareFaultIsFatal : Prop :=
  ∀ (s t : State) (e : Event) (es : List Event), s.env.pending = e :: es → isCall e = false → step s = .next t →
    s.sys.fatal = false → t.sys.fatal = true → e = .encFault ∨ (e = .rst ∧ divisorLegal s.cfg = false)

/-- Every step of the block from a state that meets the invariant gives one that meets it (10_state.md rules R17,
R21, R30, R32 and R39; 42_render.md rules R123 and R124; 43_encoder.md rules R137 and R143; 60_exceptions.md rule
R165; log entries 10 and 11 (the sampler); log entry 12 (the divider, DEDUCED); log entry 13 (an illegal divisor,
DEDUCED); log entry 19 (one FATAL entry, DEDUCED); log entry 25 (the clause on WRITE, DEDUCED)). -/
def Obligations.EveryStepKeepsTheInvariant : Prop :=
  ∀ (s t : State) (e : Event) (es : List Event), Inv s → s.env.pending = e :: es → isCall e = false →
    step s = .next t →
    Inv t ∧
    (writeNotCompleted s → writeNotCompleted t ∨
      e = .run .dma ∧ t.rl.state = .write ∧ t.enc.dmaIdx = t.cfg.nPix ∧
        exec .rlWrite t =
          .next (t.withRl { t.rl with state := if t.cfg.pubSite = .rl then .publish else .take }))

/-- From a state that meets the invariant no step of the block faults or is refused (20_memory.md rule R43;
93_implementation_defined.md U1; 60_exceptions.md rule R166). -/
def Obligations.NoStepOfTheBlockStops : Prop :=
  ∀ (s : State) (e : Event) (es : List Event), Inv s → s.env.pending = e :: es → isCall e = false →
    ∃ t, step s = .next t

/-- Every step, direct calls included, keeps all buffers in canonical form and within their sizes (20_memory.md
rules R40 and R43; log entry 1). -/
def Obligations.EveryStepKeepsTheBuffersCanonical : Prop :=
  ∀ s t : State, buffersOk s = true → step s = .next t → buffersOk t = true

/-- Receive steps touch only RX, its counter and the mailbox by deposit; render steps only RL, ENC and by take
(60_exceptions.md rule R171; 20_memory.md rule R48). -/
def Obligations.ContextsTouchOnlyTheirOwnState : Prop :=
  ∀ (s t : State) (e : Event) (es : List Event), s.env.pending = e :: es → step s = .next t →
    ((∃ w, e = .window w) ∨ e = .idle ∨ (∃ v, e = .lineBit v) ∨ (∃ v, e = .lineClk v) →
      onlyReceiveSide (withPending s es) t) ∧
    ((∃ a, e = .run a) ∨ e = .encTick ∨ e = .encClk → onlyRenderSide (withPending s es) t)

/-- What has been driven on the outputs never influences a step (10_state.md rule R34; 60_exceptions.md rule R175).
-/
def Obligations.OutputTracesAreNeverRead : Prop :=
  ∀ s t : State, forgetTraces s = forgetTraces t → forgetOutcome (step s) = forgetOutcome (step t)
end

