-- ==== Sys2Proof/Laws/Codes.lean ====
section
/-! SUPPORT. The operand codings are inverse to each other: numbers and bytes, pixels and transfer words, frames and
the publish port. -/

namespace Sys2Proof

open Sys2Proof.Machine

/-- The bytes of a frame survive being written as operands. -/
theorem byteArgs_map (f : List Byte) : byteArgs (f.map BitVec.toNat) = some f := by
  induction f with
  | nil => rfl
  | cons b f ih =>
    have := b.isLt
    simp [byteArgs, byteArg, ih, this]

/-- The pixels of an array survive being written as operands. -/
theorem pixelArgs_pixelNums (ps : List Pixel) : pixelArgs (pixelNums ps) = some ps := by
  induction ps with
  | nil => rfl
  | cons p ps ih =>
    have h1 := p.r.isLt
    have h2 := p.g.isLt
    have h3 := p.b.isLt
    simp only [pixelNums] at ih
    simp [pixelNums, pixelArgs, byteArg, ih, h1, h2, h3]

theorem length_natBytes (k n : Nat) : (natBytes k n).length = k := by
  induction k generalizing n with
  | zero => rfl
  | succ k ih => simp [natBytes, ih]

/-- The publish port carries every byte of a frame (rule R8). -/
theorem natBytes_bytesNat (f : List Byte) : natBytes f.length (bytesNat f) = f := by
  induction f with
  | nil => rfl
  | cons b f ih =>
    have hb := b.isLt
    have h1 : (b.toNat + 256 * bytesNat f) / 256 = bytesNat f := by omega
    simp only [List.length_cons, natBytes, bytesNat, h1, ih, List.cons.injEq, and_true]
    apply BitVec.eq_of_toNat_eq
    simp
    exact hb

theorem bytesNat_lt (f : List Byte) : bytesNat f < 256 ^ f.length := by
  induction f with
  | nil => simp [bytesNat]
  | cons b f ih =>
    have hb := b.isLt
    simp only [bytesNat, List.length_cons, Nat.pow_succ]
    omega

/-- A transfer word holds its pixel, and zero below (rule R65). -/
theorem unpackWord_packPixel (p : Pixel) :
    unpackWord (packPixel p) = p ∧ (packPixel p).extractLsb' 0 8 = 0#8 := by
  obtain ⟨r, g, b⟩ := p
  simp only [unpackWord, packPixel, Pixel.mk.injEq]
  refine ⟨⟨?_, ?_, ?_⟩, ?_⟩ <;> (apply BitVec.eq_of_getLsbD_eq; intro i hi) <;> simp [hi]
  all_goals
    have : i = 0 ∨ i = 1 ∨ i = 2 ∨ i = 3 ∨ i = 4 ∨ i = 5 ∨ i = 6 ∨ i = 7 := by omega
    rcases this with rfl | rfl | rfl | rfl | rfl | rfl | rfl | rfl <;> simp

/-- The transfer words of an array decode to the array. -/
theorem decodeWords_packPixel (ps : List Pixel) : decodeWords (ps.map packPixel) = .ok ps := by
  induction ps with
  | nil => rfl
  | cons p ps ih => simp [decodeWords, ih, decodeWord, unpackWord_packPixel]

end Sys2Proof
end

