-- ==== Sys2Proof/Laws/Memory.lean ====
section
/-! SUPPORT. The laws of the buffers (`20_memory.md`): a read after a write, the canonical form and the bounds that
every operation keeps, and whole-block reads in terms of single reads. -/

namespace Sys2Proof.Machine.Memory

variable {α : Type}

theorem read_write_self (m : Memory α) (i : Nat) (v : α) : read (write m i v) i = some v := by
  induction m with
  | nil => simp [write, read]
  | cons e m ih =>
    obtain ⟨k, w⟩ := e
    simp only [write]
    split
    · simp [read]
    · split
      · simp [read]
      · have : k ≠ i := by omega
        simp [read, this, ih]

theorem read_write_other (m : Memory α) {i j : Nat} (v : α) (h : j ≠ i) : read (write m i v) j = read m j := by
  induction m with
  | nil => simp [write, read, Ne.symm h]
  | cons e m ih =>
    obtain ⟨k, w⟩ := e
    simp only [write]
    split
    · simp [read, Ne.symm h]
    · split
      · subst_vars; simp [read, Ne.symm h]
      · simp only [read, ih]

theorem risingFrom_mono {lo lo' : Nat} (m : Memory α) (h : lo' ≤ lo) (hm : risingFrom lo m = true) :
    risingFrom lo' m = true := by
  cases m with
  | nil => rfl
  | cons e m =>
    obtain ⟨k, v⟩ := e
    simp only [risingFrom, Bool.and_eq_true, decide_eq_true_eq] at hm ⊢
    exact ⟨by omega, hm.2⟩

theorem risingFrom_write (m : Memory α) {lo i : Nat} (v : α) (hi : lo ≤ i) (hm : risingFrom lo m = true) :
    risingFrom lo (write m i v) = true := by
  induction m generalizing lo with
  | nil => simp [write, risingFrom, hi]
  | cons e m ih =>
    obtain ⟨k, w⟩ := e
    simp only [risingFrom, Bool.and_eq_true, decide_eq_true_eq] at hm
    simp only [write]
    split
    · simp only [risingFrom, Bool.and_eq_true, decide_eq_true_eq]
      exact ⟨hi, by omega, hm.2⟩
    · split
      · subst_vars; simp [risingFrom, hm.1, hm.2]
      · simp only [risingFrom, Bool.and_eq_true, decide_eq_true_eq]
        exact ⟨hm.1, ih (by omega) hm.2⟩

/-- A write keeps the canonical form. -/
theorem wf_write (m : Memory α) (i : Nat) (v : α) (hm : wf m = true) : wf (write m i v) = true :=
  risingFrom_write m v (Nat.zero_le i) hm

theorem below_write (m : Memory α) {cap i : Nat} (v : α) (hi : i < cap) (hm : below cap m = true) :
    below cap (write m i v) = true := by
  induction m with
  | nil => simp [write, below, hi]
  | cons e m ih =>
    obtain ⟨k, w⟩ := e
    simp only [below, List.all_cons, Bool.and_eq_true, decide_eq_true_eq] at hm
    simp only [write]
    split
    · simp [below, hi, hm.1]; simpa [below] using hm.2
    · split
      · simp [below, hi]; simpa [below] using hm.2
      · simp only [below, List.all_cons, Bool.and_eq_true, decide_eq_true_eq]
        exact ⟨hm.1, ih hm.2⟩

theorem risingFrom_ofListAt (vs : List α) (i : Nat) : risingFrom i (ofListAt i vs) = true := by
  induction vs generalizing i with
  | nil => rfl
  | cons v vs ih => simp [ofListAt, risingFrom, ih]

/-- A whole buffer written at once is in canonical form. -/
theorem wf_ofList (vs : List α) : wf (ofList vs) = true := risingFrom_ofListAt vs 0

theorem below_ofListAt (vs : List α) {i cap : Nat} (h : i + vs.length ≤ cap) : below cap (ofListAt i vs) = true := by
  induction vs generalizing i with
  | nil => rfl
  | cons v vs ih =>
    simp only [List.length_cons] at h
    have h1 := ih (i := i + 1) (by omega)
    simp only [below, ofListAt, List.all_cons, Bool.and_eq_true, decide_eq_true_eq] at h1 ⊢
    exact ⟨by omega, h1⟩

theorem below_ofList (vs : List α) {cap : Nat} (h : vs.length ≤ cap) : below cap (ofList vs) = true :=
  below_ofListAt vs (by omega)

/-- What a whole buffer written at once reads as. -/
theorem readBlock_ofListAt (vs : List α) (i : Nat) : readBlock (ofListAt i vs) i vs.length = some vs := by
  induction vs generalizing i with
  | nil => simp [ofListAt, readBlock]
  | cons v vs ih => simp [ofListAt, readBlock, ih]

@[simp] theorem readBlock_ofList (vs : List α) : readBlock (ofList vs) 0 vs.length = some vs :=
  readBlock_ofListAt vs 0

theorem read_ofListAt (vs : List α) (i j : Nat) : read (ofListAt i vs) (i + j) = vs[j]? := by
  induction vs generalizing i j with
  | nil => simp [ofListAt, read]
  | cons v vs ih =>
    cases j with
    | zero => simp [ofListAt, read]
    | succ j =>
      have := ih (i + 1) j
      simp only [ofListAt, read]
      rw [if_neg (by omega), show i + (j + 1) = i + 1 + j by omega, this]
      simp

@[simp] theorem read_ofList (vs : List α) (j : Nat) : read (ofList vs) j = vs[j]? := by
  simpa [ofList] using read_ofListAt vs 0 j

@[simp] theorem readBlock_zero (m : Memory α) (i : Nat) : readBlock m i 0 = some [] := by
  cases m <;> rfl

/-- An index below every listed one holds no value. -/
theorem read_of_risingFrom {m : Memory α} {lo i : Nat} (hm : risingFrom lo m = true) (h : i < lo) :
    read m i = none := by
  induction m generalizing lo with
  | nil => rfl
  | cons e m ih =>
    obtain ⟨k, v⟩ := e
    simp only [risingFrom, Bool.and_eq_true, decide_eq_true_eq] at hm
    simp only [read]
    rw [if_neg (by omega)]
    exact ih hm.2 (by omega)

/-- A block read is its single reads, in a buffer in canonical form. -/
theorem readBlock_eq_some_iff {m : Memory α} {lo i n : Nat} {vs : List α} (hm : risingFrom lo m = true) :
    readBlock m i n = some vs ↔ vs.length = n ∧ ∀ j < n, read m (i + j) = vs[j]? := by
  induction m generalizing lo i n vs with
  | nil =>
    cases n with
    | zero =>
      simp [eq_comm]
    | succ n =>
      simp only [readBlock, read, reduceCtorEq, false_iff, not_and]
      intro hl h
      have := h 0 (by omega)
      cases vs <;> simp_all
  | cons e m ih =>
    obtain ⟨k, v⟩ := e
    simp only [risingFrom, Bool.and_eq_true, decide_eq_true_eq] at hm
    cases n with
    | zero => simp [eq_comm]
    | succ n =>
      simp only [readBlock]
      split
      · rename_i hk
        rw [ih hm.2]
        simp only [read]
        have : ∀ j, (if k = i + j then some v else read m (i + j)) = read m (i + j) := by
          intro j; rw [if_neg (by omega)]
        simp only [this]
      · split
        · rename_i hk1 hk2
          subst hk2
          rw [Option.map_eq_some_iff]
          constructor
          · rintro ⟨ws, h, rfl⟩
            obtain ⟨h1, h2⟩ := (ih hm.2).1 h
            refine ⟨by simp [h1], ?_⟩
            intro j hj
            cases j with
            | zero => simp [read]
            | succ j =>
              simp only [read]
              rw [if_neg (by omega), show k + (j + 1) = k + 1 + j by omega, h2 j (by omega)]
              simp
          · rintro ⟨h1, h2⟩
            cases vs with
            | nil => simp at h1
            | cons w ws =>
              have h0 := h2 0 (by omega)
              simp only [Nat.add_zero, read, if_true, List.getElem?_cons_zero, Option.some.injEq] at h0
              subst h0
              refine ⟨ws, (ih hm.2).2 ⟨by simpa using h1, ?_⟩, rfl⟩
              intro j hj
              have := h2 (j + 1) (by omega)
              simp only [read] at this
              rw [if_neg (by omega), show k + (j + 1) = k + 1 + j by omega] at this
              simpa using this
        · rename_i hk1 hk2
          simp only [reduceCtorEq, false_iff, not_and]
          intro hl h
          have h0 := h 0 (by omega)
          simp only [Nat.add_zero, read, if_neg hk2] at h0
          rw [read_of_risingFrom hm.2 (by omega)] at h0
          cases vs <;> simp_all

/-- A block read in canonical form, from index 0. -/
theorem readBlock_wf_iff {m : Memory α} {n : Nat} {vs : List α} (hm : wf m = true) :
    readBlock m 0 n = some vs ↔ vs.length = n ∧ ∀ j < n, read m j = vs[j]? := by
  simpa using readBlock_eq_some_iff (i := 0) (n := n) (vs := vs) hm

theorem length_of_readBlock {m : Memory α} {n : Nat} {vs : List α} (hm : wf m = true)
    (h : readBlock m 0 n = some vs) : vs.length = n := ((readBlock_wf_iff hm).1 h).1

/-- A block is written exactly when each of its elements is. -/
theorem written_iff {m : Memory α} {n : Nat} (hm : wf m = true) :
    written m 0 n = true ↔ ∀ j < n, (read m j).isSome = true := by
  constructor
  · intro h j hj
    obtain ⟨vs, hvs⟩ := Option.isSome_iff_exists.1 h
    obtain ⟨h1, h2⟩ := (readBlock_wf_iff hm).1 hvs
    rw [h2 j hj]; simp [h1, hj]
  · intro h
    have hr : readBlock m 0 n = some ((List.range n).filterMap (read m)) := by
      have hl : ∀ k ≤ n, ((List.range k).filterMap (read m)).length = k ∧
          ∀ j < k, read m j = ((List.range k).filterMap (read m))[j]? := by
        intro k
        induction k with
        | zero => intro _; simp
        | succ k ih =>
          intro hk
          obtain ⟨h1, h2⟩ := ih (by omega)
          obtain ⟨v, hv⟩ := Option.isSome_iff_exists.1 (h k (by omega))
          rw [List.range_succ, List.filterMap_append]
          simp only [List.filterMap_cons, hv, List.filterMap_nil]
          refine ⟨by simp [h1], ?_⟩
          intro j hj
          rcases Nat.lt_succ_iff_lt_or_eq.1 hj with hj | rfl
          · rw [List.getElem?_append_left (by omega), h2 j hj]
          · rw [List.getElem?_append_right (by omega)]; simp [h1, hv]
      exact (readBlock_wf_iff hm).2 (hl n (Nat.le_refl n))
    simp [written, hr]

/-- Writing the next element extends the written block by it. -/
theorem readBlock_write_next {m : Memory α} {n : Nat} {vs : List α} (v : α) (hm : wf m = true)
    (h : readBlock m 0 n = some vs) : readBlock (write m n v) 0 (n + 1) = some (vs ++ [v]) := by
  obtain ⟨h1, h2⟩ := (readBlock_wf_iff hm).1 h
  refine (readBlock_wf_iff (wf_write m n v hm)).2 ⟨by simp [h1], ?_⟩
  intro j hj
  rcases Nat.lt_succ_iff_lt_or_eq.1 hj with hj | rfl
  · rw [read_write_other m v (by omega), h2 j hj, List.getElem?_append_left (by omega)]
  · rw [read_write_self, List.getElem?_append_right (by omega)]; simp [h1]

/-- A prefix of a written block. -/
theorem readBlock_take {m : Memory α} {n k : Nat} {vs : List α} (hm : wf m = true) (hk : k ≤ n)
    (h : readBlock m 0 n = some vs) : readBlock m 0 k = some (vs.take k) := by
  obtain ⟨h1, h2⟩ := (readBlock_wf_iff hm).1 h
  refine (readBlock_wf_iff hm).2 ⟨by simp [h1]; omega, ?_⟩
  intro j hj
  rw [h2 j (by omega), List.getElem?_take]; simp [hj]

theorem ofListAt_map {α β : Type} (f : α → β) (i : Nat) (vs : List α) :
    ofListAt i (vs.map f) = (ofListAt i vs).map fun x => (x.1, f x.2) := by
  induction vs generalizing i with
  | nil => rfl
  | cons v vs ih => simp [ofListAt, ih]

/-- A buffer of images is the image of the buffer. -/
theorem ofList_map {α β : Type} (f : α → β) (vs : List α) :
    ofList (vs.map f) = (ofList vs).map fun x => (x.1, f x.2) := ofListAt_map f 0 vs

end Sys2Proof.Machine.Memory
end

