-- ==== Sys2Proof/Laws/State.lean ====
section
/-! SUPPORT. One lemma per field per update of the state, each true by `rfl`, so that no proof unfolds a record
update. -/

namespace Sys2Proof.Machine.State

@[simp] theorem withRx_cfg (s : State) (x : Rx) : (s.withRx x).cfg = s.cfg := rfl
@[simp] theorem withRx_rx (s : State) (x : Rx) : (s.withRx x).rx = x := rfl
@[simp] theorem withRx_mbx (s : State) (x : Rx) : (s.withRx x).mbx = s.mbx := rfl
@[simp] theorem withRx_rl (s : State) (x : Rx) : (s.withRx x).rl = s.rl := rfl
@[simp] theorem withRx_enc (s : State) (x : Rx) : (s.withRx x).enc = s.enc := rfl
@[simp] theorem withRx_pub (s : State) (x : Rx) : (s.withRx x).pub = s.pub := rfl
@[simp] theorem withRx_sys (s : State) (x : Rx) : (s.withRx x).sys = s.sys := rfl
@[simp] theorem withRx_trace (s : State) (x : Rx) : (s.withRx x).trace = s.trace := rfl
@[simp] theorem withRx_ret (s : State) (x : Rx) : (s.withRx x).ret = s.ret := rfl
@[simp] theorem withRx_env (s : State) (x : Rx) : (s.withRx x).env = s.env := rfl
@[simp] theorem withRx_withRx (s : State) (x y : Rx) : (s.withRx x).withRx y = s.withRx y := rfl
@[simp] theorem withRx_self (s : State) : s.withRx s.rx = s := rfl

@[simp] theorem withMbx_cfg (s : State) (x : Mbx) : (s.withMbx x).cfg = s.cfg := rfl
@[simp] theorem withMbx_rx (s : State) (x : Mbx) : (s.withMbx x).rx = s.rx := rfl
@[simp] theorem withMbx_mbx (s : State) (x : Mbx) : (s.withMbx x).mbx = x := rfl
@[simp] theorem withMbx_rl (s : State) (x : Mbx) : (s.withMbx x).rl = s.rl := rfl
@[simp] theorem withMbx_enc (s : State) (x : Mbx) : (s.withMbx x).enc = s.enc := rfl
@[simp] theorem withMbx_pub (s : State) (x : Mbx) : (s.withMbx x).pub = s.pub := rfl
@[simp] theorem withMbx_sys (s : State) (x : Mbx) : (s.withMbx x).sys = s.sys := rfl
@[simp] theorem withMbx_trace (s : State) (x : Mbx) : (s.withMbx x).trace = s.trace := rfl
@[simp] theorem withMbx_ret (s : State) (x : Mbx) : (s.withMbx x).ret = s.ret := rfl
@[simp] theorem withMbx_env (s : State) (x : Mbx) : (s.withMbx x).env = s.env := rfl
@[simp] theorem withMbx_withMbx (s : State) (x y : Mbx) : (s.withMbx x).withMbx y = s.withMbx y := rfl
@[simp] theorem withMbx_self (s : State) : s.withMbx s.mbx = s := rfl

@[simp] theorem withRl_cfg (s : State) (x : Rl) : (s.withRl x).cfg = s.cfg := rfl
@[simp] theorem withRl_rx (s : State) (x : Rl) : (s.withRl x).rx = s.rx := rfl
@[simp] theorem withRl_mbx (s : State) (x : Rl) : (s.withRl x).mbx = s.mbx := rfl
@[simp] theorem withRl_rl (s : State) (x : Rl) : (s.withRl x).rl = x := rfl
@[simp] theorem withRl_enc (s : State) (x : Rl) : (s.withRl x).enc = s.enc := rfl
@[simp] theorem withRl_pub (s : State) (x : Rl) : (s.withRl x).pub = s.pub := rfl
@[simp] theorem withRl_sys (s : State) (x : Rl) : (s.withRl x).sys = s.sys := rfl
@[simp] theorem withRl_trace (s : State) (x : Rl) : (s.withRl x).trace = s.trace := rfl
@[simp] theorem withRl_ret (s : State) (x : Rl) : (s.withRl x).ret = s.ret := rfl
@[simp] theorem withRl_env (s : State) (x : Rl) : (s.withRl x).env = s.env := rfl
@[simp] theorem withRl_withRl (s : State) (x y : Rl) : (s.withRl x).withRl y = s.withRl y := rfl
@[simp] theorem withRl_self (s : State) : s.withRl s.rl = s := rfl

@[simp] theorem withEnc_cfg (s : State) (x : Enc) : (s.withEnc x).cfg = s.cfg := rfl
@[simp] theorem withEnc_rx (s : State) (x : Enc) : (s.withEnc x).rx = s.rx := rfl
@[simp] theorem withEnc_mbx (s : State) (x : Enc) : (s.withEnc x).mbx = s.mbx := rfl
@[simp] theorem withEnc_rl (s : State) (x : Enc) : (s.withEnc x).rl = s.rl := rfl
@[simp] theorem withEnc_enc (s : State) (x : Enc) : (s.withEnc x).enc = x := rfl
@[simp] theorem withEnc_pub (s : State) (x : Enc) : (s.withEnc x).pub = s.pub := rfl
@[simp] theorem withEnc_sys (s : State) (x : Enc) : (s.withEnc x).sys = s.sys := rfl
@[simp] theorem withEnc_trace (s : State) (x : Enc) : (s.withEnc x).trace = s.trace := rfl
@[simp] theorem withEnc_ret (s : State) (x : Enc) : (s.withEnc x).ret = s.ret := rfl
@[simp] theorem withEnc_env (s : State) (x : Enc) : (s.withEnc x).env = s.env := rfl
@[simp] theorem withEnc_withEnc (s : State) (x y : Enc) : (s.withEnc x).withEnc y = s.withEnc y := rfl
@[simp] theorem withEnc_self (s : State) : s.withEnc s.enc = s := rfl

@[simp] theorem withPub_cfg (s : State) (x : Pub) : (s.withPub x).cfg = s.cfg := rfl
@[simp] theorem withPub_rx (s : State) (x : Pub) : (s.withPub x).rx = s.rx := rfl
@[simp] theorem withPub_mbx (s : State) (x : Pub) : (s.withPub x).mbx = s.mbx := rfl
@[simp] theorem withPub_rl (s : State) (x : Pub) : (s.withPub x).rl = s.rl := rfl
@[simp] theorem withPub_enc (s : State) (x : Pub) : (s.withPub x).enc = s.enc := rfl
@[simp] theorem withPub_pub (s : State) (x : Pub) : (s.withPub x).pub = x := rfl
@[simp] theorem withPub_sys (s : State) (x : Pub) : (s.withPub x).sys = s.sys := rfl
@[simp] theorem withPub_trace (s : State) (x : Pub) : (s.withPub x).trace = s.trace := rfl
@[simp] theorem withPub_ret (s : State) (x : Pub) : (s.withPub x).ret = s.ret := rfl
@[simp] theorem withPub_env (s : State) (x : Pub) : (s.withPub x).env = s.env := rfl
@[simp] theorem withPub_withPub (s : State) (x y : Pub) : (s.withPub x).withPub y = s.withPub y := rfl
@[simp] theorem withPub_self (s : State) : s.withPub s.pub = s := rfl

@[simp] theorem withSys_cfg (s : State) (x : Sys) : (s.withSys x).cfg = s.cfg := rfl
@[simp] theorem withSys_rx (s : State) (x : Sys) : (s.withSys x).rx = s.rx := rfl
@[simp] theorem withSys_mbx (s : State) (x : Sys) : (s.withSys x).mbx = s.mbx := rfl
@[simp] theorem withSys_rl (s : State) (x : Sys) : (s.withSys x).rl = s.rl := rfl
@[simp] theorem withSys_enc (s : State) (x : Sys) : (s.withSys x).enc = s.enc := rfl
@[simp] theorem withSys_pub (s : State) (x : Sys) : (s.withSys x).pub = s.pub := rfl
@[simp] theorem withSys_sys (s : State) (x : Sys) : (s.withSys x).sys = x := rfl
@[simp] theorem withSys_trace (s : State) (x : Sys) : (s.withSys x).trace = s.trace := rfl
@[simp] theorem withSys_ret (s : State) (x : Sys) : (s.withSys x).ret = s.ret := rfl
@[simp] theorem withSys_env (s : State) (x : Sys) : (s.withSys x).env = s.env := rfl
@[simp] theorem withSys_withSys (s : State) (x y : Sys) : (s.withSys x).withSys y = s.withSys y := rfl
@[simp] theorem withSys_self (s : State) : s.withSys s.sys = s := rfl

@[simp] theorem withTrace_cfg (s : State) (x : Trace) : (s.withTrace x).cfg = s.cfg := rfl
@[simp] theorem withTrace_rx (s : State) (x : Trace) : (s.withTrace x).rx = s.rx := rfl
@[simp] theorem withTrace_mbx (s : State) (x : Trace) : (s.withTrace x).mbx = s.mbx := rfl
@[simp] theorem withTrace_rl (s : State) (x : Trace) : (s.withTrace x).rl = s.rl := rfl
@[simp] theorem withTrace_enc (s : State) (x : Trace) : (s.withTrace x).enc = s.enc := rfl
@[simp] theorem withTrace_pub (s : State) (x : Trace) : (s.withTrace x).pub = s.pub := rfl
@[simp] theorem withTrace_sys (s : State) (x : Trace) : (s.withTrace x).sys = s.sys := rfl
@[simp] theorem withTrace_trace (s : State) (x : Trace) : (s.withTrace x).trace = x := rfl
@[simp] theorem withTrace_ret (s : State) (x : Trace) : (s.withTrace x).ret = s.ret := rfl
@[simp] theorem withTrace_env (s : State) (x : Trace) : (s.withTrace x).env = s.env := rfl
@[simp] theorem withTrace_withTrace (s : State) (x y : Trace) : (s.withTrace x).withTrace y = s.withTrace y := rfl
@[simp] theorem withTrace_self (s : State) : s.withTrace s.trace = s := rfl

@[simp] theorem withRet_cfg (s : State) (x : Option Ret) : (s.withRet x).cfg = s.cfg := rfl
@[simp] theorem withRet_rx (s : State) (x : Option Ret) : (s.withRet x).rx = s.rx := rfl
@[simp] theorem withRet_mbx (s : State) (x : Option Ret) : (s.withRet x).mbx = s.mbx := rfl
@[simp] theorem withRet_rl (s : State) (x : Option Ret) : (s.withRet x).rl = s.rl := rfl
@[simp] theorem withRet_enc (s : State) (x : Option Ret) : (s.withRet x).enc = s.enc := rfl
@[simp] theorem withRet_pub (s : State) (x : Option Ret) : (s.withRet x).pub = s.pub := rfl
@[simp] theorem withRet_sys (s : State) (x : Option Ret) : (s.withRet x).sys = s.sys := rfl
@[simp] theorem withRet_trace (s : State) (x : Option Ret) : (s.withRet x).trace = s.trace := rfl
@[simp] theorem withRet_ret (s : State) (x : Option Ret) : (s.withRet x).ret = x := rfl
@[simp] theorem withRet_env (s : State) (x : Option Ret) : (s.withRet x).env = s.env := rfl
@[simp] theorem withRet_withRet (s : State) (x y : Option Ret) : (s.withRet x).withRet y = s.withRet y := rfl
@[simp] theorem withRet_self (s : State) : s.withRet s.ret = s := rfl

@[simp] theorem withEnv_cfg (s : State) (x : Env) : (s.withEnv x).cfg = s.cfg := rfl
@[simp] theorem withEnv_rx (s : State) (x : Env) : (s.withEnv x).rx = s.rx := rfl
@[simp] theorem withEnv_mbx (s : State) (x : Env) : (s.withEnv x).mbx = s.mbx := rfl
@[simp] theorem withEnv_rl (s : State) (x : Env) : (s.withEnv x).rl = s.rl := rfl
@[simp] theorem withEnv_enc (s : State) (x : Env) : (s.withEnv x).enc = s.enc := rfl
@[simp] theorem withEnv_pub (s : State) (x : Env) : (s.withEnv x).pub = s.pub := rfl
@[simp] theorem withEnv_sys (s : State) (x : Env) : (s.withEnv x).sys = s.sys := rfl
@[simp] theorem withEnv_trace (s : State) (x : Env) : (s.withEnv x).trace = s.trace := rfl
@[simp] theorem withEnv_ret (s : State) (x : Env) : (s.withEnv x).ret = s.ret := rfl
@[simp] theorem withEnv_env (s : State) (x : Env) : (s.withEnv x).env = x := rfl
@[simp] theorem withEnv_withEnv (s : State) (x y : Env) : (s.withEnv x).withEnv y = s.withEnv y := rfl
@[simp] theorem withEnv_self (s : State) : s.withEnv s.env = s := rfl

/-! ### The state after reset -/

@[simp] theorem resetOf_cfg (c : Config) : (resetOf c).cfg = c := by
  unfold resetOf; split <;> rfl

@[simp] theorem resetOf_env (c : Config) : (resetOf c).env = { pending := [], pubReady := false } := by
  unfold resetOf; split <;> rfl

theorem resetOf_legal {c : Config} (h : divisorLegal c = true) : resetOf c = powerOn c := by
  simp [resetOf, h]

/-- The reset state of the interface is that of its parameter set. -/
theorem reset_eq_resetOf : reset = resetOf Config.example1 :=
  (resetOf_legal (by decide +kernel)).symm

@[simp] theorem resetOf_rx (c : Config) : (resetOf c).rx = (powerOn c).rx := by
  unfold resetOf; split <;> rfl

@[simp] theorem resetOf_mbx (c : Config) : (resetOf c).mbx = (powerOn c).mbx := by
  unfold resetOf; split <;> rfl

@[simp] theorem resetOf_rl (c : Config) : (resetOf c).rl = (powerOn c).rl := by
  unfold resetOf; split <;> rfl

@[simp] theorem resetOf_enc (c : Config) : (resetOf c).enc = (powerOn c).enc := by
  unfold resetOf; split <;> rfl

@[simp] theorem resetOf_pub (c : Config) : (resetOf c).pub = (powerOn c).pub := by
  unfold resetOf; split <;> rfl

@[simp] theorem resetOf_ret (c : Config) : (resetOf c).ret = none := by
  unfold resetOf; split <;> rfl

/-- The latch after reset: set exactly when the divisor is illegal (rules R130 and R192). -/
theorem resetOf_fatal (c : Config) : (resetOf c).sys.fatal = !divisorLegal c := by
  unfold resetOf; split <;> simp_all [powerOn]

end Sys2Proof.Machine.State
end

