-- ==== Sys2Proof/Laws/Ops.lean ====
section
/-! SUPPORT. What each shared operation can do, once: when it answers, with which state, and which parts of the
state it leaves alone. -/

namespace Sys2Proof.Machine

/-! ### Enabling -/

theorem live_of_fatal {s : State} (h : s.sys.fatal = true) (r : Except Fault State) : live s r = .next s := by
  simp [live, h]

theorem live_ok {s : State} (h : s.sys.fatal = false) (t : State) : live s (.ok t) = .next t := by
  simp [live, h]

theorem live_error {s : State} (h : s.sys.fatal = false) (f : Fault) : live s (.error f) = .fault f := by
  simp [live, h]

/-- Everything an operation of a unit can answer with a next state. -/
theorem live_next_iff {s t : State} {r : Except Fault State} :
    live s r = .next t ↔ (s.sys.fatal = true ∧ t = s) ∨ (s.sys.fatal = false ∧ r = .ok t) := by
  unfold live
  cases hf : s.sys.fatal <;> cases r <;> simp [eq_comm]

/-- An operation of a unit refuses nothing. -/
theorem live_not_refused (s : State) (r : Except Fault State) (x : Refusal) : live s r ≠ .refused x := by
  unfold live
  split
  · simp
  · cases r <;> simp

/-! ### Buffers -/

theorem bufRead_ok_iff {α : Type} {b : BufName} {cap i : Nat} {m : Memory α} {v : α} :
    bufRead b cap m i = .ok v ↔ i < cap ∧ Memory.read m i = some v := by
  unfold bufRead
  split
  · cases h : Memory.read m i <;> simp_all
  · simp_all

theorem bufWrite_ok_iff {α : Type} {b : BufName} {cap i : Nat} {m m' : Memory α} {v : α} :
    bufWrite b cap m i v = .ok m' ↔ i < cap ∧ m' = Memory.write m i v := by
  unfold bufWrite
  split <;> simp_all [eq_comm]

theorem bufBlock_ok_iff {α : Type} {b : BufName} {n : Nat} {m : Memory α} {vs : List α} :
    bufBlock b m n = .ok vs ↔ Memory.readBlock m 0 n = some vs := by
  unfold bufBlock
  cases h : Memory.readBlock m 0 n <;> simp_all

@[simp] theorem buf_setBuf_same (r : Rx) (j : Bool) (m : Memory Byte) : (r.setBuf j m).buf j = m := by
  cases j <;> rfl

@[simp] theorem buf_setBuf_other (r : Rx) (j : Bool) (m : Memory Byte) : (r.setBuf j m).buf (!j) = r.buf (!j) := by
  cases j <;> rfl

@[simp] theorem setBuf_active (r : Rx) (j : Bool) (m : Memory Byte) : (r.setBuf j m).active = r.active := by
  cases j <;> rfl

@[simp] theorem setBuf_first (r : Rx) (j : Bool) (m : Memory Byte) : (r.setBuf j m).first = r.first := by
  cases j <;> rfl

@[simp] theorem setBuf_prevLen (r : Rx) (j : Bool) (m : Memory Byte) : (r.setBuf j m).prevLen = r.prevLen := by
  cases j <;> rfl

@[simp] theorem setBuf_idleCnt (r : Rx) (j : Bool) (m : Memory Byte) : (r.setBuf j m).idleCnt = r.idleCnt := by
  cases j <;> rfl

@[simp] theorem setBuf_serial (r : Rx) (j : Bool) (m : Memory Byte) : (r.setBuf j m).serial = r.serial := by
  cases j <;> rfl

@[simp] theorem seq_setSeq_same (p : Pub) (c : Ctx) (n : Nat) : (p.setSeq c n).seq c = n := by
  cases c <;> rfl

theorem seq_setSeq_other (p : Pub) {c d : Ctx} (n : Nat) (h : d ≠ c) : (p.setSeq c n).seq d = p.seq d := by
  cases c <;> cases d <;> first | rfl | exact absurd rfl h

/-! ### The fatal state -/

theorem takeHardwareFault_eq (s : State) :
    takeHardwareFault s =
      { s with
        sys := { s.sys with fatal := true }
        trace :=
          { s.trace with log := s.trace.log ++ [.hardwareFault], fatal := s.trace.fatal ++ [.hardwareFault] } } := rfl

@[simp] theorem returnByReset_cfg (s : State) : (returnByReset s).cfg = s.cfg := by simp [returnByReset]

@[simp] theorem returnByReset_env (s : State) : (returnByReset s).env = s.env := rfl

/-! ### Mailbox -/

/-- Everything a take of a full slot can do. -/
theorem takeFrame_ok_iff {s t : State} {f : Frame} :
    takeFrame s = .ok (f, t) ↔
      Memory.readBlock s.mbx.slot 0 frameLen = some f ∧ t = s.withMbx { slot := [], full := false } := by
  unfold takeFrame
  cases h : bufBlock .slot s.mbx.slot frameLen with
  | ok g =>
    have := bufBlock_ok_iff.1 h
    simp [this, eq_comm]
  | error e =>
    simp only [reduceCtorEq, false_iff, not_and]
    intro h1
    rw [bufBlock_ok_iff.2 h1] at h
    cases h

@[simp] theorem length_padFrame (bytes : List Byte) : (padFrame bytes).length = frameLen := by
  simp [padFrame]; omega

/-- A deposited frame is the one the slot holds, whole. -/
theorem readBlock_deposit {f : Frame} (h : f.length = frameLen) (s : State) :
    Memory.readBlock (deposit f s).mbx.slot 0 frameLen = some f := by
  rw [← h]; exact Memory.readBlock_ofList f

/-! ### Publisher: nothing of the lighting path changes (rule R154) -/

@[simp] theorem publish_cfg (c : Ctx) (f : Frame) (s : State) : (publish c f s).cfg = s.cfg := by
  unfold publish; split <;> rfl

@[simp] theorem publish_rx (c : Ctx) (f : Frame) (s : State) : (publish c f s).rx = s.rx := by
  unfold publish; split <;> rfl

@[simp] theorem publish_mbx (c : Ctx) (f : Frame) (s : State) : (publish c f s).mbx = s.mbx := by
  unfold publish; split <;> rfl

@[simp] theorem publish_rl (c : Ctx) (f : Frame) (s : State) : (publish c f s).rl = s.rl := by
  unfold publish; split <;> rfl

@[simp] theorem publish_enc (c : Ctx) (f : Frame) (s : State) : (publish c f s).enc = s.enc := by
  unfold publish; split <;> rfl

@[simp] theorem publish_sys (c : Ctx) (f : Frame) (s : State) : (publish c f s).sys = s.sys := by
  unfold publish; split <;> rfl

@[simp] theorem publish_env (c : Ctx) (f : Frame) (s : State) : (publish c f s).env = s.env := by
  unfold publish; split <;> rfl

@[simp] theorem publish_ret (c : Ctx) (f : Frame) (s : State) : (publish c f s).ret = s.ret := by
  unfold publish; split <;> rfl

@[simp] theorem publish_ledBits (c : Ctx) (f : Frame) (s : State) :
    (publish c f s).trace.ledBits = s.trace.ledBits := by
  unfold publish; split <;> rfl

@[simp] theorem publish_ledTicks (c : Ctx) (f : Frame) (s : State) :
    (publish c f s).trace.ledTicks = s.trace.ledTicks := by
  unfold publish; split <;> rfl

@[simp] theorem publish_fatalTrace (c : Ctx) (f : Frame) (s : State) :
    (publish c f s).trace.fatal = s.trace.fatal := by
  unfold publish; split <;> rfl

/-! ### Receiver -/

/-- Everything a build can do. -/
theorem build_ok_iff {n : Nat} {s : State} {f : Frame} :
    build n s = .ok f ↔
      ∃ bytes, Memory.readBlock (s.rx.buf (!s.rx.active)) 0 (min n frameLen) = some bytes ∧ f = padFrame bytes := by
  unfold build
  cases h : bufBlock .rxBuf (s.rx.buf (!s.rx.active)) (min n frameLen) with
  | ok bytes =>
    have := bufBlock_ok_iff.1 h
    simp [this, eq_comm]
  | error e =>
    simp only [reduceCtorEq, false_iff, not_exists, not_and]
    intro bytes h1
    rw [bufBlock_ok_iff.2 h1] at h
    cases h

/-- Everything a delivery can do. -/
theorem deliver_ok_iff {n : Nat} {s t : State} :
    deliver n s = .ok t ↔
      ∃ f, build n s = .ok f ∧ t = deposit f (if s.cfg.pubSite = .rx then publish .receive f s else s) := by
  unfold deliver
  cases h : build n s <;> simp [eq_comm]

theorem swapBuffers_eq (s : State) :
    swapBuffers s = { s with rx := { s.rx with prevLen := s.rx.count, active := !s.rx.active, count := 0 } } := rfl

/-- The receiver after an error at the end of a read (rule R89). -/
theorem drop_eq (kind : ReceiveKind) (atBreak : Bool) (s : State) :
    drop kind atBreak s =
      { s with
        rx := { s.rx with first := s.rx.first || resyncs s.cfg atBreak }
        trace := { s.trace with log := s.trace.log ++ [.receive kind] } } := by
  unfold drop
  cases h : resyncs s.cfg atBreak <;>
    simp [State.withTrace, Trace.emitLog, setFirst, State.withRx]

/-- Everything a completion can do (rule R85). -/
theorem complete_ok_iff {result : ReadResult} {atBreak : Bool} {s t : State} :
    complete result atBreak s = .ok t ↔
      match result with
      | .ok n =>
        if s.rx.first then t = discard (swapBuffers s) else deliver n (swapBuffers s) = .ok t
      | .err kind => t = drop kind atBreak (swapBuffers s) := by
  unfold complete
  cases result with
  | ok n =>
    cases h : s.rx.first <;> simp [swapBuffers_eq, h, eq_comm]
  | err kind => simp [eq_comm]

/-- Everything a character can do (rules R81 and R84). -/
theorem character_ok_iff {b : Byte} {s t : State} :
    character b s = .ok t ↔
      s.rx.count < s.cfg.rxCap ∧
      (let u := s.withRx
        { s.rx.setBuf s.rx.active (Memory.write (s.rx.buf s.rx.active) s.rx.count b) with count := s.rx.count + 1 }
       if s.rx.count + 1 = s.cfg.rxCap then readFull u = .ok t else t = u) := by
  unfold character bufWrite
  by_cases hc : s.rx.count < s.cfg.rxCap
  · by_cases hf : s.rx.count + 1 = s.cfg.rxCap <;> simp [hc, hf, eq_comm]
  · simp [hc]

/-! ### The serial input below the line symbol -/

@[simp] theorem setBaud_setBaud (m n : Nat) (s : State) : setBaud m (setBaud n s) = setBaud m s := rfl

@[simp] theorem setBaud_serial (n : Nat) (s : State) :
    (setBaud n s).rx.serial = { s.rx.serial with baudCnt := n } := rfl

@[simp] theorem setBaud_cfg (n : Nat) (s : State) : (setBaud n s).cfg = s.cfg := rfl

@[simp] theorem setBaud_sys (n : Nat) (s : State) : (setBaud n s).sys = s.sys := rfl

@[simp] theorem setBaud_env (n : Nat) (s : State) : (setBaud n s).env = s.env := rfl

/-- A baud counter that already stands there. -/
theorem setBaud_self {n : Nat} {s : State} (h : s.rx.serial.baudCnt = n) : setBaud n s = s := by
  subst h; rfl

@[simp] theorem closeWindow_serial (b : Bool) (s : State) :
    (closeWindow b s).rx.serial =
      { waitHigh := b, opened := false, sampler := [], bitCnt := 0, baudCnt := 0 } := rfl

@[simp] theorem openWindow_serial (s : State) :
    (openWindow s).rx.serial = { s.rx.serial with opened := true, sampler := [], bitCnt := 0, baudCnt := 0 } := rfl

/-- Closing a window forgets where the baud counter stood. -/
@[simp] theorem closeWindow_setBaud (b : Bool) (n : Nat) (s : State) :
    closeWindow b (setBaud n s) = closeWindow b s := rfl

/-- The end of a bit time forgets where the baud counter stood. -/
@[simp] theorem endBit_setBaud (v : Level) (n : Nat) (s : State) : endBit v (setBaud n s) = endBit v s := rfl

/-- Everything one sample can do (rule R61): a glitch closes the window, any other sample is kept. -/
theorem takeSample_cases (v : Level) (s : State) :
    (s.rx.serial.bitCnt = 0 ∧ v = true ∧ takeSample v s = closeWindow false s) ∨
    ((s.rx.serial.bitCnt ≠ 0 ∨ v = false) ∧
      takeSample v s =
        s.withRx { s.rx with serial := { s.rx.serial with sampler := s.rx.serial.sampler ++ [v] } }) := by
  unfold takeSample
  by_cases h : s.rx.serial.bitCnt = 0 <;> cases v <;> simp [h]

/-- Everything the end of a bit time can do: the next bit time begins, or the window closes and is classified. -/
theorem endBit_cases (v : Level) (s : State) :
    (s.rx.serial.bitCnt < 10 ∧
      endBit v s = .quiet (s.withRx
        { s.rx with serial := { s.rx.serial with bitCnt := s.rx.serial.bitCnt + 1, baudCnt := 0 } })) ∨
    (10 ≤ s.rx.serial.bitCnt ∧
      endBit v s =
        lineWindow (windowOf s.rx.serial.sampler)
          (closeWindow (waitsAfter (windowOf s.rx.serial.sampler) v) s)) := by
  unfold endBit
  by_cases h : s.rx.serial.bitCnt < 10
  · simp [h]
  · exact .inr ⟨by omega, by simp [h]⟩

/-- A bit time of an open window whose sample is still due and is no glitch: it is sampled and ends. -/
theorem windowBit_due {v : Level} {s : State} (ho : s.rx.serial.opened = true)
    (hl : s.rx.serial.sampler.length ≤ s.rx.serial.bitCnt) (hg : s.rx.serial.bitCnt ≠ 0 ∨ v = false) :
    windowBit v s =
      endBit v (s.withRx { s.rx with serial := { s.rx.serial with sampler := s.rx.serial.sampler ++ [v] } }) := by
  obtain ⟨h0, rfl, -⟩ | ⟨-, h⟩ := takeSample_cases v s
  · simp [h0] at hg
  · simp [windowBit, hl, h, ho]

/-- A clock of an open window before its bit time's last one and off its centre only counts. -/
theorem windowClock_counts {v : Level} {s : State} (ho : s.rx.serial.opened = true)
    (hn : s.rx.serial.baudCnt ≠ clocksPerBit s.cfg / 2) (hl : s.rx.serial.baudCnt + 1 < clocksPerBit s.cfg) :
    windowClock v s = .quiet (setBaud (s.rx.serial.baudCnt + 1) s) := by
  simp [windowClock, hn, ho, hl]

/-- Everything a high bit time between windows can do (rule R90). -/
theorem idleBit_cases (s : State) :
    (s.cfg.idleTimeout = 0 ∧ idleBit s = .quiet s) ∨
    (0 < s.cfg.idleTimeout ∧ s.rx.idleCnt + 1 = s.cfg.idleTimeout ∧ s.rx.first = false ∧ 0 < s.rx.count ∧
      idleBit s = .run .rxIdle (s.withRx { s.rx with idleCnt := s.rx.idleCnt + 1 })) ∨
    (0 < s.cfg.idleTimeout ∧
      ¬ (s.rx.idleCnt + 1 = s.cfg.idleTimeout ∧ s.rx.first = false ∧ 0 < s.rx.count) ∧
      idleBit s = .quiet (s.withRx { s.rx with idleCnt := s.rx.idleCnt + 1 })) := by
  unfold idleBit idleEnabled
  rcases Nat.eq_zero_or_pos s.cfg.idleTimeout with h | h
  · simp [h]
  · by_cases hc : s.rx.idleCnt + 1 = s.cfg.idleTimeout ∧ s.rx.first = false ∧ 0 < s.rx.count
    · obtain ⟨h1, h2, h3⟩ := hc
      refine .inr (.inl ⟨h, h1, h2, h3, ?_⟩)
      have h' : s.cfg.idleTimeout ≠ 0 := by omega
      rw [if_neg h', if_pos ⟨h1, by simp [h, h2, h3]⟩]
    · refine .inr (.inr ⟨h, hc, ?_⟩)
      have h' : s.cfg.idleTimeout ≠ 0 := by omega
      have hc' : ¬ (s.rx.idleCnt + 1 = s.cfg.idleTimeout ∧
          (decide (0 < s.cfg.idleTimeout) && !s.rx.first && decide (0 < s.rx.count)) = true) := by
        simpa [h] using hc
      simp only [h', if_false, hc']

/-! ### Encoder -/

/-- Everything a write request can do (rule R131). -/
theorem write_ok_iff {px : List Pixel} {s t : State} :
    write px s = .ok t ↔
      s.enc.dmaBusy = false ∧
      t = s.withEnc
        { s.enc with wordbuf := Memory.ofList (px.map packPixel), dmaIdx := 0, dmaBusy := true } := by
  unfold write
  cases h : s.enc.dmaBusy <;> simp [pack, setDmaBusy, State.withEnc, eq_comm]

/-- Everything a step of the transfer can do when it is enabled (rules R133 and R137). -/
theorem moveWord_ok_iff {s t : State} :
    moveWord s = .ok t ↔
      ∃ w, s.enc.dmaIdx < s.cfg.nPix ∧ Memory.read s.enc.wordbuf s.enc.dmaIdx = some w ∧
        t = s.withEnc
          { s.enc with
            fifo := s.enc.fifo ++ [w], dmaIdx := s.enc.dmaIdx + 1,
            dmaBusy := if s.enc.dmaIdx + 1 = s.cfg.nPix then false else s.enc.dmaBusy } := by
  unfold moveWord
  cases h : bufRead .wordbuf s.cfg.nPix s.enc.wordbuf s.enc.dmaIdx with
  | ok w =>
    obtain ⟨h1, h2⟩ := bufRead_ok_iff.1 h
    by_cases hl : s.enc.dmaIdx + 1 = s.cfg.nPix <;>
      simp [h1, h2, hl, transferDone, setDmaBusy, State.withEnc, eq_comm]
  | error e =>
    simp only [reduceCtorEq, false_iff, not_exists, not_and]
    intro w h1 h2
    rw [bufRead_ok_iff.2 ⟨h1, h2⟩] at h
    cases h

/-- Everything a pull can do (rule R134). -/
theorem pull_cases (s : State) :
    (∃ w ws, s.enc.fifo = w :: ws ∧ s.enc.bitsLeft = 0 ∧
      pull s = s.withEnc { s.enc with osr := w, fifo := ws, bitsLeft := 24 }) ∨
    ((s.enc.fifo = [] ∨ s.enc.bitsLeft ≠ 0) ∧ pull s = s) := by
  unfold pull
  cases hf : s.enc.fifo with
  | nil => simp
  | cons w ws =>
    by_cases hb : s.enc.bitsLeft = 0
    · simp [hb]
    · simp [hb]

/-- At a cell boundary a cell is the whole cell (rule R68). -/
@[simp] theorem cellRest_boundary (c : Config) (ph : Phase) (v : Level) : cellRest c ph 0 v = cellTicks c v := by
  simp [cellRest]

@[simp] theorem length_cellTicks (c : Config) (v : Level) : (cellTicks c v).length = c.ticksPerBit := by
  simp [cellTicks, Config.ticksPerBit]; omega

/-- The bits of a shift register go out one by one: the next bit, then those of the register shifted left. -/
theorem shiftBits_succ (w : Word) (n : Nat) (hn : n < 32) :
    shiftBits w (n + 1) = w.getLsbD 31 :: shiftBits (w <<< 1) n := by
  unfold shiftBits
  rw [List.range_succ_eq_map]
  simp only [List.map_cons, Nat.sub_zero, List.map_map, List.cons.injEq, true_and]
  apply List.map_congr_left
  intro k hk
  have hk' := List.mem_range.1 hk
  simp only [Function.comp, BitVec.getLsbD_shiftLeft]
  have h1 : 31 - k < 32 := by omega
  have h2 : ¬ 31 - k < 1 := by omega
  simp only [h1, h2, decide_true, decide_false, Bool.not_false, Bool.true_and]
  congr 1

/-! ### Render loop -/

/-- Everything RL.TAKE can do when it is enabled (rule R120). -/
theorem rlTake_ok_iff {s t : State} :
    rlTake s = .ok t ↔
      ∃ f, Memory.readBlock s.mbx.slot 0 frameLen = some f ∧
        t = (s.withMbx { slot := [], full := false }).withRl
          { s.rl with frame := Memory.ofList f, state := .map } := by
  unfold rlTake
  cases h : takeFrame s with
  | ok p =>
    obtain ⟨f, u⟩ := p
    obtain ⟨h1, rfl⟩ := takeFrame_ok_iff.1 h
    simp [h1, eq_comm]
  | error e =>
    simp only [reduceCtorEq, false_iff, not_exists, not_and]
    intro f h1
    rw [takeFrame_ok_iff.2 ⟨h1, rfl⟩] at h
    cases h

/-- Everything RL.MAP can do when it is enabled (rules R121, R122, R131). -/
theorem rlMap_ok_iff {s t : State} :
    rlMap s = .ok t ↔
      ∃ f, Memory.readBlock s.rl.frame 0 frameLen = some f ∧ s.enc.dmaBusy = false ∧
        t = (s.withRl { s.rl with pix := Memory.ofList (mapFrame s.cfg.nPix f), state := .write }).withEnc
          { s.enc with
            wordbuf := Memory.ofList ((mapFrame s.cfg.nPix f).map packPixel), dmaIdx := 0, dmaBusy := true } := by
  unfold rlMap
  cases h : bufBlock .rlFrame s.rl.frame frameLen with
  | ok f =>
    have h1 := bufBlock_ok_iff.1 h
    simp [h1, write_ok_iff]
  | error e =>
    simp only [reduceCtorEq, false_iff, not_exists, not_and]
    intro f h1
    rw [bufBlock_ok_iff.2 h1] at h
    cases h

/-- Everything RL.PUBLISH can do when it is enabled (rule R124). -/
theorem rlPublish_ok_iff {s t : State} :
    rlPublish s = .ok t ↔
      ∃ f, Memory.readBlock s.rl.frame 0 frameLen = some f ∧ t = setRlState .take (publish .render f s) := by
  unfold rlPublish
  cases h : bufBlock .rlFrame s.rl.frame frameLen with
  | ok f =>
    have h1 := bufBlock_ok_iff.1 h
    simp [h1, eq_comm]
  | error e =>
    simp only [reduceCtorEq, false_iff, not_exists, not_and]
    intro f h1
    rw [bufBlock_ok_iff.2 h1] at h
    cases h

@[simp] theorem length_mapFrame (n : Nat) (f : Frame) : (mapFrame n f).length = n := by
  simp [mapFrame]

/-! ### The step -/

/-- A step with a pending event, under legal parameters. -/
theorem step_cons {s : State} {e : Event} {es : List Event} (hl : s.cfg.legal = true)
    (h : s.env.pending = e :: es) : step s = perform (fetch e (dropEvent s)) := by
  simp [step, hl, h]

/-- A step with nothing pending changes nothing. -/
theorem step_nil {s : State} (hl : s.cfg.legal = true) (h : s.env.pending = []) : step s = .next s := by
  simp [step, hl, h]

/-- What a fetch under a fatal fault comes to, for the hidden levels: nothing. -/
theorem fetchTick_of_fatal {s : State} (h : s.sys.fatal = true) : fetchTick s = .quiet s := by
  simp [fetchTick, h]

theorem lineBit_of_fatal {s : State} (h : s.sys.fatal = true) (v : Level) : lineBit v s = .quiet s := by
  simp [lineBit, h]

theorem lineClock_of_fatal {s : State} (h : s.sys.fatal = true) (v : Level) : lineClock v s = .quiet s := by
  simp [lineClock, h]

end Sys2Proof.Machine
end

