-- ==== Sys2Proof/Laws/PerInstr.lean ====
section
/-! SUPPORT. A family of statements about the operations as syntax, one lemma per constructor: the encoding of a
well-formed operation is in the format that the opcode table's "format" column gives its row. -/

namespace Sys2Proof.Laws.TableFormat

/-- The encoding is in the row's format. -/
def Statement (i : Instr) : Prop :=
  ∀ c : Config, i.wf c = true → (encode c i).format = some i.format

theorem window_format (d : Byte) (x : Level) :
    (Code.serial (Machine.window d true true)).format = some .fChar ∧
    (Code.serial (Machine.window d true false)).format = some .fFerr ∧
    ((x || decide (d ≠ 0)) = true → (Code.serial (Machine.window d false x)).format = some .fFerr) := by
  revert d x
  decide +kernel

theorem rxArm : Statement (.rxArm) := fun _ _ => rfl
theorem rxChr (b : Byte) : Statement (.rxChr b) := fun _ _ => (window_format b true).1
theorem rxBrk : Statement (.rxBrk) := fun _ _ => rfl
theorem rxFerrStop1 (d : Byte) (x : Level) : Statement (.rxFerrStop1 d x) := fun _ h => (window_format d x).2.2 h
theorem rxFerrStop2 (d : Byte) : Statement (.rxFerrStop2 d) := fun _ _ => (window_format d true).2.1
theorem rxFull : Statement (.rxFull) := fun _ _ => rfl
theorem rxComplete (result : ReadResult) (atBreak : Bool) : Statement (.rxComplete result atBreak) := fun _ _ => rfl
theorem rxDiscard : Statement (.rxDiscard) := fun _ _ => rfl
theorem rxBuild (n : Nat) : Statement (.rxBuild n) := fun _ _ => rfl
theorem rxDeliver (n : Nat) : Statement (.rxDeliver n) := fun _ _ => rfl
theorem rxDrop (kind : ReceiveKind) (atBreak : Bool) : Statement (.rxDrop kind atBreak) := fun _ _ => rfl
theorem rxIdle : Statement (.rxIdle) := fun _ _ => rfl
theorem mbxDeposit (frame : Frame) : Statement (.mbxDeposit frame) := fun _ _ => rfl
theorem mbxTake : Statement (.mbxTake) := fun _ _ => rfl
theorem rlTake : Statement (.rlTake) := fun _ _ => rfl
theorem rlMap : Statement (.rlMap) := fun _ _ => rfl
theorem rlWrite : Statement (.rlWrite) := fun _ _ => rfl
theorem rlPublish : Statement (.rlPublish) := fun _ _ => rfl
theorem encInit : Statement (.encInit) := fun _ _ => rfl
theorem encWrite (pixels : List Pixel) : Statement (.encWrite pixels) := fun _ _ => rfl
theorem encPack (pixels : List Pixel) : Statement (.encPack pixels) := fun _ _ => rfl
theorem encDma : Statement (.encDma) := fun _ _ => rfl
theorem encDone : Statement (.encDone) := fun _ _ => rfl
theorem encPull : Statement (.encPull) := fun _ _ => rfl
theorem encCell0 : Statement (.encCell0) := fun _ _ => rfl
theorem encCell1 : Statement (.encCell1) := fun _ _ => rfl
theorem encIdle : Statement (.encIdle) := fun _ _ => rfl
theorem pubPublish (ctx : Ctx) (frame : Frame) : Statement (.pubPublish ctx frame) := fun _ _ => rfl
theorem pubPublishFail (ctx : Ctx) (frame : Frame) : Statement (.pubPublishFail ctx frame) := fun _ _ => rfl
theorem sysFault : Statement (.sysFault) := fun _ _ => rfl
theorem sysReset : Statement (.sysReset) := fun _ _ => rfl

end Sys2Proof.Laws.TableFormat
end

