-- ==== Sys2Proof/Laws/Safety.lean ====
section
/-! SUPPORT. The small lemmas of the notions that the claims speak of. -/

namespace Sys2Proof.Safety

open Sys2Proof.Machine

/-- A buffer made from a list holds it. -/
theorem holds_ofList {α : Type} (vs : List α) : holds (Memory.ofList vs) vs :=
  ⟨Memory.wf_ofList vs, by simp⟩

/-- A buffer that holds a list gives it as one block. -/
theorem readBlock_of_holds {α : Type} {m : Memory α} {vs : List α} {n : Nat} (hl : vs.length = n)
    (h : holds m vs) : Memory.readBlock m 0 n = some vs :=
  (Memory.readBlock_wf_iff h.1).2 ⟨hl, by rw [← hl]; exact h.2⟩

/-- The frame builder gives the frame of its chunk (rule R87). -/
theorem isFrameOf_padFrame (bytes : List Byte) : isFrameOf bytes (padFrame bytes) := by
  refine ⟨length_padFrame bytes, ?_⟩
  intro i hi
  simp only [padFrame, frameLen]
  by_cases h : i < bytes.length
  · rw [List.getElem?_append_left (by simp; omega)]
    simp [hi, h, List.getD]
  · rw [List.getElem?_append_right (by simp; omega)]
    have h2 : min frameLen bytes.length = bytes.length := by simp only [frameLen]; omega
    simp only [frameLen] at h2
    have h3 : i - bytes.length < 512 - bytes.length := by omega
    simp [h, h2, h3]

/-- A publish is a publish attempt (rules R150, R151). -/
theorem publishAttempt_publish (c : Ctx) (f : Frame) (s : State) : publishAttempt c f s (publish c f s) := by
  unfold publishAttempt publish
  cases h : s.env.pubReady <;> simp [publishFailure, publishSuccess, Trace.emitLog, Trace.emitPub]
  intro d hd
  exact seq_setSeq_other _ _ hd

/-- Consuming the next event leaves the events after it. -/
theorem dropEvent_eq {s : State} {e : Event} {es : List Event} (h : s.env.pending = e :: es) :
    dropEvent s = withPending s es := by
  simp [dropEvent, withPending, h]

/-- The mapping step requests the write of the very pixels it computed (rules R121, R131, R132). -/
theorem writeOk_of_rlMap {s t : State} (h : rlMap s = .ok t) : writeOk t.rl t.enc = true := by
  obtain ⟨f, -, -, rfl⟩ := rlMap_ok_iff.1 h
  simp [writeOk, Memory.ofList_map]

/-- The step that hands off the last word is the one that ends rule R39's last clause (rules R133 and R137). -/
theorem encDone_moveWord {s t : State} (h : moveWord s = .ok t) (hb : encDone s = false) (hd : encDone t = true) :
    t.enc.dmaIdx = t.cfg.nPix := by
  obtain ⟨w, -, -, rfl⟩ := moveWord_ok_iff.1 h
  by_cases hl : s.enc.dmaIdx + 1 = s.cfg.nPix <;> simp_all [encDone]

end Sys2Proof.Safety
end

