-- ==== Sys2Proof/Tests/Slice0.lean ====
section
/-! SUPPORT. Tests: what `WellFormed` refuses, every constructor's code written out from the formats of
`30_encoding.md`, one or two small checks per operation with results from `95_test_vectors.md` and the rules'
examples, and for each statement with hypotheses a state that meets them. -/

namespace Sys2Proof.Tests

-- One kernel check at a time: the memory limit of the check counts every waiting thread's stack.
set_option Elab.async false

open Sys2Proof.Machine Sys2Proof.Safety

/-! ### Small states -/

/-- The state of a next outcome. -/
def nextOf : Host.Outcome State Fault Refusal → Option State
  | .next t => some t
  | _ => none

/-- A frame by its leading bytes. -/
def frame (bytes : List Byte) : Frame := bytes ++ List.replicate (512 - bytes.length) 0

/-- A receiver with a chunk in buffer 0. -/
def rxState (c : Config) (first : Bool) (bytes : List Byte) : State :=
  let s := State.resetOf c
  s.withRx { s.rx with buf0 := Memory.ofList bytes, count := bytes.length, first := first }

/-- A receiver whose previous buffer holds a chunk. -/
def prevState (bytes : List Byte) : State :=
  let s := State.reset
  s.withRx { s.rx with buf0 := Memory.ofList bytes, active := true, first := false }

/-- A full mailbox. -/
def mbxState (f : Frame) : State := State.reset.withMbx { slot := Memory.ofList f, full := true }

/-- A render loop that owns a frame. -/
def rlState (c : Config) (st : RlState) (f : Frame) : State :=
  (State.resetOf c).withRl { state := st, frame := Memory.ofList f, pix := [] }

/-- An encoder. -/
def encState (c : Config) (f : Enc → Enc) : State := (State.resetOf c).withEnc (f (State.resetOf c).enc)

/-- A fatal block. -/
def fatalState : State := State.reset.withSys { fatal := true, runOn := 0 }

/-- A ready transport. -/
def readyState (s : State) : State := s.withEnv { s.env with pubReady := true }

/-- Two pixels and a FIFO of two (program P1). -/
def cfg2 : Config := { Config.example1 with nPix := 2, fifoDepth := 2 }

/-- One event pending. -/
def pend (s : State) (e : Event) : State := withPending s [e]

/-! ### What the well-formedness check refuses -/

theorem test_wf_ferr_all_zero : (Instr.rxFerrStop1 0 false).wf Config.example1 = false := by decide
theorem test_wf_complete : (Instr.rxComplete (.ok 514) true).wf Config.example1 = false := by decide
theorem test_wf_result : ReadResult.wf Config.example1 (.ok 514) = false := by decide
theorem test_wf_build : (Instr.rxBuild 514).wf Config.example1 = false := by decide
theorem test_wf_deliver : (Instr.rxDeliver 514).wf Config.example1 = false := by decide
theorem test_wf_frame : Frame.wf (List.replicate 511 0) = false := by decide +kernel
theorem test_wf_deposit : (Instr.mbxDeposit (List.replicate 513 0)).wf Config.example1 = false := by decide +kernel
theorem test_wf_init : Instr.encInit.wf { Config.example1 with fSys := 2399999 } = false := by decide
theorem test_wf_write : (Instr.encWrite []).wf Config.example1 = false := by decide
theorem test_wf_pack : (Instr.encPack [⟨0, 0, 0⟩, ⟨0, 0, 0⟩]).wf Config.example1 = false := by decide
theorem test_wf_publish : (Instr.pubPublish .render []).wf Config.example1 = false := by decide
theorem test_wf_publish_fail : (Instr.pubPublishFail .receive []).wf Config.example1 = false := by decide
theorem test_wf_accepts : (Instr.rxFerrStop1 0 true).wf Config.example1 = true := by decide

/-! ### Every constructor from its code, written out (30_encoding.md; 95_test_vectors.md sections 2.1, 2.5, 2.6).
A window's bits stand here with `s[10]` first and `s[0]` last. -/

/-- Decoding under the parameters of reset. -/
def dec (k : Code) : Except Reject Instr := decode Config.example1 k

/-- V-CH-1: `0 00001000 11`. -/
theorem test_decode_chr : dec (.serial 0b11000100000) = .ok (.rxChr 0x10) := by rfl
/-- V-CH-10: `0 00000001 11`. -/
theorem test_decode_chr_msb : dec (.serial 0b11100000000) = .ok (.rxChr 0x80) := by rfl
/-- V-CH-12. -/
theorem test_decode_brk : dec (.serial 0b00000000000) = .ok .rxBrk := by rfl
/-- V-CH-14: `0 00001000 01`. -/
theorem test_decode_ferr_stop1 : dec (.serial 0b10000100000) = .ok (.rxFerrStop1 0x10 true) := by rfl
/-- V-CH-15: `0 00000000 01`. -/
theorem test_decode_ferr_zero : dec (.serial 0b10000000000) = .ok (.rxFerrStop1 0 true) := by rfl
/-- V-CH-13: `0 00001000 10`. -/
theorem test_decode_ferr_stop2 : dec (.serial 0b01000100000) = .ok (.rxFerrStop2 0x10) := by rfl
/-- V-CH-16. -/
theorem test_decode_glitch : dec (.serial 1) = .error .glitch := by rfl
/-- V-ENC-8. -/
theorem test_decode_pack : dec (.words [0x34125600]) = .ok (.encPack [⟨0x12, 0x34, 0x56⟩]) := by rfl
/-- Rule R68: `100` and `110`. -/
theorem test_decode_cell0 : dec (.cell [true, false, false]) = .ok .encCell0 := by rfl
theorem test_decode_cell1 : dec (.cell [true, true, false]) = .ok .encCell1 := by rfl
/-- V-ENC-12: `11111000` with (T1, T2, T3) = (2, 3, 3). -/
theorem test_decode_cell1_long :
    decode { Config.example1 with t1 := 2, t2 := 3, t3 := 3 }
      (.cell [true, true, true, true, true, false, false, false]) = .ok .encCell1 := by rfl
/-- V-DIV-1. -/
theorem test_decode_init : dec (.divisor 0x003415) = .ok .encInit := by decide +kernel
/-- V-DIV-7, the greatest legal value. -/
theorem test_decode_init_max :
    decode { Config.example1 with fSys := 157286391, fBit := 800 } (.divisor 0xFFFFFF) = .ok .encInit := by rfl
/-- Rule R8: `pub_frame` with channel 1 in bits 7:0 and channel 2 in bits 15:8. -/
theorem test_decode_publish : dec (.pubmsg .render 0x2010) = .ok (.pubPublish .render (frame [0x10, 0x20])) := by
  decide +kernel

/-- The rows of format OP have no bits; their codes are the model's (log entry 6). -/
theorem test_decode_op :
    dec (.op 0 []) = .ok .rxArm ∧ dec (.op 5 []) = .ok .rxFull ∧
    dec (.op 6 [0, 3, 1]) = .ok (.rxComplete (.ok 3) true) ∧
    dec (.op 6 [1, 2, 0]) = .ok (.rxComplete (.err .overrun) false) ∧ dec (.op 7 []) = .ok .rxDiscard ∧
    dec (.op 8 [3]) = .ok (.rxBuild 3) ∧ dec (.op 9 [513]) = .ok (.rxDeliver 513) ∧
    dec (.op 10 [1, 0]) = .ok (.rxDrop .framing false) ∧ dec (.op 11 []) = .ok .rxIdle ∧
    dec (.op 13 []) = .ok .mbxTake ∧ dec (.op 14 []) = .ok .rlTake ∧ dec (.op 15 []) = .ok .rlMap ∧
    dec (.op 16 []) = .ok .rlWrite ∧ dec (.op 17 []) = .ok .rlPublish ∧
    dec (.op 19 [1, 2, 3]) = .ok (.encWrite [⟨1, 2, 3⟩]) ∧ dec (.op 21 []) = .ok .encDma ∧
    dec (.op 22 []) = .ok .encDone ∧ dec (.op 23 []) = .ok .encPull ∧ dec (.op 26 []) = .ok .encIdle ∧
    dec (.op 29 []) = .ok .sysFault ∧ dec (.op 30 []) = .ok .sysReset := by decide +kernel

theorem test_decode_op_frames :
    dec (.op 12 (16 :: List.replicate 511 0)) = .ok (.mbxDeposit (frame [0x10])) ∧
    dec (.op 28 (1 :: 16 :: List.replicate 511 0)) = .ok (.pubPublishFail .render (frame [0x10])) := by
  decide +kernel

/-- Bad codes are rejected by name. -/
theorem test_decode_rejects :
    dec (.words [0x34125601]) = .error .lowByte ∧ dec (.words []) = .error .wordCount ∧
    dec (.cell [true, true, true]) = .error .badCell ∧ dec (.divisor 0) = .error .badDivisor ∧
    dec (.op 1 []) = .error .noSuchRow ∧ dec (.op 9 [514]) = .error .badOperands ∧
    dec (.raw 8 9) = .error .noFormat := by decide +kernel

/-- A table word of 32 bits is a transfer word, and a step from reset runs it. -/
theorem test_table_word : decodeTableWord 32 0x10203000 = some (.encPack [⟨0x20, 0x10, 0x30⟩]) := by decide +kernel
theorem test_table_window : decodeTableWord 16 0b11000100000 = some (.rxChr 0x10) := by decide +kernel
theorem test_fetch_word :
    (nextOf (step (State.reset.withFetchWord 32 0x10203000))).map (·.enc.wordbuf) = some [(0, 0x10203000)] := by
  decide +kernel

/-! ### RX (rules R80 to R90) -/

theorem test_rx_arm : (nextOf (exec .rxArm (rxState Config.example1 true [1, 2]))).map (·.rx.count) = some 0 := by
  decide +kernel

/-- Rule R81's example: `count = 2`, `Chr(0x30)`. -/
theorem test_rx_chr :
    (nextOf (exec (.rxChr 0x30) (rxState Config.example1 false [0x10, 0x20]))).map
      (fun t => (t.rx.buf0, t.rx.count)) = some ([(0, 0x10), (1, 0x20), (2, 0x30)], 3) := by decide +kernel

/-- Program P5, byte 513. -/
theorem test_rx_chr_full :
    (nextOf (exec (.rxChr 0xAA) (rxState Config.example1 false (List.replicate 512 0xAA)))).map
      (fun t => (Memory.read t.rx.buf0 512, t.rx.prevLen, t.rx.count, t.rx.first, t.trace.log)) =
    some (some 0xAA, 513, 0, true, [.receive .overrun]) := by decide +kernel

/-- V-RX-6: a first chunk is discarded. -/
theorem test_rx_brk_first :
    (nextOf (exec .rxBrk (rxState Config.example1 true [1, 2]))).map
      (fun t => (t.rx.first, t.rx.active, t.rx.prevLen, t.mbx.full, t.trace.log)) =
    some (false, true, 2, false, []) := by decide +kernel

/-- V-RX-3: the chunk is delivered, zero-padded. -/
theorem test_rx_brk :
    (nextOf (exec .rxBrk (rxState Config.example1 false [0x10, 0x20, 0x30]))).map
      (fun t => (mailboxFrame t, t.rx.active, t.rx.count, t.rx.prevLen)) =
    some (some (frame [0x10, 0x20, 0x30]), true, 0, 3) := by decide +kernel

/-- V-ERR-1. -/
theorem test_rx_ferr_stop1 :
    (nextOf (exec (.rxFerrStop1 0x10 true) (rxState Config.example1 false [1, 2]))).map
      (fun t => (t.trace.log, t.rx.first, t.rx.count, t.rx.active, t.mbx.full)) =
    some ([.receive .framing], true, 0, true, false) := by decide +kernel

/-- V-RX-9: without resynchronisation the flag stays 0. -/
theorem test_rx_ferr_stop2 :
    (nextOf (exec (.rxFerrStop2 0x10) (rxState { Config.example1 with resyncOnError := false } false [1, 2]))).map
      (fun t => (t.trace.log, t.rx.first)) = some ([.receive .framing], false) := by decide +kernel

theorem test_rx_full :
    (nextOf (exec .rxFull (rxState Config.example1 false [1]))).map (fun t => (t.trace.log, t.rx.first, t.rx.count)) =
    some ([.receive .overrun], true, 0) := by decide +kernel

/-- Rule R85's example. -/
theorem test_rx_complete :
    (nextOf (exec (.rxComplete (.ok 3) true) (rxState Config.example1 false [1, 2, 3]))).map
      (fun t => (t.rx.active, t.rx.count, t.rx.prevLen, mailboxFrame t)) =
    some (true, 0, 3, some (frame [1, 2, 3])) := by decide +kernel

/-- V-RX-13: an error at a break does not set the flag. -/
theorem test_rx_complete_err :
    (nextOf (exec (.rxComplete (.err .breakWithoutData) true) (rxState Config.example1 false []))).map
      (fun t => (t.rx.first, t.trace.log)) = some (false, [.receive .breakWithoutData]) := by decide +kernel

theorem test_rx_discard :
    (nextOf (exec .rxDiscard State.reset)).map (fun t => (t.rx.first, t.mbx.full)) = some (false, false) := by
  decide +kernel

/-- Rule R87's example. -/
theorem test_rx_build :
    (nextOf (exec (.rxBuild 3) (prevState [0x10, 0x20, 0x30]))).map (·.ret) =
    some (some (.frame (frame [0x10, 0x20, 0x30]))) := by decide +kernel

/-- Rule R88's example. -/
theorem test_rx_deliver :
    (nextOf (exec (.rxDeliver 3) (prevState [0x40, 0x50, 0x60]))).map (fun t => (mailboxFrame t, t.trace.pub)) =
    some (some (frame [0x40, 0x50, 0x60]), []) := by decide +kernel

/-- Program P6, the second break: not ready, the deposit still happens. -/
theorem test_rx_deliver_publish :
    (nextOf (exec .rxBrk (rxState { Config.example1 with pubSite := .rx } false [0x11]))).map
      (fun t => (t.trace.log, mailboxFrame t, t.pub.seqReceive)) =
    some ([.publishError], some (frame [0x11]), 0) := by decide +kernel

/-- Rule R89's example. -/
theorem test_rx_drop :
    (nextOf (exec (.rxDrop .framing false) (rxState Config.example1 false []))).map
      (fun t => (t.trace.log, t.rx.first)) = some ([.receive .framing], true) := by decide +kernel

/-- V-RX-14 at `IDLE`. -/
theorem test_rx_idle :
    (nextOf (exec .rxIdle (rxState { Config.example1 with idleTimeout := 32 } false [0x10, 0x20, 0x30]))).map
      (fun t => (mailboxFrame t, t.rx.first, t.rx.count)) =
    some (some (frame [0x10, 0x20, 0x30]), true, 0) := by decide +kernel

/-- The feature is absent in this hardware. -/
theorem test_rx_idle_absent :
    nextOf (exec .rxIdle (rxState Config.example1 false [1])) = some (rxState Config.example1 false [1]) := by
  decide +kernel

/-! ### The serial input below the line symbol (rules R17, R60 to R63, R90), with five clocks to a bit time -/

/-- Five clocks to a bit time and a timeout of two bit times. -/
def cfgLine : Config := { Config.example1 with fSys := 1250000, fBit := 1000, idleTimeout := 2 }

/-- A window in progress: its samples, how many bit times are over, and the clock of the current one. -/
def windowState (bits : List Level) (bitCnt clk : Nat) : State :=
  let s := rxState cfgLine false []
  s.withRx
    { s.rx with
      idleCnt := 1
      serial := { waitHigh := false, opened := true, sampler := bits, bitCnt := bitCnt, baudCnt := clk } }

/-- A byte received and one idle bit time counted, at a clock of the second. -/
def idleState (clk : Nat) : State :=
  let s := rxState cfgLine false [5]
  s.withRx
    { s.rx with
      idleCnt := 1
      serial := { waitHigh := false, opened := false, sampler := [], bitCnt := 0, baudCnt := clk } }

/-- V-CH-1's samples. -/
def samples10 : List Level := [false, false, false, false, false, true, false, false, false, true, true]

/-- Rule R61: the window is eleven bit times long, so a character ends with the last clock of its second stop bit and
not at its centre, and from there rule R90's time counts. -/
theorem test_line_character_ends_with_its_window :
    (nextOf (step (pend (windowState (samples10.take 10) 10 2) (.lineClk true)))).map
      (fun t => (t.rx.count, t.rx.serial.opened, t.rx.serial.baudCnt)) = some (0, true, 3) ∧
    (nextOf (step (pend (windowState samples10 10 4) (.lineClk true)))).map
      (fun t => (t.rx.buf0, t.rx.count, t.rx.serial.opened, t.rx.serial.baudCnt, t.rx.idleCnt)) =
    some ([(0, 0x10)], 1, false, 0, 0) := by decide +kernel

/-- Rule R90: `Idle` is produced with the last clock of the last of its bit times, not before. -/
theorem test_line_idle_is_due_after_whole_bit_times :
    (nextOf (step (pend (idleState 3) (.lineClk true)))).map (fun t => (t.rx.count, t.mbx.full)) =
      some (1, false) ∧
    (nextOf (step (pend (idleState 4) (.lineClk true)))).map (fun t => (mailboxFrame t, t.rx.first)) =
      some (some (frame [5]), true) := by decide +kernel

/-- V-CH-16: a start sample that is high gives no symbol. -/
theorem test_line_glitch :
    (nextOf (step (pend (windowState [] 0 2) (.lineClk true)))).map
      (fun t => (t.rx.serial.opened, t.rx.count, t.trace.log)) = some (false, 0, []) := by decide +kernel

/-- V-CH-13, bit level: a low second stop bit is a framing error, and the line is awaited high. -/
theorem test_line_framing_error :
    (nextOf (step (pend (windowState (samples10.take 10) 10 0) (.lineBit false)))).map
      (fun t => (t.trace.log, t.rx.serial.waitHigh)) = some ([.receive .framing], true) := by decide +kernel

/-! ### MBX and RL (rules R110, R111, R120 to R124) -/

theorem test_mbx_deposit :
    (nextOf (exec (.mbxDeposit (frame [2])) (mbxState (frame [1])))).map mailboxFrame =
    some (some (frame [2])) := by decide +kernel

theorem test_mbx_take :
    (nextOf (exec .mbxTake (mbxState (frame [7])))).map (fun t => (t.ret, t.mbx.full)) =
    some (some (.frame (frame [7])), false) := by decide +kernel

/-- V-MBX-3. -/
theorem test_mbx_take_waits : nextOf (exec .mbxTake State.reset) = some State.reset := by decide +kernel

/-- Program P1, step 6. -/
theorem test_rl_take :
    (nextOf (exec .rlTake (mbxState (frame [0x10, 0x20, 0x30])))).map
      (fun t => (t.rl.state, Memory.readBlock t.rl.frame 0 512, t.mbx.full)) =
    some (.map, some (frame [0x10, 0x20, 0x30]), false) := by decide +kernel

/-- Program P1, step 7. -/
theorem test_rl_map :
    (nextOf (exec .rlMap (rlState cfg2 .map (frame [0x10, 0x20, 0x30])))).map
      (fun t => (t.rl.pix, t.enc.wordbuf, t.enc.dmaIdx, t.enc.dmaBusy, t.rl.state)) =
    some ([(0, ⟨0x20, 0x10, 0x30⟩), (1, ⟨0, 0, 0⟩)], [(0, 0x10203000), (1, 0)], 0, true, .write) := by
  decide +kernel

/-- V-RL-5 and V-RL-6: the last whole triple, and a pixel past the frame. -/
theorem test_map_pixel :
    mapPixel ((List.range 512).map (BitVec.ofNat 8)) 169 = ⟨0xFC, 0xFB, 0xFD⟩ ∧
    mapPixel (List.replicate 512 0xFF) 170 = ⟨0, 0, 0⟩ := by decide +kernel

theorem test_rl_write :
    (nextOf (exec .rlWrite (rlState Config.example1 .write (frame [])))).map (·.rl.state) = some .take ∧
    (nextOf (exec .rlWrite (rlState { Config.example1 with pubSite := .rl } .write (frame [])))).map (·.rl.state) =
      some .publish := by decide +kernel

theorem test_rl_write_waits :
    (nextOf (exec .rlWrite (setDmaBusy (rlState Config.example1 .write (frame [])) true))).map (·.rl.state) =
    some .write := by decide +kernel

/-- Rule R124's example. -/
theorem test_rl_publish :
    (nextOf (exec .rlPublish
      ((readyState (rlState Config.example1 .publish (frame [9]))).withPub { seqReceive := 0, seqRender := 4 }))).map
      (fun t => (t.trace.pub, t.pub, t.rl.state)) =
    some ([⟨4, frame [9]⟩], ⟨0, 5⟩, .take) := by decide +kernel

/-! ### ENC (rules R130 to R138) -/

/-- V-DIV-1: INT 52, FRAC 21. -/
theorem test_enc_init :
    (nextOf (exec .encInit State.reset)).map
      (fun t => (t.enc.clkdiv, divisorInt t.enc.clkdiv, divisorFrac t.enc.clkdiv, t.sys.fatal)) =
    some (13333, 52, 21, false) := by decide +kernel

/-- V-DIV-6. -/
theorem test_enc_init_fault :
    (nextOf (exec .encInit ((State.resetOf { Config.example1 with fSys := 2399999 }).withSys ⟨false, 0⟩))).map
      (fun t => (t.enc.clkdiv, t.sys.fatal)) = some (255, true) := by decide +kernel

/-- Rule R131's example. -/
theorem test_enc_write :
    (nextOf (exec (.encWrite [⟨0x20, 0x10, 0x30⟩]) State.reset)).map
      (fun t => (t.enc.wordbuf, t.enc.dmaIdx, t.enc.dmaBusy)) = some ([(0, 0x10203000)], 0, true) := by
  decide +kernel

/-- V-ENC-9. -/
theorem test_enc_pack :
    (nextOf (exec (.encPack [⟨0x80, 0x01, 0xA5⟩]) State.reset)).map (·.enc.wordbuf) = some [(0, 0x0180A500)] := by
  decide +kernel

/-- Rule R133's example. -/
theorem test_enc_dma :
    (nextOf (exec .encDma (encState cfg2 fun e =>
      { e with wordbuf := [(0, 0x100), (1, 0x200)], dmaBusy := true }))).map
      (fun t => (t.enc.fifo, t.enc.dmaIdx, t.enc.dmaBusy)) = some ([0x100], 1, true) := by decide +kernel

/-- Rule R137's example. -/
theorem test_enc_dma_done :
    (nextOf (exec .encDma (encState cfg2 fun e =>
      { e with wordbuf := [(0, 0x100), (1, 0x200)], dmaBusy := true, dmaIdx := 1 }))).map
      (fun t => (t.enc.fifo, t.enc.dmaIdx, t.enc.dmaBusy)) = some ([0x200], 2, false) := by decide +kernel

theorem test_enc_done :
    (nextOf (exec .encDone (encState cfg2 fun e => { e with dmaBusy := true, dmaIdx := 2 }))).map
      (fun t => (t.enc.dmaBusy, t.enc.dmaIdx)) = some (false, 2) := by decide +kernel

/-- Rule R134's example. -/
theorem test_enc_pull :
    (nextOf (exec .encPull (encState cfg2 fun e => { e with fifo := [0x10203000] }))).map
      (fun t => (t.enc.osr, t.enc.bitsLeft, t.enc.fifo)) = some (0x10203000, 24, []) := by decide +kernel

/-- V-ENC-13, first half. -/
theorem test_enc_cell0 :
    (nextOf (exec .encCell0 (encState cfg2 fun e => { e with osr := 0x10203000, bitsLeft := 24 }))).map
      (fun t => (t.trace.ledBits, t.trace.ledTicks, t.enc.osr, t.enc.bitsLeft)) =
    some ([false], [true, false, false], 0x20406000, 23) := by decide +kernel

/-- V-ENC-13, second half. -/
theorem test_enc_cell1 :
    (nextOf (exec .encCell1 (encState cfg2 fun e => { e with osr := 0x80000000, bitsLeft := 1 }))).map
      (fun t => (t.trace.ledBits, t.trace.ledTicks, t.enc.osr, t.enc.bitsLeft)) =
    some ([true], [true, true, false], 0, 0) := by decide +kernel

theorem test_enc_idle :
    (nextOf (exec .encIdle State.reset)).map (fun t => (t.trace.ledBits, t.trace.ledTicks, t.enc.led)) =
    some ([], [false], false) := by decide +kernel

/-! ### PUB and SYS (rules R150, R151, R165, R190) -/

/-- V-PUB-4. -/
theorem test_pub_publish :
    (nextOf (exec (.pubPublish .render (frame [3]))
      ((readyState State.reset).withPub { seqReceive := 5, seqRender := 0xFFFFFFFF }))).map
      (fun t => (t.trace.pub, t.pub, t.ret)) =
    some ([⟨0xFFFFFFFF, frame [3]⟩], ⟨5, 0⟩, some (.published true)) := by decide +kernel

/-- V-PUB-2. -/
theorem test_pub_publish_fail :
    (nextOf (exec (.pubPublishFail .render (frame [3])) (State.reset.withPub ⟨0, 7⟩))).map
      (fun t => (t.trace.pub, t.trace.log, t.pub)) = some ([], [.publishError], ⟨0, 7⟩) := by decide +kernel

theorem test_sys_fault :
    (nextOf (exec .sysFault State.reset)).map (fun t => (t.sys.fatal, t.trace.fatal, t.trace.log)) =
    some (true, [.hardwareFault], [.hardwareFault]) := by decide +kernel

/-- V-ERR-7. -/
theorem test_sys_reset : nextOf (exec .sysReset fatalState) = some State.reset := by decide +kernel

/-- V-ERR-6. -/
theorem test_fatal_ignores_line : nextOf (exec (.rxChr 1) fatalState) = some fatalState := by decide +kernel

/-- Rule R161's codes. -/
theorem test_log_code :
    [LogEntry.receive .framing, .receive .overrun, .receive .breakWithoutData, .publishError, .hardwareFault].map
      logCode = [1, 2, 3, 4, 7] := by decide

/-- V-ERR-4 on one word: of the bits of a word in the shift register, the rest may still go out, then nothing. -/
theorem test_run_on :
    (nextOf (Sys2Proof.core.run 3 (withPending (encState cfg2 fun e => { e with osr := 0x80000000, bitsLeft := 1 })
      [.encFault, .runOn, .runOn]))).map (fun t => (t.trace.ledBits, t.sys.fatal)) = some ([true], true) := by
  decide +kernel

/-! ### States that meet the hypotheses of the statements -/

/-- The invariant from its computable parts. -/
def invBool (s : State) : Bool :=
  s.cfg.legal && rxOk s.cfg s.rx && mbxOk s.mbx && rlOk s.cfg s.rl && dmaOk s.cfg s.rl.state s.enc &&
  writeOk s.rl s.enc && encOk s.cfg s.enc && tickOk s.cfg s.enc && (s.sys.fatal || dividerOk s.cfg s.enc) && pubOk s.cfg s.pub &&
  sysOk s.sys s.trace

theorem inv_of_invBool {s : State} (h : invBool s = true) : Inv s := by
  simp only [invBool, Bool.and_eq_true, Bool.or_eq_true] at h
  obtain ⟨⟨⟨⟨⟨⟨⟨⟨⟨⟨h1, h2⟩, h3⟩, h4⟩, h5⟩, h6⟩, h7⟩, h8⟩, h9⟩, h10⟩, h11⟩ := h
  exact ⟨h1, h2, h3, h4, h5, h6, h7, h8, h9, h10, h11⟩

/-- A receiver that looks for a falling edge. -/
def listening (s : State) : State := s.withRx { s.rx with serial := { s.rx.serial with waitHigh := false } }

/-- A word in the shift register. -/
def shiftState (w : Word) (n : Nat) : State := encState Config.example1 fun e => { e with osr := w, bitsLeft := n }

/-- The render loop with a frame to map, a word still in the shift register and one event pending. -/
def mapState : State :=
  pend ((shiftState 0x10203000 24).withRl { state := .map, frame := Memory.ofList (frame [1, 2, 3]), pix := [] })
    (.run .rl)

theorem test_witness_DecodeOfEncodeIsTheOperation :
    Config.example1.legal = true ∧ (Instr.encPack [⟨1, 2, 3⟩]).wf Config.example1 = true ∧
    (Instr.rxFerrStop1 0 true).wf Config.example1 = true ∧
    (Instr.rxComplete (.ok 513) false).wf Config.example1 = true ∧ Instr.encInit.wf Config.example1 = true := by
  decide +kernel

theorem test_witness_EncodeOfDecode_and_DecodedOperation :
    decode Config.example1 (.words [0xFFFFFF00]) = .ok (.encPack [⟨0xFF, 0xFF, 0xFF⟩]) := by decide +kernel

theorem test_witness_StepRunsTheDecodedCall :
    (pend State.reset (.call (.op 14 []))).cfg.legal = true ∧
    (pend State.reset (.call (.op 14 []))).env.pending = [.call (.op 14 [])] ∧
    decode (pend State.reset (.call (.op 14 []))).cfg (.op 14 []) = .ok .rlTake := by decide +kernel

theorem test_witness_StepSelectsTheOperation :
    Config.example1.legal = true ∧
    [.take, .map, .write, .publish].all (fun st =>
      let s := pend (rlState Config.example1 st []) (.run .rl)
      s.cfg.legal && decide (s.env.pending = [.run .rl]) && decide (s.rl.state = st)) = true ∧
    (pend State.reset (.run .dma)).env.pending = [.run .dma] ∧
    (State.reset.enc.bitsLeft = 0 ∧ State.reset.enc.fifo = []) ∧
    (let s := encState Config.example1 fun e => { e with fifo := [0] }
     s.enc.bitsLeft = 0 ∧ s.enc.fifo ≠ []) ∧
    (0 < (shiftState 0x7FFFFF00 1).enc.bitsLeft ∧ (shiftState 0x7FFFFF00 1).enc.osr.getLsbD 31 = false) ∧
    (0 < (shiftState 0x80000000 24).enc.bitsLeft ∧ (shiftState 0x80000000 24).enc.osr.getLsbD 31 = true) ∧
    (pend State.reset .idle).env.pending = [.idle] ∧ (pend State.reset .encFault).env.pending = [.encFault] ∧
    (pend State.reset .rst).env.pending = [.rst] := by decide +kernel

theorem test_witness_StepWaitsAndRefuses :
    State.reset.cfg.legal = true ∧ State.reset.env.pending = [] ∧
    (State.resetOf { Config.example1 with nPix := 0 }).cfg.legal = false ∧
    decode (pend State.reset (.call (.serial 1))).cfg (.serial 1) = .error .glitch ∧
    decode (pend State.reset (.call (.words [1]))).cfg (.words [1]) = .error .lowByte := by decide +kernel

theorem test_witness_WindowsAreClassified :
    (pend State.reset (.window 1)).cfg.legal = true ∧ (pend State.reset (.window 1)).env.pending = [.window 1] ∧
    (0b00000000001#11).getLsbD 0 = true ∧
    ((0b11000000000#11).getLsbD 0 = false ∧ (0b11000000000#11).getLsbD 9 = true ∧
      (0b11000000000#11).getLsbD 10 = true) ∧
    (∀ i < 11, (0#11).getLsbD i = false) ∧
    ((0b10000000000#11).getLsbD 0 = false ∧ (0b10000000000#11).getLsbD 9 = false ∧
      ∃ i < 11, (0b10000000000#11).getLsbD i = true) ∧
    ((0b01000000000#11).getLsbD 0 = false ∧ (0b01000000000#11).getLsbD 10 = false ∧
      ∃ i < 11, (0b01000000000#11).getLsbD i = true) := by decide +kernel

theorem test_witness_ElevenBitTimesAreTheWindow :
    let w : BitVec 11 := 0b11000100000
    let s := withPending (listening State.reset) ((List.range 11).map (fun i => Event.lineBit (w.getLsbD i)) ++ [.rst])
    s.cfg.legal = true ∧ s.sys.fatal = false ∧ s.rx.serial.waitHigh = false ∧ s.rx.serial.opened = false ∧
    w.getLsbD 0 = false ∧
    s.env.pending = (List.range 11).map (fun i => Event.lineBit (w.getLsbD i)) ++ [.rst] := by decide +kernel

/-- Waiting for a high line; a glitch at the clock and at the bit level; a high bit time between windows, without the
timeout, with `Idle` due, and with it not due. -/
theorem test_witness_LineWaitsForHighAfterBreak :
    (let s := pend State.reset (.lineBit true)
     s.cfg.legal = true ∧ s.sys.fatal = false ∧ s.rx.serial.waitHigh = true ∧ s.env.pending = [.lineBit true]) ∧
    (let s := pend (windowState [] 0 2) (.lineClk true)
     s.cfg.legal = true ∧ s.sys.fatal = false ∧ s.rx.serial.waitHigh = false ∧ s.rx.serial.opened = true ∧
      s.rx.serial.bitCnt = 0 ∧ s.env.pending = [.lineClk true] ∧ s.rx.serial.baudCnt = clocksPerBit s.cfg / 2 ∧
      s.rx.serial.sampler = []) ∧
    (let s := pend (listening State.reset) (.lineBit true)
     s.rx.serial.waitHigh = false ∧ s.rx.serial.opened = false ∧ s.cfg.idleTimeout = 0) ∧
    (let s := pend (idleState 0) (.lineBit true)
     s.cfg.legal = true ∧ s.sys.fatal = false ∧ s.rx.serial.waitHigh = false ∧ s.rx.serial.opened = false ∧
      0 < s.cfg.idleTimeout ∧ s.rx.idleCnt + 1 = s.cfg.idleTimeout ∧ s.rx.first = false ∧ 0 < s.rx.count) ∧
    (let s := (idleState 0).withRx { (idleState 0).rx with idleCnt := 2 }
     ¬ (s.rx.idleCnt + 1 = s.cfg.idleTimeout)) := by decide +kernel

/-- The accumulator below and at the divisor; five clocks to a serial bit, between windows and in the last bit time of
one; one clock to a serial bit; and the wait for a high line. -/
theorem test_witness_ClockDividersDriveTheirLevels :
    let s := pend (encState Config.example1 fun e => { e with divAcc := 13076 }) .encClk
    let u := pend (encState Config.example1 fun e => { e with divAcc := 13077 }) .encClk
    (s.cfg.legal = true ∧ s.sys.fatal = false ∧ 256 ≤ s.enc.clkdiv.toNat ∧ s.enc.divAcc < s.enc.clkdiv.toNat) ∧
    s.enc.divAcc + 256 < s.enc.clkdiv.toNat ∧
    (u.enc.divAcc < u.enc.clkdiv.toNat ∧ u.enc.clkdiv.toNat ≤ u.enc.divAcc + 256) ∧
    ([idleState 0, windowState (samples10.take 10) 10 0, listening (State.resetOf { cfgLine with fSys := 499999 })].all
      fun x =>
        let y := withPending x (List.replicate (clocksPerBit x.cfg) (.lineClk true) ++ [.rst])
        y.cfg.legal && !y.rx.serial.waitHigh && decide (y.rx.serial.baudCnt = 0) &&
        (!y.rx.serial.opened || decide (y.rx.serial.sampler.length ≤ y.rx.serial.bitCnt)) &&
        !(y.rx.serial.opened && decide (y.rx.serial.bitCnt = 0))) = true ∧
    (clocksPerBit cfgLine = 5 ∧ clocksPerBit { cfgLine with fSys := 499999 } = 1) ∧
    State.reset.rx.serial.waitHigh = true := by decide +kernel

theorem test_witness_ResetStatements :
    divisorLegal fatalState.cfg = true ∧
    divisorLegal (State.resetOf { Config.example1 with fSys := 2399999 }).cfg = false ∧
    divisorLegal (State.resetOf { Config.example1 with fSys := 157286400, fBit := 800 }).cfg = false ∧
    Config.example1.legal = true ∧ { Config.example1 with fSys := 2399999 }.legal = true := by decide +kernel

/-- For RX.ARM, RX.FERR, RX.FULL, RX.DISCARD, RX.DROP, ENC.PACK, ENC.DONE and SYS.FAULT: a running block. -/
theorem test_witness_running :
    State.reset.sys.fatal = false ∧ [(⟨1, 2, 3⟩ : Pixel)].length = State.reset.cfg.nPix := by decide +kernel

/-- One byte below a full buffer, and the byte before that. -/
theorem test_witness_RxChrStoresTheByte :
    let s := rxState Config.example1 false (List.replicate 511 0)
    let u := rxState Config.example1 true (List.replicate 512 0)
    s.sys.fatal = false ∧ s.rx.count < s.cfg.rxCap ∧ s.rx.count + 1 ≠ s.cfg.rxCap ∧
    u.sys.fatal = false ∧ u.rx.count < u.cfg.rxCap ∧ u.rx.count + 1 = u.cfg.rxCap := by decide +kernel

theorem test_witness_RxBrkEndsTheChunk :
    (let s := rxState Config.example1 true []
     s.sys.fatal = false ∧ s.rx.first = true) ∧
    (let s := rxState { Config.example1 with emptyIsError := true } false []
     s.sys.fatal = false ∧ s.rx.first = false ∧ s.rx.count = 0 ∧ s.cfg.emptyIsError = true) ∧
    (let s := rxState { Config.example1 with emptyIsError := true } false [7]
     s.rx.first = false ∧ s.rx.count ≠ 0 ∧ [(7 : Byte)].length = s.rx.count ∧
      holds (s.rx.buf s.rx.active) [7]) ∧
    (let s := rxState Config.example1 false []
     s.rx.first = false ∧ s.cfg.emptyIsError = false ∧ ([] : List Byte).length = s.rx.count ∧
      holds (s.rx.buf s.rx.active) []) := by
  refine ⟨by decide +kernel, by decide +kernel, ⟨rfl, ?_, rfl, holds_ofList _⟩, ⟨rfl, rfl, rfl, holds_ofList _⟩⟩
  decide +kernel

theorem test_witness_RxCompleteEndsTheRead :
    State.reset.sys.fatal = false ∧ State.reset.rx.first = true ∧
    (let s := rxState Config.example1 false (List.replicate 512 1)
     s.sys.fatal = false ∧ s.rx.first = false ∧ (List.replicate 512 (1 : Byte)).length = min 513 512 ∧
      holds (s.rx.buf s.rx.active) (List.replicate 512 1)) :=
  ⟨rfl, rfl, rfl, rfl, by decide +kernel, holds_ofList _⟩

theorem test_witness_RxBuild_and_RxDeliver :
    let s := prevState [1, 2, 3]
    s.sys.fatal = false ∧ [(1 : Byte), 2, 3].length = min 3 512 ∧ holds (s.rx.buf (!s.rx.active)) [1, 2, 3] :=
  ⟨rfl, rfl, holds_ofList _⟩

theorem test_witness_RxBuildIgnoresStaleBytes :
    let s := prevState [1, 2, 3]
    let u := prevState [1, 2, 4]
    s.sys.fatal = false ∧ u.sys.fatal = false ∧ Memory.wf (s.rx.buf (!s.rx.active)) = true ∧
    Memory.wf (u.rx.buf (!u.rx.active)) = true ∧
    (∀ i < min 2 512, Memory.read (s.rx.buf (!s.rx.active)) i = Memory.read (u.rx.buf (!u.rx.active)) i) ∧
    (nextOf (exec (.rxBuild 2) s)).isSome = true := by decide +kernel

theorem test_witness_RxIdleDeliversWhenEnabled :
    (let s := rxState { Config.example1 with idleTimeout := 1 } false [5]
     s.sys.fatal = false ∧ 0 < s.cfg.idleTimeout ∧ s.rx.first = false ∧ 0 < s.rx.count ∧
      [(5 : Byte)].length = s.rx.count ∧ holds (s.rx.buf s.rx.active) [5]) ∧
    State.reset.cfg.idleTimeout = 0 ∧
    (rxState { Config.example1 with idleTimeout := 1 } true [5]).rx.first = true ∧
    (rxState { Config.example1 with idleTimeout := 1 } false []).rx.count = 0 :=
  ⟨⟨rfl, by decide +kernel, rfl, by decide +kernel, rfl, holds_ofList _⟩, rfl, rfl, rfl⟩

/-- Every symbol, on a chunk of 512 bytes, where one more is an overrun. -/
theorem test_witness_ReceiverStepMatchesTheFold :
    let s := rxState Config.example1 false (List.replicate 512 3)
    s.cfg.decided = true ∧ s.sys.fatal = false ∧ rxOk s.cfg s.rx = true ∧ selectsSym (.rxChr 1) (.chr 1) ∧
    selectsSym .rxBrk .brk ∧ selectsSym (.rxFerrStop1 0 true) .ferr ∧ selectsSym (.rxFerrStop2 0) .ferr ∧
    selectsSym .rxIdle .idle :=
  ⟨by decide +kernel, rfl, by decide +kernel, rfl, trivial, trivial, trivial, trivial⟩

theorem test_witness_ReceiverRunMatchesTheFold :
    let xs : List Sym := [.brk, .chr 1, .ferr, .brk, .brk]
    let s := withPending State.reset (xs.map symEvent ++ [.rst])
    s.cfg.legal = true ∧ s.cfg.decided = true ∧ s.sys.fatal = false ∧ rxOk s.cfg s.rx = true ∧
    rxView s = some ⟨true, []⟩ ∧ s.env.pending = xs.map symEvent ++ [.rst] := by decide +kernel

/-- For the mailbox statements and RL.TAKE: full and empty slots. -/
theorem test_witness_mailbox :
    let s := mbxState (frame [1])
    (s.sys.fatal = false ∧ s.mbx.full = true ∧ s.rl.state = .take ∧ (frame [1]).length = 512 ∧
      (frame [2]).length = 512 ∧ holds s.mbx.slot (frame [1])) ∧
    (State.reset.sys.fatal = false ∧ State.reset.mbx.full = false ∧ State.reset.rl.state = .take) ∧
    (rlState Config.example1 .map []).rl.state ≠ .take := by
  refine ⟨⟨rfl, rfl, rfl, by decide +kernel, by decide +kernel, holds_ofList _⟩, ⟨rfl, rfl, rfl⟩, by decide +kernel⟩

/-- 171 pixels: the last whole triple and the first pixel past the frame are both in range. -/
theorem test_witness_RlMapMapsAndRequestsTheWrite :
    let s := rlState { Config.example1 with nPix := 171 } .map (frame [1])
    (s.sys.fatal = false ∧ s.rl.state = .map ∧ s.enc.dmaBusy = false ∧ (frame [1]).length = 512 ∧
      holds s.rl.frame (frame [1])) ∧
    (169 < s.cfg.nPix ∧ 3 * 169 + 2 ≤ 511) ∧ (170 < s.cfg.nPix ∧ 511 < 3 * 170 + 2) ∧
    State.reset.rl.state ≠ .map :=
  ⟨⟨rfl, rfl, rfl, by decide +kernel, holds_ofList _⟩, by decide +kernel, by decide +kernel, by decide +kernel⟩

theorem test_witness_RlWriteWaitsForCompletion :
    let s := rlState { Config.example1 with pubSite := .rl } .write []
    let u := rlState Config.example1 .write []
    (s.sys.fatal = false ∧ s.rl.state = .write ∧ s.enc.dmaBusy = false ∧ s.cfg.pubSite = .rl) ∧
    (u.sys.fatal = false ∧ u.rl.state = .write ∧ u.enc.dmaBusy = false ∧ u.cfg.pubSite ≠ .rl) ∧
    State.reset.rl.state ≠ .write ∧ (setDmaBusy u true).enc.dmaBusy = true := by decide +kernel

theorem test_witness_RlPublishOffersTheFrame :
    let s := rlState { Config.example1 with pubSite := .rl } .publish (frame [1])
    (s.sys.fatal = false ∧ s.rl.state = .publish ∧ (frame [1]).length = 512 ∧ holds s.rl.frame (frame [1])) ∧
    s.env.pubReady = false ∧ (readyState s).env.pubReady = true ∧ State.reset.rl.state ≠ .publish :=
  ⟨⟨rfl, rfl, by decide +kernel, holds_ofList _⟩, rfl, rfl, by decide +kernel⟩

/-- The least and the greatest legal divisor, and the illegal ones beside them. -/
theorem test_witness_EncInitComputesTheDivisor :
    (let s := (State.resetOf { Config.example1 with fSys := 2400000 })
     s.sys.fatal = false ∧ 256 ≤ s.cfg.fSys * 256 / (s.cfg.fBit * (s.cfg.t1 + s.cfg.t2 + s.cfg.t3)) ∧
      s.cfg.fSys * 256 / (s.cfg.fBit * (s.cfg.t1 + s.cfg.t2 + s.cfg.t3)) < 2 ^ 24) ∧
    (let s := (State.resetOf { Config.example1 with fSys := 2399999 }).withSys ⟨false, 0⟩
     s.sys.fatal = false ∧ ¬ 256 ≤ s.cfg.fSys * 256 / (s.cfg.fBit * (s.cfg.t1 + s.cfg.t2 + s.cfg.t3))) ∧
    (let s := (State.resetOf { Config.example1 with fSys := 157286400, fBit := 800 }).withSys ⟨false, 0⟩
     s.sys.fatal = false ∧
      ¬ s.cfg.fSys * 256 / (s.cfg.fBit * (s.cfg.t1 + s.cfg.t2 + s.cfg.t3)) < 2 ^ 24) := by decide +kernel

theorem test_witness_EncWriteStartsTheTransfer :
    (State.reset.sys.fatal = false ∧ [(⟨1, 2, 3⟩ : Pixel)].length = State.reset.cfg.nPix ∧
      State.reset.enc.dmaBusy = false) ∧
    ((setDmaBusy State.reset true).sys.fatal = false ∧ (setDmaBusy State.reset true).enc.dmaBusy = true) := by
  decide +kernel

/-- The last word of a transfer, no transfer, and a full FIFO. -/
theorem test_witness_EncDmaMovesOneWord :
    (let s := encState cfg2 fun e => { e with wordbuf := [(0, 0), (1, 0x100)], dmaBusy := true, dmaIdx := 1 }
     s.sys.fatal = false ∧ s.enc.dmaBusy = true ∧ s.enc.fifo.length < s.cfg.fifoDepth ∧
      s.enc.dmaIdx < s.cfg.nPix ∧ Memory.read s.enc.wordbuf s.enc.dmaIdx = some 0x100) ∧
    State.reset.enc.dmaBusy = false ∧
    (let s := encState cfg2 fun e => { e with fifo := [0, 0], dmaBusy := true }
     s.cfg.fifoDepth ≤ s.enc.fifo.length) := by decide +kernel

theorem test_witness_EncPull_and_EncIdle :
    (let s := encState cfg2 fun e => { e with fifo := [0x100, 0x200] }
     s.sys.fatal = false ∧ s.enc.bitsLeft = 0 ∧ s.enc.fifo = [0x100, 0x200] ∧ s.enc.fifo ≠ []) ∧
    (State.reset.sys.fatal = false ∧ State.reset.enc.bitsLeft = 0 ∧ State.reset.enc.fifo = []) ∧
    0 < (shiftState 0 1).enc.bitsLeft := by decide +kernel

theorem test_witness_EncCells_and_SysFault :
    (let s := shiftState 0x80000000 1
     s.sys.fatal = false ∧ 0 < s.enc.bitsLeft ∧ s.enc.tickCnt = 0 ∧ s.enc.phase = .start ∧
      s.enc.osr.getLsbD 31 = true) ∧
    (let s := shiftState 0 24
     0 < s.enc.bitsLeft ∧ s.enc.tickCnt = 0 ∧ s.enc.phase = .start ∧ s.enc.osr.getLsbD 31 = false) ∧
    State.reset.enc.bitsLeft = 0 ∧
    (let s := encState cfg2 fun e => { e with bitsLeft := 3, phase := .data, tickCnt := 1, led := true }
     s.sys.fatal = false ∧ s.enc.tickCnt ≠ 0 ∧ 0 < s.enc.bitsLeft) := by decide +kernel

theorem test_witness_WordGoesOutMostSignificantFirst :
    let s := withPending (encState cfg2 fun e => { e with fifo := [0x10203000, 0] })
      (List.replicate 25 (.run .shift) ++ [.rst])
    s.cfg.legal = true ∧ s.sys.fatal = false ∧ s.enc.bitsLeft = 0 ∧ s.enc.tickCnt = 0 ∧ s.enc.phase = .start ∧
    s.enc.fifo = [0x10203000, 0] ∧ s.env.pending = List.replicate 25 (.run .shift) ++ [.rst] := by decide +kernel

/-- At a cell boundary, where a cell is three ticks, and inside a cell, with two ticks left of a data sub-phase of
three and the three of the stop sub-phase. -/
theorem test_witness_TicksRefineTheCell :
    (let s := withPending (shiftState 0x10203000 24) (List.replicate 3 .encTick ++ [.rst])
     s.cfg.legal = true ∧ s.sys.fatal = false ∧ 0 < s.enc.bitsLeft ∧ s.enc.tickCnt = 0 ∧
      s.cfg.t1 + s.cfg.t2 + s.cfg.t3 = 3) ∧
    (let s := encState { Config.example1 with t1 := 2, t2 := 3, t3 := 3 } fun e =>
       { e with osr := 0x80000000, bitsLeft := 1, phase := .data, tickCnt := 2, led := true }
     s.cfg.legal = true ∧ s.sys.fatal = false ∧ 0 < s.enc.bitsLeft ∧ s.enc.tickCnt ≠ 0 ∧ s.enc.phase = .data ∧
      cellRest s.cfg s.enc.phase s.enc.tickCnt true = [true, true, false, false, false]) := by decide +kernel

/-- A mapping step, with bits of an earlier write still to go out, and a step of the shifter. -/
theorem test_witness_EveryStepKeepsThePromisedBits :
    (Inv mapState ∧ mapState.env.pending = [.run .rl] ∧ isCall (.run .rl) = false ∧
      mapState.rl.state = .map ∧ mapState.sys.fatal = false ∧ (nextOf (step mapState)).isSome = true) ∧
    (Inv (pend (shiftState 0x10203000 24) (.run .shift)) ∧
      (nextOf (step (pend (shiftState 0x10203000 24) (.run .shift)))).isSome = true) :=
  ⟨⟨inv_of_invBool (by decide +kernel), rfl, rfl, rfl, rfl, by decide +kernel⟩,
    inv_of_invBool (by decide +kernel), by decide +kernel⟩

theorem test_witness_OneWritePutsItsBitsOnTheWire :
    let s := State.resetOf cfg2
    let px : List Pixel := [⟨0x20, 0x10, 0x30⟩, ⟨0, 0, 0⟩]
    s.cfg.legal = true ∧ s.sys.fatal = false ∧ s.enc.dmaBusy = false ∧ s.enc.fifo = [] ∧ s.enc.bitsLeft = 0 ∧
    s.enc.tickCnt = 0 ∧ s.enc.phase = .start ∧ px.length = s.cfg.nPix ∧
    (nextOf (exec (.encWrite px) s)).isSome = true := by decide +kernel

theorem test_witness_PublishSendsOrLogs :
    State.reset.sys.fatal = false ∧ State.reset.env.pubReady = false ∧
    (readyState State.reset).sys.fatal = false ∧ (readyState State.reset).env.pubReady = true := by decide +kernel

/-- One message sent, the counter at its last value, and the loop about to offer the next frame. -/
theorem test_witness_SequenceNumbersStayConsecutive :
    let s : State := ((rlState { Config.example1 with pubSite := .rl, seqW := 1 } .publish (frame [1])).withTrace
      { State.reset.trace with pub := [⟨0, []⟩] }).withPub ⟨0, 1⟩
    sequenceOk (pend s (.run .rl)) ∧ publishesAtItsSite (pend s (.run .rl)) ∧ s.rl.state = .publish ∧
    (pend s (.run .rl)).env.pending = [.run .rl] ∧ isCall (.run .rl) = false ∧
    (nextOf (step (pend s (.run .rl)))).isSome = true :=
  ⟨⟨by decide +kernel, rfl⟩, fun _ => rfl, rfl, rfl, rfl, by decide +kernel⟩

/-- Two hosts: one that becomes ready and one that does not, with other counters. -/
theorem test_witness_HostCannotReachTheLights :
    sameLights (pend State.reset (.ready true)) (pend ((readyState State.reset).withPub ⟨3, 4⟩) (.ready false)) := by
  refine ⟨rfl, rfl, rfl, rfl, rfl, rfl, rfl, rfl, rfl, rfl⟩

/-- For the statements about the fatal state. -/
theorem test_witness_fatal :
    let s := pend (fatalState.withEnc { State.reset.enc with osr := 0x80000000, bitsLeft := 1 }) .runOn
    (s.cfg.legal = true ∧ s.sys.fatal = true ∧ s.env.pending = [.runOn] ∧ isCall .runOn = false ∧
      Event.runOn ≠ .rst ∧ owed s = [true]) ∧
    (Instr.rxArm ≠ .sysReset) ∧
    (let u := pend fatalState .rst
     u.sys.fatal = true ∧ (nextOf (step u)).map (·.sys.fatal) = some false) ∧
    (let u := pend State.reset .encFault
     u.sys.fatal = false ∧ (nextOf (step u)).map (·.sys.fatal) = some true) := by decide +kernel

theorem test_witness_invariant_statements :
    Inv (pend State.reset (.run .rl)) ∧ (pend State.reset (.run .rl)).env.pending = [.run .rl] ∧
    isCall (.run .rl) = false ∧ (nextOf (step (pend State.reset (.run .rl)))).isSome = true ∧
    buffersOk (pend State.reset (.run .rl)) = true :=
  ⟨inv_of_invBool (by decide +kernel), rfl, rfl, by decide +kernel, by decide +kernel⟩

/-- Program P1 before its step 9: the loop in `WRITE`, the last word still to be handed off. -/
def lastWordState : State :=
  pend ((encState cfg2 fun e =>
      { e with wordbuf := [(0, 0x10203000), (1, 0)], dmaBusy := true, dmaIdx := 1, fifo := [0x10203000] }).withRl
    { state := .write, frame := Memory.ofList (frame [0x10, 0x20, 0x30]),
      pix := [(0, ⟨0x20, 0x10, 0x30⟩), (1, ⟨0, 0, 0⟩)] }) (.run .dma)

/-- Rule R39's last clause before and after the step of ENC.DONE, which keeps the invariant: the one way it ends. -/
theorem test_witness_EveryStepKeepsTheInvariant_at_the_last_word :
    Inv lastWordState ∧ writeNotCompleted lastWordState ∧ lastWordState.env.pending = [.run .dma] ∧
    (nextOf (step lastWordState)).map (fun t => (t.rl.state, t.enc.dmaBusy, t.enc.dmaIdx, invBool t)) =
      some (.write, false, 2, true) :=
  ⟨inv_of_invBool (by decide +kernel), fun _ => rfl, rfl, by decide +kernel⟩

/-- Both kinds of step, each with a next state: one that deposits, one that takes, and one that does neither. -/
theorem test_witness_ContextsTouchOnlyTheirOwnState :
    (let s := pend (rxState Config.example1 false [1]) (.window 0)
     s.env.pending = [.window 0] ∧ s.mbx.full = false ∧ (nextOf (step s)).map (·.mbx.full) = some true) ∧
    (let s := pend (mbxState (frame [1])) (.run .rl)
     s.env.pending = [.run .rl] ∧ s.mbx.full = true ∧ (nextOf (step s)).map (·.mbx.full) = some false) ∧
    (pend State.reset .encTick).env.pending = [.encTick] ∧
    (nextOf (step (pend State.reset .encTick))).isSome = true := by decide +kernel

theorem test_witness_OutputTracesAreNeverRead :
    forgetTraces State.reset = forgetTraces (State.reset.withTrace { State.reset.trace with ledBits := [true] }) := by
  decide +kernel

end Sys2Proof.Tests
end

section
/-! The statements of `00_scope.md`: what the decoder accepts is well-formed, one lemma per coded form, and when a
step waits or refuses. -/

namespace Sys2Proof

open Sys2Proof.Machine

/-! ### Serial windows (rules R61 and R63) -/

/-- A window with a low start sample, no data bit set and both stop samples low is the break window. -/
theorem window_eq_zero {s : BitVec 11} (hstart : s.getLsbD 0 = false) (hdata : windowData s = 0)
    (h9 : s.getLsbD 9 = false) (h10 : s.getLsbD 10 = false) : s = 0 := by
  have hbit : ∀ j < 8, s.getLsbD (j + 1) = false := by
    intro j hj
    have := congrArg (·.getLsbD j) hdata
    simpa [windowData, hj, Nat.add_comm] using this
  apply BitVec.eq_of_getLsbD_eq
  intro j hj
  rcases j with _ | j
  · simpa using hstart
  · by_cases hj8 : j < 8
    · simpa using hbit j hj8
    · obtain rfl | rfl : j = 8 ∨ j = 9 := by omega
      · simpa using h9
      · simpa using h10

theorem decodeSerial_wf (c : Config) {s : BitVec 11} {i : Instr} (h : decodeSerial s = .ok i) : i.wf c = true := by
  unfold decodeSerial at h
  split at h
  next => cases h
  next hstart =>
    split at h
    next => cases h; rfl
    next hbrk =>
      split at h
      next => split at h <;> (cases h; rfl)
      next h9 =>
        cases h
        cases h10 : s.getLsbD 10 with
        | true => rfl
        | false =>
          have hdata : windowData s ≠ 0 := fun hd =>
            hbrk (window_eq_zero (Bool.eq_false_iff.2 hstart) hd (Bool.eq_false_iff.2 h9) h10)
          simpa [Instr.wf] using hdata

/-! ### The other formats (rules R65, R67, R70 and R71) -/

/-- One pixel per transfer word (rules R65 and R131). -/
theorem length_of_decodeWords {ws : List Word} {ps : List Pixel} (h : decodeWords ws = .ok ps) :
    ps.length = ws.length := by
  induction ws generalizing ps with
  | nil => cases h; rfl
  | cons w ws ih =>
    unfold decodeWords at h
    split at h
    next p qs _ hws => cases h; simp [ih hws]
    next => cases h
    next => cases h

theorem decodeCell_wf {c : Config} {ticks : List Level} {i : Instr} (h : decodeCell c ticks = .ok i) :
    i.wf c = true := by
  unfold decodeCell at h
  split at h
  next => cases h; rfl
  next =>
    split at h
    next => cases h; rfl
    next => cases h

theorem decodeDivisor_wf {c : Config} {d : BitVec 24} {i : Instr} (h : decodeDivisor c d = .ok i) :
    i.wf c = true := by
  unfold decodeDivisor at h
  split at h
  next hd =>
    cases h
    obtain ⟨hlegal, -⟩ := Bool.and_eq_true_iff.1 hd
    exact hlegal
  next => cases h

/-- The publish port carries a whole frame (rules R7 and R8). -/
theorem portFrame_wf (p : BitVec 4096) : Frame.wf (portFrame p) = true := by
  simp [Frame.wf, portFrame, length_natBytes]

theorem decodeOp_wf {c : Config} {row : Nat} {args : List Nat} {i : Instr} (h : decodeOp c row args = .ok i) :
    i.wf c = true := by
  unfold decodeOp at h
  split at h
  next => cases h
  next => cases h
  next =>
    split at h
    next hwf => cases h; exact hwf
    next => cases h

/-- Settles O4, form by form. -/
theorem decodedOperationIsWellFormed : Obligations.DecodedOperationIsWellFormed := by
  intro c k i h
  cases k with
  | serial s => exact decodeSerial_wf c h
  | words ws =>
    simp only [decode] at h
    split at h
    next hlen =>
      split at h
      next ps hps => cases h; simp [Instr.wf, length_of_decodeWords hps, hlen]
      next => cases h
    next => cases h
  | cell ticks => exact decodeCell_wf h
  | divisor d => exact decodeDivisor_wf h
  | pubmsg ctx p => cases h; exact portFrame_wf p
  | op row args => exact decodeOp_wf h
  | raw nbits w => cases h

end Sys2Proof

namespace Sys2Proof.Machine

/-! ### Waiting and refusing (rules R2, R6 and R72; U17) -/

theorem step_of_illegal {s : State} (h : s.cfg.legal = false) : step s = .refused .illegalParameters := by
  simp [step, h]

/-- A called window whose start sample is high is ignored (rules R61 and R72). -/
theorem fetchCall_glitch {c : Code} {s : State} (h : decode s.cfg c = .error .glitch) : fetchCall c s = .quiet s := by
  simp [fetchCall, h]

/-- Any other called code that is no operation is rejected with the decoder's reason. -/
theorem fetchCall_reject {c : Code} {s : State} {r : Reject} (h : decode s.cfg c = .error r) (hr : r ≠ .glitch) :
    fetchCall c s = .reject r := by
  simp [fetchCall, h]

/-- A step whose next event is a call does what the call comes to once the event is consumed. -/
theorem step_call {s : State} {k : Code} {es : List Event} (hl : s.cfg.legal = true)
    (h : s.env.pending = .call k :: es) : step s = perform (fetchCall k (Safety.withPending s es)) := by
  rw [step_cons hl h, Safety.dropEvent_eq h, fetch]

/-- Settles O7: the three clauses are the step with nothing pending, under illegal parameters and at a rejected
call. -/
theorem stepWaitsAndRefuses : Obligations.StepWaitsAndRefuses := by
  intro s
  refine ⟨step_nil, step_of_illegal, fun k es r hl hp hd => ⟨?glitch, ?rejected⟩⟩
  case glitch =>
    rintro rfl
    rw [step_call hl hp, fetchCall_glitch (s := Safety.withPending s es) hd, perform]
  case rejected =>
    intro hr
    rw [step_call hl hp, fetchCall_reject (s := Safety.withPending s es) hd hr, perform]

end Sys2Proof.Machine
end

section
/-! The statements of `10_state.md`, first part: what a step of the block can be. `step_block` says it once, and the
proofs about every step are case analyses over `BlockStep`. -/

namespace Sys2Proof.Machine

open Sys2Proof.Safety

/-! ### The line below its symbols changes the sampler and the idle count only (rule R17) -/

/-- Only the sampler and the idle count of the receiver may differ. -/
def sameButSampler (s t : State) : Prop :=
  ∃ n z, t = s.withRx { s.rx with idleCnt := n, serial := z }

/-- The line's hidden levels have moved: only the sampler and the idle count differ, and the sampler's clause of the
invariant is kept. -/
def lineMoved (s t : State) : Prop :=
  sameButSampler s t ∧ (serialOk s.cfg s.rx.serial = true → serialOk t.cfg t.rx.serial = true)

/-- The operations that a line symbol selects (rule R74). -/
def isLineOp : Instr → Prop
  | .rxChr _ | .rxBrk | .rxFerrStop1 _ _ | .rxFerrStop2 _ | .rxIdle => True
  | _ => False

/-- What a line event comes to: a quiet step to such a state, or a line symbol's operation in one. -/
def yields (P : State → Prop) : Fetched → Prop
  | .run i t => isLineOp i ∧ P t
  | .quiet t => P t
  | .reject _ => False

theorem yields.mono {P Q : State → Prop} {f : Fetched} (h : yields P f) (hPQ : ∀ t, P t → Q t) : yields Q f := by
  cases f with
  | run i t => exact ⟨h.1, hPQ t h.2⟩
  | quiet t => exact hPQ t h
  | reject r => exact h

theorem sameButSampler.refl (s : State) : sameButSampler s s := ⟨_, _, rfl⟩

theorem sameButSampler.trans {s t u : State} (h : sameButSampler s t) (h' : sameButSampler t u) :
    sameButSampler s u := by
  obtain ⟨n, z, rfl⟩ := h
  obtain ⟨n', z', rfl⟩ := h'
  exact ⟨n', z', rfl⟩

theorem lineMoved.refl (s : State) : lineMoved s s := ⟨.refl s, id⟩

theorem lineMoved.trans {s t u : State} (h : lineMoved s t) (h' : lineMoved t u) : lineMoved s u :=
  ⟨h.1.trans h'.1, h'.2 ∘ h.2⟩

theorem sameButSampler_setBaud (n : Nat) (s : State) : sameButSampler s (setBaud n s) := ⟨_, _, rfl⟩

theorem sameButSampler_takeSample (v : Level) (s : State) : sameButSampler s (takeSample v s) := by
  obtain ⟨-, -, h⟩ | ⟨-, h⟩ := takeSample_cases v s <;> rw [h] <;> exact ⟨_, _, rfl⟩

/-! ### The sampler's clause of the invariant (log entries 10 and 11) -/

theorem clocksPerBit_pos (c : Config) : 0 < clocksPerBit c := by unfold clocksPerBit; omega

theorem serialOk_iff {c : Config} {z : Serial} :
    serialOk c z = true ↔
      z.sampler.length = z.bitCnt + (if z.opened ∧ clocksPerBit c / 2 < z.baudCnt then 1 else 0) ∧
      z.bitCnt ≤ 10 ∧ z.baudCnt < clocksPerBit c ∧ (z.opened = true ∨ z.bitCnt = 0) ∧
      (z.waitHigh = false ∨ z.opened = false) := by
  simp [serialOk, and_assoc, Bool.and_eq_true]

/-- An open window with the sample of the bit time in progress taken. -/
def sampled (z : Serial) : Prop :=
  z.sampler.length = z.bitCnt + 1 ∧ z.bitCnt ≤ 10 ∧ z.opened = true ∧ z.waitHigh = false

/-- Between windows the sampler is empty and its counters stand still. -/
theorem serialOk_closed (c : Config) (b : Bool) :
    serialOk c { waitHigh := b, opened := false, sampler := [], bitCnt := 0, baudCnt := 0 } = true := by
  simp [serialOk_iff, clocksPerBit_pos]

theorem lineMoved_closeWindow (b : Bool) {s t : State} (h : sameButSampler s t) : lineMoved s (closeWindow b t) :=
  ⟨h.trans ⟨_, _, rfl⟩, fun _ => serialOk_closed _ b⟩

theorem lineMoved_lineHigh (s : State) : lineMoved s (lineHigh s) := by
  refine ⟨⟨_, _, rfl⟩, fun h => ?_⟩
  obtain ⟨hlen, hle, hlt, ho, -⟩ := serialOk_iff.1 h
  exact serialOk_iff.2 ⟨hlen, hle, hlt, ho, .inl rfl⟩

theorem lineMoved_openWindow {s : State} (h : s.rx.serial.waitHigh = false) : lineMoved s (openWindow s) :=
  ⟨⟨_, _, rfl⟩, fun _ => serialOk_iff.2 (by simp [openWindow, clocksPerBit_pos, h])⟩

theorem lineMoved_idleCnt (n : Nat) (s : State) : lineMoved s (s.withRx { s.rx with idleCnt := n }) :=
  ⟨⟨n, s.rx.serial, rfl⟩, id⟩

/-- Between windows the baud counter runs freely. -/
theorem lineMoved_setBaud {s : State} {n : Nat} (ho : s.rx.serial.opened = false) (hn : n < clocksPerBit s.cfg) :
    lineMoved s (setBaud n s) := by
  refine ⟨sameButSampler_setBaud n s, fun h => ?_⟩
  have := serialOk_iff.1 h
  exact serialOk_iff.2 (by simp_all)

/-! ### What the line's levels come to -/

theorem isLineOp_of_decodeSerial {w : BitVec 11} {i : Instr} (h : decodeSerial w = .ok i) : isLineOp i := by
  unfold decodeSerial at h
  repeat' split at h
  all_goals cases h <;> trivial

theorem yields_lineWindow {P : State → Prop} {s : State} (w : BitVec 11) (h : P s) : yields P (lineWindow w s) := by
  unfold lineWindow
  split
  next i hi => exact ⟨isLineOp_of_decodeSerial hi, h⟩
  next => exact h

/-- The end of a bit time whose sample has been taken. -/
theorem yields_endBit {s t : State} (v : Level) (hst : sameButSampler s t)
    (h : serialOk s.cfg s.rx.serial = true → sampled t.rx.serial) : yields (lineMoved s) (endBit v t) := by
  obtain ⟨hlt, he⟩ | ⟨-, he⟩ := endBit_cases v t <;> rw [he]
  · refine ⟨hst.trans ⟨_, _, rfl⟩, fun hs => ?_⟩
    obtain ⟨hlen, hle, ho, hw⟩ := h hs
    exact serialOk_iff.2 (by simp [hlen, ho, hw, clocksPerBit_pos]; omega)
  · exact yields_lineWindow _ (lineMoved_closeWindow _ hst)

theorem yields_idleBit (s : State) : yields (lineMoved s) (idleBit s) := by
  obtain ⟨-, h⟩ | ⟨-, -, -, -, h⟩ | ⟨-, -, h⟩ := idleBit_cases s <;> rw [h]
  · exact .refl s
  · exact ⟨trivial, lineMoved_idleCnt _ s⟩
  · exact lineMoved_idleCnt _ s

/-- A sample that is due and no glitch leaves the window sampled. -/
theorem sampled_takeSample {v : Level} {s : State} (hs : serialOk s.cfg s.rx.serial = true)
    (ho : s.rx.serial.opened = true) (hl : s.rx.serial.sampler.length ≤ s.rx.serial.bitCnt)
    (h : (takeSample v s).rx.serial.opened = true) : sampled (takeSample v s).rx.serial := by
  obtain ⟨hlen, hle, -, -, hw⟩ := serialOk_iff.1 hs
  obtain ⟨-, -, he⟩ | ⟨-, he⟩ := takeSample_cases v s
  · simp [he] at h
  · rw [he]
    refine ⟨?_, hle, ho, by simpa [ho] using hw⟩
    simp only [State.withRx_rx, List.length_append, List.length_singleton]
    omega

/-- A window whose sample was taken by the clock level is sampled. -/
theorem sampled_of_serialOk {c : Config} {z : Serial} (hs : serialOk c z = true) (ho : z.opened = true)
    (hl : z.bitCnt < z.sampler.length) : sampled z := by
  obtain ⟨hlen, hle, -, -, hw⟩ := serialOk_iff.1 hs
  refine ⟨?_, hle, ho, by simpa [ho] using hw⟩
  split at hlen <;> omega

/-- A sample that closed the window was a glitch. -/
theorem takeSample_of_closed {v : Level} {s : State} (ho : s.rx.serial.opened = true)
    (h : (takeSample v s).rx.serial.opened = false) : takeSample v s = closeWindow false s := by
  obtain ⟨-, -, he⟩ | ⟨-, he⟩ := takeSample_cases v s
  · exact he
  · simp [he, ho] at h

theorem yields_windowBit {s : State} (v : Level) (ho : s.rx.serial.opened = true) :
    yields (lineMoved s) (windowBit v s) := by
  unfold windowBit
  by_cases hl : s.rx.serial.sampler.length ≤ s.rx.serial.bitCnt
  · cases ht : (takeSample v s).rx.serial.opened with
    | true =>
      simpa [hl, ht] using
        yields_endBit v (sameButSampler_takeSample v s) fun hs => sampled_takeSample hs ho hl ht
    | false =>
      simp only [hl, if_true, takeSample_of_closed ho ht]
      exact lineMoved_closeWindow false (.refl s)
  · simpa [hl, ho] using yields_endBit v (.refl s) fun hs => sampled_of_serialOk hs ho (by omega)

/-- Past the centre of a bit time the clock counts on with the sample taken. -/
theorem lineMoved_setBaud_sampled {s t : State} {n : Nat} (hst : sameButSampler s t)
    (h : serialOk s.cfg s.rx.serial = true → sampled t.rx.serial) (hc : clocksPerBit s.cfg / 2 ≤ n)
    (hn : n + 1 < clocksPerBit s.cfg) : lineMoved s (setBaud (n + 1) t) := by
  refine ⟨hst.trans (sameButSampler_setBaud _ t), fun hs => ?_⟩
  obtain ⟨hlen, hle, ho, hw⟩ := h hs
  obtain ⟨_, _, rfl⟩ := hst
  refine serialOk_iff.2 ⟨?_, hle, hn, .inl ho, .inl hw⟩
  simp only [setBaud_serial, setBaud_cfg, State.withRx_cfg, hlen, ho]
  rw [if_pos ⟨trivial, by omega⟩]

/-- Off the centre of a bit time a clock only counts. -/
theorem lineMoved_setBaud_offCentre {s : State} (hc : s.rx.serial.baudCnt ≠ clocksPerBit s.cfg / 2)
    (hn : s.rx.serial.baudCnt + 1 < clocksPerBit s.cfg) :
    lineMoved s (setBaud (s.rx.serial.baudCnt + 1) s) := by
  refine ⟨sameButSampler_setBaud _ s, fun hs => ?_⟩
  obtain ⟨hlen, hle, -, ho, hw⟩ := serialOk_iff.1 hs
  have hiff : clocksPerBit s.cfg / 2 < s.rx.serial.baudCnt + 1 ↔
      clocksPerBit s.cfg / 2 < s.rx.serial.baudCnt := by omega
  exact serialOk_iff.2 ⟨by simpa [hiff] using hlen, hle, hn, ho, hw⟩

theorem yields_windowClock {s : State} (v : Level) (ho : s.rx.serial.opened = true) :
    yields (lineMoved s) (windowClock v s) := by
  unfold windowClock
  by_cases hc : s.rx.serial.baudCnt = clocksPerBit s.cfg / 2
  · simp only [hc, if_true]
    cases ht : (takeSample v s).rx.serial.opened with
    | true =>
      have hst := sameButSampler_takeSample v s
      have hsam : serialOk s.cfg s.rx.serial = true → sampled (takeSample v s).rx.serial := fun hs =>
        sampled_takeSample hs ho (by simpa [hc] using (serialOk_iff.1 hs).1.le) ht
      simp only [if_true]
      split
      · exact yields_endBit v hst hsam
      · exact lineMoved_setBaud_sampled hst hsam le_rfl (by omega)
    | false => exact takeSample_of_closed ho ht ▸ lineMoved_closeWindow false (.refl s)
  · simp only [hc, if_false, ho, if_true]
    split
    next hlast =>
      refine yields_endBit v (.refl s) fun hs => ?_
      obtain ⟨hlen, -, hlt, -⟩ := serialOk_iff.1 hs
      rw [if_pos ⟨ho, by omega⟩] at hlen
      exact sampled_of_serialOk hs ho (by omega)
    next => exact lineMoved_setBaud_offCentre hc (by omega)

theorem yields_lineBit (v : Level) (s : State) : yields (lineMoved s) (lineBit v s) := by
  unfold lineBit
  split
  · exact .refl s
  split
  · cases v
    · exact .refl s
    · exact lineMoved_lineHigh s
  next hw =>
  split
  next ho => exact yields_windowBit v ho
  split
  · exact yields_idleBit s
  · have hopen := lineMoved_openWindow (by simpa using hw)
    exact (yields_windowBit false rfl).mono fun t => hopen.trans

theorem yields_lineClock (v : Level) (s : State) : yields (lineMoved s) (lineClock v s) := by
  unfold lineClock
  split
  · exact .refl s
  split
  · cases v
    · exact .refl s
    · exact lineMoved_lineHigh s
  next hw =>
  split
  next ho => exact yields_windowClock v ho
  next ho =>
  have ho : s.rx.serial.opened = false := by simpa using ho
  split
  · split
    · exact (yields_idleBit _).mono fun t => (lineMoved_setBaud ho (clocksPerBit_pos _)).trans
    · exact lineMoved_setBaud ho (by omega)
  · have hopen := lineMoved_openWindow (by simpa using hw)
    exact (yields_windowClock false rfl).mono fun t => hopen.trans

/-! ### One step of the block, once the event is consumed and the line's hidden levels have moved -/

/-- What an event other than a direct call makes of a state: one constructor per thing that can happen, with the
condition that enables it. -/
inductive BlockStep (s : State) : Event → State → Prop
  /-- Nothing is enabled, or the block is fatal. -/
  | stay (e : Event) : BlockStep s e s
  /-- The host changes its level. -/
  | ready (v : Bool) : BlockStep s (.ready v) (s.withEnv { s.env with pubReady := v })
  /-- RX.CHR. -/
  | character {e : Event} {t : State} (b : Byte) (running : s.sys.fatal = false) (h : character b s = .ok t) :
      BlockStep s e t
  /-- RX.BRK and RX.FERR: a read ends. -/
  | readEnds {e : Event} {t : State} (result : ReadResult) (atBreak : Bool) (running : s.sys.fatal = false)
      (h : complete result atBreak s = .ok t) : BlockStep s e t
  /-- RX.IDLE. -/
  | lineTimeout {e : Event} {t : State} (running : s.sys.fatal = false) (h : lineTimeout s = .ok t) : BlockStep s e t
  /-- RL.TAKE. -/
  | take {t : State} (running : s.sys.fatal = false) (state : s.rl.state = .take) (full : s.mbx.full = true)
      (h : rlTake s = .ok t) : BlockStep s (.run .rl) t
  /-- RL.MAP. -/
  | map {t : State} (running : s.sys.fatal = false) (state : s.rl.state = .map) (h : rlMap s = .ok t) :
      BlockStep s (.run .rl) t
  /-- RL.WRITE. -/
  | writeEnds (running : s.sys.fatal = false) (state : s.rl.state = .write) (done : s.enc.dmaBusy = false) :
      BlockStep s (.run .rl) (setRlState (if s.cfg.pubSite = .rl then .publish else .take) s)
  /-- RL.PUBLISH. -/
  | publish {t : State} (running : s.sys.fatal = false) (state : s.rl.state = .publish) (h : rlPublish s = .ok t) :
      BlockStep s (.run .rl) t
  /-- ENC.DMA. -/
  | moveWord {t : State} (running : s.sys.fatal = false) (busy : s.enc.dmaBusy = true)
      (room : s.enc.fifo.length < s.cfg.fifoDepth) (h : moveWord s = .ok t) : BlockStep s (.run .dma) t
  /-- ENC.PULL. -/
  | pull (running : s.sys.fatal = false) : BlockStep s (.run .shift) (pull s)
  /-- ENC.CELL0 and ENC.CELL1. -/
  | cell (running : s.sys.fatal = false) (bits : 0 < s.enc.bitsLeft) : BlockStep s (.run .shift) (cellStep s)
  /-- ENC.IDLE. -/
  | idle {e : Event} (running : s.sys.fatal = false) (idle : shifterIdle s = true) : BlockStep s e (idleTick s)
  /-- A tick of a shifter that is not idle. -/
  | tick (running : s.sys.fatal = false) : BlockStep s .encTick (tick s)
  /-- A clock of the encoder. -/
  | clock (running : s.sys.fatal = false) : BlockStep s .encClk (encClock s)
  /-- SYS.FAULT. -/
  | fault (running : s.sys.fatal = false) : BlockStep s .encFault (takeHardwareFault (finishCell s))
  /-- SYS.RESET. -/
  | reset : BlockStep s .rst (returnByReset s)
  /-- One more cell after a fatal fault. -/
  | runOn : BlockStep s .runOn (runOnCell s)

/-- A unit's operation stays in the fatal state and does what it says in a running block. -/
theorem BlockStep.of_live {s t : State} {e : Event} {r : Except Fault State} (h : live s r = .next t)
    (hr : s.sys.fatal = false → r = .ok t → BlockStep s e t) : BlockStep s e t := by
  obtain ⟨-, rfl⟩ | ⟨hf, hok⟩ := live_next_iff.1 h
  · exact .stay e
  · exact hr hf hok

/-- The same for an operation that waits until a condition enables it. -/
theorem BlockStep.of_live_ite {s t : State} {e : Event} {c : Prop} [Decidable c] {r : Except Fault State}
    (h : live s (if c then r else .ok s) = .next t)
    (hr : s.sys.fatal = false → c → r = .ok t → BlockStep s e t) : BlockStep s e t := by
  refine .of_live h fun hf hok => ?_
  split at hok
  next hc => exact hr hf hc hok
  next => cases hok; exact .stay e

theorem blockStep_of_lineOp {s t : State} {i : Instr} (e : Event) (hi : isLineOp i) (h : exec i s = .next t) :
    BlockStep s e t := by
  cases i <;> simp only [isLineOp] at hi
  case rxChr b => exact .of_live h (.character b)
  case rxBrk => exact .of_live h (.readEnds _ _)
  case rxFerrStop1 => exact .of_live (r := framingError s) h (.readEnds _ _)
  case rxFerrStop2 => exact .of_live (r := framingError s) h (.readEnds _ _)
  case rxIdle => exact .of_live_ite h fun hf _ => .lineTimeout hf

/-- A line event: its hidden levels move, then the symbol's operation runs. -/
theorem blockStep_of_yields {s t : State} {f : Fetched} (e : Event) (hf : yields (lineMoved s) f)
    (h : perform f = .next t) : ∃ u, lineMoved s u ∧ BlockStep u e t := by
  cases f with
  | run i u => exact ⟨u, hf.2, blockStep_of_lineOp e hf.1 h⟩
  | quiet u => cases h; exact ⟨_, hf, .stay e⟩
  | reject r => exact hf.elim

/-- An operation whose effect is a plain state, enabled by a condition. -/
theorem ite_ok {c : Prop} [Decidable c] {s t : State} :
    (Except.ok (if c then t else s) : Except Fault State) = if c then .ok t else .ok s := by
  split <;> rfl

theorem blockStep_of_rl {s t : State} (h : exec (select .rl s) s = .next t) : BlockStep s (.run .rl) t := by
  unfold select at h
  cases hst : s.rl.state <;> simp only [hst] at h
  case take => exact .of_live_ite h fun hf hc => .take hf hc.1 hc.2
  case map => exact .of_live_ite h .map
  case write =>
    rw [exec, execRlWrite, ite_ok] at h
    refine .of_live_ite h fun hf hc hok => ?_
    cases hok
    exact .writeEnds hf hc.1 (by simpa [encDone] using hc.2)
  case publish => exact .of_live_ite h .publish

theorem blockStep_of_dma {s t : State} (h : exec .encDma s = .next t) : BlockStep s (.run .dma) t := by
  refine .of_live_ite h fun hf hc => ?_
  simp only [dmaEnabled, Bool.and_eq_true, decide_eq_true_eq] at hc
  exact .moveWord hf hc.1 hc.2

theorem blockStep_of_idle {s t : State} (e : Event) (h : exec .encIdle s = .next t) : BlockStep s e t := by
  rw [exec, execEncIdle, ite_ok] at h
  refine .of_live_ite h fun hf hc hok => ?_
  cases hok
  exact .idle hf hc

theorem blockStep_of_cell {s t : State} {v : Level}
    (h : live s (.ok (if 0 < s.enc.bitsLeft ∧ nextBit s = v then cellStep s else s)) = .next t) :
    BlockStep s (.run .shift) t := by
  rw [ite_ok] at h
  refine .of_live_ite h fun hf hc hok => ?_
  cases hok
  exact .cell hf hc.1

theorem blockStep_of_shift {s t : State} (h : exec (select .shift s) s = .next t) : BlockStep s (.run .shift) t := by
  unfold select at h
  simp only at h
  split at h
  · split at h <;> exact blockStep_of_cell h
  split at h
  · exact blockStep_of_idle _ h
  · refine .of_live (r := .ok (pull s)) h fun hf hok => ?_
    cases hok
    exact .pull hf

theorem blockStep_of_tick {s t : State} (h : perform (fetchTick s) = .next t) : BlockStep s .encTick t := by
  unfold fetchTick at h
  split at h
  · cases h; exact .stay _
  next hf =>
  split at h
  · exact blockStep_of_idle _ h
  · cases h; exact .tick (by simpa using hf)

/-- A step that answers a next state had legal parameters (U17). -/
theorem legal_of_step_next {s t : State} (h : step s = .next t) : s.cfg.legal = true := by
  by_contra hl
  simp [step_of_illegal (by simpa using hl)] at h

/-- Everything a step of the block by the spec's own order can do. -/
theorem step_block {s t : State} {e : Event} {es : List Event} (hp : s.env.pending = e :: es)
    (hc : isCall e = false) (h : step s = .next t) : ∃ u, lineMoved (withPending s es) u ∧ BlockStep u e t := by
  rw [step_cons (legal_of_step_next h) hp, dropEvent_eq hp] at h
  cases e with
  | window w => exact blockStep_of_yields _ (yields_lineWindow w (.refl _)) h
  | lineBit v => exact blockStep_of_yields _ (yields_lineBit v _) h
  | lineClk v => exact blockStep_of_yields _ (yields_lineClock v _) h
  | idle => exact ⟨_, .refl _, blockStep_of_lineOp (i := .rxIdle) _ trivial h⟩
  | run a =>
    refine ⟨_, .refl _, ?_⟩
    cases a with
    | rl => exact blockStep_of_rl h
    | dma => exact blockStep_of_dma h
    | shift => exact blockStep_of_shift h
  | encTick => exact ⟨_, .refl _, blockStep_of_tick h⟩
  | encClk =>
    refine ⟨_, .refl _, ?_⟩
    cases hf : (withPending s es).sys.fatal <;> simp only [fetch, hf] at h <;> cases h
    · exact .clock hf
    · exact .stay _
  | ready v => cases h; exact ⟨_, .refl _, .ready v⟩
  | encFault =>
    refine ⟨_, .refl _, .of_live (r := .ok (takeHardwareFault (finishCell _))) h fun hf hok => ?_⟩
    cases hok
    exact .fault hf
  | rst => cases h; exact ⟨_, .refl _, .reset⟩
  | runOn => cases h; exact ⟨_, .refl _, .runOn⟩
  | call c => cases hc

end Sys2Proof.Machine
end

section
/-! The statements of `10_state.md`, second part: what the operations of a unit leave alone, and the sequence numbers
(rules R21, R32, R124 and R150 to R153). -/

namespace Sys2Proof.Machine

open Sys2Proof.Safety

/-! ### The shifter's steps touch the shifter and the `LED` trace only (rules R134 to R138) -/

/-- Only the shifter's side of the encoder and the `LED` trace may differ. -/
def onlyShifter (s t : State) : Prop :=
  ∃ e bits ticks, t = (s.withEnc e).withTrace { s.trace with ledBits := bits, ledTicks := ticks } ∧
    e.wordbuf = s.enc.wordbuf ∧ e.dmaBusy = s.enc.dmaBusy ∧ e.dmaIdx = s.enc.dmaIdx ∧ e.clkdiv = s.enc.clkdiv

theorem onlyShifter.refl (s : State) : onlyShifter s s := ⟨_, _, _, rfl, rfl, rfl, rfl, rfl⟩

theorem onlyShifter.trans {s t u : State} (h : onlyShifter s t) (h' : onlyShifter t u) : onlyShifter s u := by
  obtain ⟨e, bits, ticks, rfl, hw, hb, hi, hc⟩ := h
  obtain ⟨e', bits', ticks', rfl, hw', hb', hi', hc'⟩ := h'
  exact ⟨e', bits', ticks', rfl, hw'.trans hw, hb'.trans hb, hi'.trans hi, hc'.trans hc⟩

theorem onlyShifter_pull (s : State) : onlyShifter s (pull s) := by
  obtain ⟨w, ws, -, -, h⟩ | ⟨-, h⟩ := pull_cases s <;> rw [h]
  · exact ⟨{ s.enc with osr := w, fifo := ws, bitsLeft := 24 }, s.trace.ledBits, s.trace.ledTicks,
      rfl, rfl, rfl, rfl, rfl⟩
  · exact .refl s

theorem onlyShifter_cellStep (s : State) : onlyShifter s (cellStep s) := ⟨_, _, _, rfl, rfl, rfl, rfl, rfl⟩

theorem onlyShifter_idleTick (s : State) : onlyShifter s (idleTick s) := ⟨_, _, _, rfl, rfl, rfl, rfl, rfl⟩

theorem onlyShifter_finishCell (s : State) : onlyShifter s (finishCell s) := by
  unfold finishCell
  split
  · exact onlyShifter_cellStep s
  · exact .refl s

theorem onlyShifter_cellTick (s : State) : onlyShifter s (cellTick s) := by
  unfold cellTick
  simp only
  split
  · split <;> exact ⟨_, _, _, rfl, rfl, rfl, rfl, rfl⟩
  · exact ⟨_, _, _, rfl, rfl, rfl, rfl, rfl⟩

theorem onlyShifter_tick (s : State) : onlyShifter s (tick s) := by
  unfold tick
  refine (onlyShifter_pull s).trans ?_
  simp only
  split
  · exact onlyShifter_idleTick _
  · exact onlyShifter_cellTick _

theorem onlyShifter_divAcc (s : State) (n : Nat) : onlyShifter s (s.withEnc { s.enc with divAcc := n }) :=
  ⟨{ s.enc with divAcc := n }, s.trace.ledBits, s.trace.ledTicks, rfl, rfl, rfl, rfl, rfl⟩

theorem onlyShifter_encClock (s : State) : onlyShifter s (encClock s) := by
  unfold encClock
  simp only
  split
  · exact (onlyShifter_divAcc s _).trans (onlyShifter_tick _)
  · exact onlyShifter_divAcc s _

/-! ### The receiver's operations touch the receive context only (rule R171) -/

theorem onlyReceiveSide_discard (s : State) : onlyReceiveSide s (discard (swapBuffers s)) :=
  ⟨rfl, rfl, rfl, rfl, rfl, rfl, rfl, rfl, rfl, rfl, .inl rfl⟩

theorem onlyReceiveSide_drop (kind : ReceiveKind) (atBreak : Bool) (s : State) :
    onlyReceiveSide s (drop kind atBreak (swapBuffers s)) := by
  rw [drop_eq]
  exact ⟨rfl, rfl, rfl, rfl, rfl, rfl, rfl, rfl, rfl, rfl, .inl rfl⟩

/-- A frame that was built has 512 entries (rule R87). -/
theorem length_of_build {n : Nat} {s : State} {f : Frame} (h : build n s = .ok f) : f.length = frameLen := by
  obtain ⟨bytes, -, rfl⟩ := build_ok_iff.1 h
  exact length_padFrame bytes

theorem publish_seqRender (f : Frame) (s : State) : (publish .receive f s).pub.seqRender = s.pub.seqRender := by
  unfold publish; split <;> rfl

theorem onlyReceiveSide_deliver {n : Nat} {s t : State} (h : deliver n s = .ok t) : onlyReceiveSide s t := by
  obtain ⟨f, hf, rfl⟩ := deliver_ok_iff.1 h
  have hmbx : ∀ u : State, untouchedOrDeposited s (deposit f u) := fun u => .inr ⟨f, length_of_build hf, rfl⟩
  refine ⟨?_, ?_, ?_, ?_, ?_, ?_, ?_, ?_, ?_, ?_, hmbx _⟩ <;> split <;> simp [deposit, publish_seqRender]

/-- What the receive context's own unit held before does not matter. -/
theorem onlyReceiveSide_of_withRx {s t : State} {x : Rx} (h : onlyReceiveSide (s.withRx x) t) : onlyReceiveSide s t := h

theorem onlyReceiveSide_complete {result : ReadResult} {atBreak : Bool} {s t : State}
    (h : complete result atBreak s = .ok t) : onlyReceiveSide s t := by
  have h := complete_ok_iff.1 h
  cases result with
  | err kind => exact h ▸ onlyReceiveSide_drop kind atBreak s
  | ok n =>
    simp only at h
    split at h
    · exact h ▸ onlyReceiveSide_discard s
    · exact onlyReceiveSide_of_withRx (onlyReceiveSide_deliver h)

theorem onlyReceiveSide_character {b : Byte} {s t : State} (h : character b s = .ok t) : onlyReceiveSide s t := by
  obtain ⟨-, h⟩ := character_ok_iff.1 h
  simp only at h
  split at h
  · exact onlyReceiveSide_of_withRx (onlyReceiveSide_complete (result := .err .overrun) (atBreak := false) h)
  · exact h ▸ ⟨rfl, rfl, rfl, rfl, rfl, rfl, rfl, rfl, rfl, rfl, .inl rfl⟩

theorem onlyReceiveSide_setFirst {s t : State} (h : onlyReceiveSide s t) : onlyReceiveSide s (setFirst t) := h

/-- Everything the line timeout can do (rule R90). -/
theorem lineTimeout_ok_iff {s t : State} :
    lineTimeout s = .ok t ↔ ∃ u, complete (.ok s.rx.count) false s = .ok u ∧ t = setFirst u := by
  unfold lineTimeout
  cases complete (.ok s.rx.count) false s <;> simp [eq_comm]

theorem onlyReceiveSide_lineTimeout {s t : State} (h : lineTimeout s = .ok t) : onlyReceiveSide s t := by
  obtain ⟨u, hu, rfl⟩ := lineTimeout_ok_iff.1 h
  exact onlyReceiveSide_setFirst (onlyReceiveSide_complete hu)

end Sys2Proof.Machine

namespace Sys2Proof.Safety

open Sys2Proof.Machine

/-! ### The sequence numbers -/

theorem sequenceOk_of_frame {s t : State} (h : sequenceOk s) (hc : t.cfg = s.cfg) (hp : t.pub = s.pub)
    (ht : t.trace.pub = s.trace.pub) : sequenceOk t := by
  unfold sequenceOk
  rw [hc, hp, ht]
  exact h

/-- The site whose publishes are in a context (rule R152). -/
def siteOf : Ctx → PubSite
  | .receive => .rx
  | .render => .rl

/-- The counter of the publishing context is the number of messages sent (rule R153). -/
theorem seq_of_sequenceOk {s : State} {c : Ctx} (h : sequenceOk s) (hc : s.cfg.pubSite = siteOf c) :
    s.pub.seq c = s.trace.pub.length % 2 ^ s.cfg.seqW := by
  obtain ⟨-, h⟩ := h
  cases c <;> simp_all [siteOf, Pub.seq]

theorem sequenceOk_publish {s : State} {c : Ctx} (f : Frame) (h : sequenceOk s) (hc : s.cfg.pubSite = siteOf c) :
    sequenceOk (publish c f s) := by
  have hseq := seq_of_sequenceOk h hc
  obtain ⟨hnum, hcnt⟩ := h
  unfold publish
  split
  case isFalse => exact ⟨hnum, hcnt⟩
  case isTrue =>
    refine ⟨?_, ?_⟩
    · simp [publishSuccess, Trace.emitPub, List.range_succ, hnum, hseq]
    · cases c <;>
        simp_all [publishSuccess, Trace.emitPub, siteOf, Pub.setSeq]

theorem sequenceOk_complete {result : ReadResult} {atBreak : Bool} {s t : State}
    (h : complete result atBreak s = .ok t) (hs : sequenceOk s) : sequenceOk t := by
  have h := complete_ok_iff.1 h
  cases result with
  | err kind => rw [h, drop_eq]; exact hs
  | ok n =>
    simp only at h
    split at h
    · exact h ▸ hs
    · obtain ⟨f, -, rfl⟩ := deliver_ok_iff.1 h
      split
      next hsite => exact sequenceOk_publish (s := swapBuffers s) (c := .receive) f hs hsite
      next => exact hs

theorem sequenceOk_character {b : Byte} {s t : State} (h : character b s = .ok t) (hs : sequenceOk s) :
    sequenceOk t := by
  obtain ⟨-, h⟩ := character_ok_iff.1 h
  simp only at h
  split at h
  · exact sequenceOk_complete h hs
  · exact h ▸ hs

theorem sequenceOk_resetOf (c : Config) : sequenceOk (State.resetOf c) := by
  unfold State.resetOf sequenceOk
  split <;> cases h : c.pubSite <;> simp [State.powerOn, h]

theorem sequenceOk_shifter {s t : State} (h : onlyShifter s t) (hs : sequenceOk s) : sequenceOk t := by
  obtain ⟨e, bits, ticks, rfl, -⟩ := h
  exact hs

theorem sequenceOk_runOnCell {s : State} (hs : sequenceOk s) : sequenceOk (runOnCell s) := by
  unfold runOnCell
  split
  · split <;> exact hs
  · exact hs

theorem sequenceOk_blockStep {s t : State} {e : Event} (h : BlockStep s e t) (hs : sequenceOk s)
    (hsite : publishesAtItsSite s) : sequenceOk t := by
  cases h with
  | stay => exact hs
  | ready v => exact hs
  | character b running h => exact sequenceOk_character h hs
  | readEnds result atBreak running h => exact sequenceOk_complete h hs
  | lineTimeout running h =>
    obtain ⟨u, hu, rfl⟩ := lineTimeout_ok_iff.1 h
    exact sequenceOk_of_frame (sequenceOk_complete hu hs) rfl rfl rfl
  | take running state full h =>
    obtain ⟨f, -, rfl⟩ := rlTake_ok_iff.1 h
    exact hs
  | map running state h =>
    obtain ⟨f, -, -, rfl⟩ := rlMap_ok_iff.1 h
    exact hs
  | writeEnds running state done => exact hs
  | publish running state h =>
    obtain ⟨f, -, rfl⟩ := rlPublish_ok_iff.1 h
    exact sequenceOk_publish (c := .render) f hs (hsite state)
  | moveWord running busy room h =>
    obtain ⟨w, -, -, rfl⟩ := moveWord_ok_iff.1 h
    exact hs
  | pull running => exact sequenceOk_shifter (onlyShifter_pull s) hs
  | cell running bits => exact sequenceOk_shifter (onlyShifter_cellStep s) hs
  | idle running idle => exact sequenceOk_shifter (onlyShifter_idleTick s) hs
  | tick running => exact sequenceOk_shifter (onlyShifter_tick s) hs
  | clock running => exact sequenceOk_shifter (onlyShifter_encClock s) hs
  | fault running => exact sequenceOk_of_frame (sequenceOk_shifter (onlyShifter_finishCell s) hs) rfl rfl rfl
  | reset => exact sequenceOk_resetOf s.cfg
  | runOn => exact sequenceOk_runOnCell hs

/-! ### PUBLISH only where PUB_SITE = RL -/

theorem publishesAtItsSite_of_frame {s t : State} (h : publishesAtItsSite s) (hc : t.cfg = s.cfg) (hr : t.rl = s.rl) :
    publishesAtItsSite t := by
  unfold publishesAtItsSite
  rw [hc, hr]
  exact h

theorem publishesAtItsSite_receiveSide {s t : State} (h : onlyReceiveSide s t) (hs : publishesAtItsSite s) :
    publishesAtItsSite t := publishesAtItsSite_of_frame hs h.1 h.2.1

theorem publishesAtItsSite_shifter {s t : State} (h : onlyShifter s t) (hs : publishesAtItsSite s) :
    publishesAtItsSite t := by
  obtain ⟨e, bits, ticks, rfl, -⟩ := h
  exact hs

/-- A state in another state of the loop than PUBLISH. -/
theorem publishesAtItsSite_of_ne {s : State} (h : s.rl.state ≠ .publish) : publishesAtItsSite s := fun hs => absurd hs h

theorem publishesAtItsSite_blockStep {s t : State} {e : Event} (h : BlockStep s e t) (hs : publishesAtItsSite s) :
    publishesAtItsSite t := by
  cases h with
  | stay => exact hs
  | ready v => exact hs
  | character b running h => exact publishesAtItsSite_receiveSide (onlyReceiveSide_character h) hs
  | readEnds result atBreak running h => exact publishesAtItsSite_receiveSide (onlyReceiveSide_complete h) hs
  | lineTimeout running h => exact publishesAtItsSite_receiveSide (onlyReceiveSide_lineTimeout h) hs
  | take running state full h =>
    obtain ⟨f, -, rfl⟩ := rlTake_ok_iff.1 h
    exact publishesAtItsSite_of_ne nofun
  | map running state h =>
    obtain ⟨f, -, -, rfl⟩ := rlMap_ok_iff.1 h
    exact publishesAtItsSite_of_ne nofun
  | writeEnds running state done =>
    intro h
    by_contra hsite
    simp [setRlState, show s.cfg.pubSite ≠ .rl from hsite] at h
  | publish running state h =>
    obtain ⟨f, -, rfl⟩ := rlPublish_ok_iff.1 h
    exact publishesAtItsSite_of_ne nofun
  | moveWord running busy room h =>
    obtain ⟨w, -, -, rfl⟩ := moveWord_ok_iff.1 h
    exact hs
  | pull running => exact publishesAtItsSite_shifter (onlyShifter_pull s) hs
  | cell running bits => exact publishesAtItsSite_shifter (onlyShifter_cellStep s) hs
  | idle running idle => exact publishesAtItsSite_shifter (onlyShifter_idleTick s) hs
  | tick running => exact publishesAtItsSite_shifter (onlyShifter_tick s) hs
  | clock running => exact publishesAtItsSite_shifter (onlyShifter_encClock s) hs
  | fault running =>
    exact publishesAtItsSite_of_frame (publishesAtItsSite_shifter (onlyShifter_finishCell s) hs) rfl rfl
  | reset => exact publishesAtItsSite_of_ne (by simp [returnByReset, State.powerOn])
  | runOn =>
    unfold runOnCell
    split
    · split <;> exact hs
    · exact hs

/-- Settles O49, by the cases of a step of the block. -/
theorem sequenceNumbersStayConsecutive : Obligations.SequenceNumbersStayConsecutive := by
  intro s t e es hseq hsite hp hc h
  obtain ⟨u, ⟨⟨n, z, rfl⟩, -⟩, hu⟩ := step_block hp hc h
  exact ⟨sequenceOk_blockStep hu hseq hsite, publishesAtItsSite_blockStep hu hsite⟩

end Sys2Proof.Safety
end


section
/-! The statements of `10_state.md`, third part: the state after reset (rules R38 and R39). -/

namespace Sys2Proof.Machine

/-! ### The parameters (rules R4, R67 and R70; U17) -/

/-- The constraints as a list of inequalities. -/
theorem Config.legal_iff {c : Config} :
    c.legal = true ↔ 1 ≤ c.nPix ∧ 1 ≤ c.fifoDepth ∧ 1 ≤ c.seqW ∧ 1 ≤ c.fBit ∧ 1 ≤ c.rxOverhead ∧ 1 ≤ c.t1 ∧ 1 ≤ c.t2 ∧
      1 ≤ c.t3 ∧ c.t3 < c.t1 + c.t2 ∧ c.t1 < c.t2 + c.t3 := by
  simp [Config.legal, and_assoc]

/-- A legal divisor fits in the register (rules R24 and R70). -/
theorem toNat_divisorWord {c : Config} (h : divisorLegal c = true) :
    (divisorWord c).toNat = divisorQuotient c ∧ 256 ≤ divisorQuotient c := by
  simp only [divisorLegal, Bool.and_eq_true, decide_eq_true_eq] at h
  obtain ⟨hlo, hhi⟩ : 256 ≤ divisorQuotient c ∧ divisorQuotient c < 2 ^ 24 := h
  have hword : divisorWord c = BitVec.ofNat 24 (divisorQuotient c) := if_pos hhi
  rw [hword, BitVec.toNat_ofNat, Nat.mod_eq_of_lt hhi]
  exact ⟨rfl, hlo⟩

/-- Settles O12: with a legal divisor the state after reset is rule R38's table. -/
theorem resetGivesTheTable : Obligations.ResetGivesTheTable := by
  intro s hd
  have ht : returnByReset s = (State.powerOn s.cfg).withEnv s.env := by
    rw [returnByReset, State.resetOf_legal hd]
  refine ⟨returnByReset s, rfl, ?_⟩
  rw [ht]
  have hdiv : ((State.powerOn s.cfg).withEnv s.env).enc.clkdiv.toNat = divisorQuotient s.cfg :=
    (toNat_divisorWord hd).1
  simp only [hdiv]
  simp [State.powerOn, divisorQuotient, divFracBits, Config.ticksPerBit]

end Sys2Proof.Machine

namespace Sys2Proof.Safety

open Sys2Proof.Machine

/-! ### The clauses of the invariant, as propositions -/

section
variable {α : Type}

theorem bufferOk_nil (cap : Nat) : bufferOk cap ([] : Memory α) = true := rfl

theorem bufferOk_ofList {vs : List α} {cap : Nat} (h : vs.length ≤ cap) : bufferOk cap (Memory.ofList vs) = true := by
  simp [bufferOk, Memory.wf_ofList, Memory.below_ofList vs h]

theorem bufferOk_write {m : Memory α} {cap i : Nat} (v : α) (hi : i < cap) (h : bufferOk cap m = true) :
    bufferOk cap (Memory.write m i v) = true := by
  simp only [bufferOk, Bool.and_eq_true] at h ⊢
  exact ⟨Memory.wf_write m i v h.1, Memory.below_write m v hi h.2⟩

theorem wf_of_bufferOk {m : Memory α} {cap : Nat} (h : bufferOk cap m = true) : Memory.wf m = true := by
  simp only [bufferOk, Bool.and_eq_true] at h
  exact h.1

theorem written_zero (m : Memory α) (i : Nat) : Memory.written m i 0 = true := by simp [Memory.written]

theorem written_ofList {vs : List α} {n : Nat} (h : vs.length = n) : Memory.written (Memory.ofList vs) 0 n = true := by
  subst h
  simp [Memory.written]

theorem written_of_readBlock {m : Memory α} {i n : Nat} {vs : List α} (h : Memory.readBlock m i n = some vs) :
    Memory.written m i n = true := by simp [Memory.written, h]

/-- Writing the next element of a written block extends it. -/
theorem written_write_next {m : Memory α} {n : Nat} (v : α) (hm : Memory.wf m = true)
    (h : Memory.written m 0 n = true) : Memory.written (Memory.write m n v) 0 (n + 1) = true := by
  obtain ⟨vs, hvs⟩ := Option.isSome_iff_exists.1 h
  exact written_of_readBlock (Memory.readBlock_write_next v hm hvs)

/-- An element that a buffer holds is one of its pairs. -/
theorem mem_of_read {m : Memory α} {i : Nat} {v : α} (h : Memory.read m i = some v) : (i, v) ∈ m := by
  induction m with
  | nil => cases h
  | cons e m ih =>
    obtain ⟨k, w⟩ := e
    simp only [Memory.read] at h
    split at h
    next hk => cases h; simp [hk]
    next => exact List.mem_cons_of_mem _ (ih h)

end

theorem rxOk_iff {c : Config} {r : Rx} :
    rxOk c r = true ↔ r.count < c.rxCap ∧ r.prevLen ≤ c.rxCap ∧ bufferOk c.rxCap r.buf0 = true ∧
      bufferOk c.rxCap r.buf1 = true ∧ Memory.written (r.buf r.active) 0 r.count = true ∧
      serialOk c r.serial = true := by
  simp [rxOk, and_assoc]

theorem rxCap_pos (c : Config) : 0 < c.rxCap := by simp [Config.rxCap, frameLen]

/-- The divider right after its divisor was computed (rules R38 and R130). -/
theorem dividerOk_reset {c : Config} (h : divisorLegal c = true) : dividerOk c (State.powerOn c).enc = true := by
  obtain ⟨hword, hlo⟩ := toNat_divisorWord h
  have hpos : 0 < (divisorWord c).toNat := by omega
  simp [dividerOk, State.powerOn, h, hpos]

theorem inv_resetOf {c : Config} (h : c.legal = true) : Inv (State.resetOf c) where
  legal := by simpa using h
  rx := by simp [rxOk_iff, State.powerOn, rxCap_pos, bufferOk_nil, written_zero, serialOk_closed]
  mbx := by simp [mbxOk, State.powerOn, bufferOk_nil]
  rl := by simp [rlOk, State.powerOn, bufferOk_nil]
  dma := by simp [dmaOk, State.powerOn]
  write := by simp [writeOk, State.powerOn]
  enc := by simp [encOk, State.powerOn, bufferOk_nil]
  tick := by simp [tickOk, State.powerOn]
  divider := by
    cases hd : divisorLegal c with
    | true => exact .inr (by simpa using dividerOk_reset hd)
    | false => exact .inl (by simp [State.resetOf_fatal, hd])
  pub := by simp [pubOk, State.powerOn]
  sys := by unfold State.resetOf; split <;> rfl

theorem buffersOk_resetOf (c : Config) : buffersOk (State.resetOf c) = true := by
  simp [buffersOk, State.powerOn, bufferOk_nil]

/-- Settles O14, clause by clause of the invariant. -/
theorem resetEstablishesTheInvariants : Obligations.ResetEstablishesTheInvariants := by
  have hall : ∀ c : Config, c.legal = true →
      Inv (State.resetOf c) ∧ buffersOk (State.resetOf c) = true ∧ sequenceOk (State.resetOf c) :=
    fun c h => ⟨inv_resetOf h, buffersOk_resetOf c, sequenceOk_resetOf c⟩
  have hreset : State.reset = State.resetOf State.reset.cfg := State.reset_eq_resetOf
  exact ⟨hall, hreset, hreset ▸ hall _ rfl⟩

end Sys2Proof.Safety
end

section
/-! The statements of `10_state.md`, fourth part: every step of the block keeps the invariant of rule R39. -/

namespace Sys2Proof.Safety

open Sys2Proof.Machine

/-! ### The clauses of the invariant, as propositions -/

theorem mbxOk_iff {m : Mbx} :
    mbxOk m = true ↔ bufferOk frameLen m.slot = true ∧
      (m.full = false ∨ Memory.written m.slot 0 frameLen = true) := by
  simp [mbxOk]

theorem rlOk_iff {c : Config} {r : Rl} :
    rlOk c r = true ↔ bufferOk frameLen r.frame = true ∧ bufferOk c.nPix r.pix = true ∧
      (r.state = .publish → c.pubSite = .rl) ∧ (r.state = .take ∨ Memory.written r.frame 0 frameLen = true) ∧
      (r.state = .take ∨ r.state = .map ∨ Memory.written r.pix 0 c.nPix = true) := by
  simp [rlOk, and_assoc, or_assoc, imp_iff_not_or]

theorem dmaOk_iff {c : Config} {st : RlState} {e : Enc} :
    dmaOk c st e = true ↔
      (e.dmaBusy = true → e.dmaIdx < c.nPix ∧ Memory.written e.wordbuf 0 c.nPix = true ∧ st = .write) ∧
      (e.dmaBusy = false → e.dmaIdx = c.nPix ∨ e.dmaIdx = 0 ∧ st ≠ .write) := by
  unfold dmaOk
  cases e.dmaBusy <;> simp [and_assoc]

theorem encOk_iff {c : Config} {e : Enc} :
    encOk c e = true ↔ bufferOk c.nPix e.wordbuf = true ∧ (e.wordbuf.all fun x => lowByteZero x.2) = true ∧
      e.fifo.length ≤ c.fifoDepth ∧ e.fifo.all lowByteZero = true ∧ e.bitsLeft ≤ 24 ∧
      (e.bitsLeft = 0 ∨ lowByteZero e.osr = true) := by
  simp only [encOk, Bool.and_eq_true, Bool.or_eq_true, decide_eq_true_eq, and_assoc]

theorem tickOk_iff {c : Config} {e : Enc} :
    tickOk c e = true ↔ e.tickCnt ≤ phaseTicks c e.phase ∧
      (e.tickCnt ≠ 0 ∨ e.phase = .start ∧ e.led = false) ∧ (e.bitsLeft ≠ 0 ∨ e.tickCnt = 0) := by
  simp [tickOk, and_assoc]

theorem dividerOk_iff {c : Config} {e : Enc} :
    dividerOk c e = true ↔ divisorLegal c = true ∧ e.clkdiv = divisorWord c ∧ e.divAcc < e.clkdiv.toNat := by
  simp [dividerOk, and_assoc]

theorem sysOk_congr {y : Sys} {t t' : Trace} (h : t'.fatal = t.fatal) : sysOk y t' = sysOk y t := by
  unfold sysOk
  rw [h]

theorem sysOk_of_fatal {y : Sys} {t : Trace} (h : y.fatal = true) :
    sysOk y t = true ↔ t.fatal = [.hardwareFault] := by
  simp [sysOk, h]

theorem sysOk_of_running {y : Sys} {t : Trace} (h : y.fatal = false) :
    sysOk y t = true ↔ t.fatal = [] ∧ y.runOn = 0 := by
  simp [sysOk, h]

/-! ### Parts of the state that the invariant does not join to others -/

theorem Inv.withEnv {s : State} (h : Inv s) (x : Env) : Inv (s.withEnv x) := { h with }

theorem Inv.withRx {s : State} {x : Rx} (h : Inv s) (hx : rxOk s.cfg x = true) : Inv (s.withRx x) := { h with rx := hx }

theorem Inv.withMbx {s : State} {x : Mbx} (h : Inv s) (hx : mbxOk x = true) : Inv (s.withMbx x) := { h with mbx := hx }

theorem Inv.withPub {s : State} {x : Pub} (h : Inv s) (hx : pubOk s.cfg x = true) : Inv (s.withPub x) :=
  { h with pub := hx }

theorem Inv.withTrace {s : State} {x : Trace} (h : Inv s) (hx : x.fatal = s.trace.fatal) : Inv (s.withTrace x) :=
  { h with sys := (sysOk_congr hx).trans h.sys }

theorem inv_lineMoved {s t : State} (h : Inv s) (hst : lineMoved s t) : Inv t := by
  obtain ⟨⟨n, z, rfl⟩, hz⟩ := hst
  obtain ⟨hcount, hprev, hbuf0, hbuf1, hwritten, hserial⟩ := rxOk_iff.1 h.rx
  exact h.withRx (rxOk_iff.2 ⟨hcount, hprev, hbuf0, hbuf1, hwritten, hz hserial⟩)

/-! ### The publisher and the mailbox (rules R32, R110, R150 and R151) -/

theorem inv_publish {s : State} (h : Inv s) (c : Ctx) (f : Frame) : Inv (publish c f s) := by
  unfold publish
  split
  · refine Inv.withPub (Inv.withTrace h rfl) ?_
    have hpub := h.pub
    simp only [pubOk, Bool.and_eq_true, decide_eq_true_eq] at hpub ⊢
    have hlt : (s.pub.seq c + 1) % 2 ^ s.cfg.seqW < 2 ^ s.cfg.seqW := Nat.mod_lt _ (Nat.two_pow_pos _)
    cases c
    · exact ⟨hlt, hpub.2⟩
    · exact ⟨hpub.1, hlt⟩
  · exact h.withTrace rfl

theorem inv_deposit {s : State} {f : Frame} (h : Inv s) (hf : f.length = frameLen) : Inv (deposit f s) :=
  h.withMbx (mbxOk_iff.2 ⟨bufferOk_ofList hf.le, .inr (written_ofList hf)⟩)

theorem inv_deliver {n : Nat} {s t : State} (h : Inv s) (ht : deliver n s = .ok t) : Inv t := by
  obtain ⟨f, hf, rfl⟩ := deliver_ok_iff.1 ht
  split
  · exact inv_deposit (inv_publish h .receive f) (length_of_build hf)
  · exact inv_deposit h (length_of_build hf)

/-! ### The receiver (rules R80 to R90) -/

/-- The receiver as a read ends: its chunk may fill the buffer. -/
def readOver (c : Config) (r : Rx) : Prop :=
  r.count ≤ c.rxCap ∧ bufferOk c.rxCap r.buf0 = true ∧ bufferOk c.rxCap r.buf1 = true ∧ serialOk c r.serial = true

theorem readOver_of_inv {s : State} (h : Inv s) : readOver s.cfg s.rx := by
  obtain ⟨hcount, -, hbuf0, hbuf1, -, hserial⟩ := rxOk_iff.1 h.rx
  exact ⟨hcount.le, hbuf0, hbuf1, hserial⟩

/-- Swapping the buffers arms the next read on an empty chunk. -/
theorem inv_swapBuffers {s : State} {x : Rx} (h : Inv s) (hx : readOver s.cfg x) :
    Inv (swapBuffers (s.withRx x)) := by
  obtain ⟨hcount, hbuf0, hbuf1, hserial⟩ := hx
  exact h.withRx (rxOk_iff.2 ⟨rxCap_pos _, hcount, hbuf0, hbuf1, written_zero _ _, hserial⟩)

theorem Inv.withFirst {s : State} (h : Inv s) (b : Bool) : Inv (s.withRx { s.rx with first := b }) := h.withRx h.rx

theorem inv_drop {s : State} (h : Inv s) (kind : ReceiveKind) (atBreak : Bool) : Inv (drop kind atBreak s) := by
  rw [drop_eq]
  exact (h.withFirst (s.rx.first || resyncs s.cfg atBreak)).withTrace
    (x := { s.trace with log := s.trace.log ++ [.receive kind] }) rfl

theorem inv_complete {s t : State} {x : Rx} {result : ReadResult} {atBreak : Bool} (h : Inv s)
    (hx : readOver s.cfg x) (ht : complete result atBreak (s.withRx x) = .ok t) : Inv t := by
  have hswap := inv_swapBuffers h hx
  have ht := complete_ok_iff.1 ht
  cases result with
  | err kind => exact ht ▸ inv_drop hswap kind atBreak
  | ok n =>
    simp only at ht
    split at ht
    · exact ht ▸ hswap.withFirst false
    · exact inv_deliver hswap ht

/-- A stored character fills no other buffer than the active one. -/
theorem bufferOk_setBuf {c : Config} {r : Rx} {m : Memory Byte} (hm : bufferOk c.rxCap m = true)
    (h0 : bufferOk c.rxCap r.buf0 = true) (h1 : bufferOk c.rxCap r.buf1 = true) (j : Bool) :
    bufferOk c.rxCap (r.setBuf j m).buf0 = true ∧ bufferOk c.rxCap (r.setBuf j m).buf1 = true := by
  cases j
  · exact ⟨hm, h1⟩
  · exact ⟨h0, hm⟩

theorem bufferOk_buf {c : Config} {r : Rx} (h0 : bufferOk c.rxCap r.buf0 = true)
    (h1 : bufferOk c.rxCap r.buf1 = true) (j : Bool) : bufferOk c.rxCap (r.buf j) = true := by
  cases j
  · exact h0
  · exact h1

theorem inv_character {b : Byte} {s t : State} (h : Inv s) (ht : character b s = .ok t) : Inv t := by
  obtain ⟨hcount, hprev, hbuf0, hbuf1, hwritten, hserial⟩ := rxOk_iff.1 h.rx
  have hact := bufferOk_buf hbuf0 hbuf1 s.rx.active
  obtain ⟨hbuf0', hbuf1'⟩ := bufferOk_setBuf (bufferOk_write b hcount hact) hbuf0 hbuf1 s.rx.active
  obtain ⟨-, ht⟩ := character_ok_iff.1 ht
  simp only at ht
  split at ht
  next hfull =>
    have hover : readOver s.cfg
        { s.rx.setBuf s.rx.active (Memory.write (s.rx.buf s.rx.active) s.rx.count b) with count := s.rx.count + 1 } :=
      ⟨hfull.le, hbuf0', hbuf1', by simpa using hserial⟩
    exact inv_complete (result := .err .overrun) (atBreak := false) h hover ht
  next hroom =>
    subst ht
    refine h.withRx (rxOk_iff.2 ⟨by simp; omega, by simpa using hprev, hbuf0', hbuf1', ?_, by simpa using hserial⟩)
    have hnext := written_write_next b (wf_of_bufferOk hact) hwritten
    rw [← buf_setBuf_same s.rx s.rx.active (Memory.write _ _ b)] at hnext
    simpa [Rx.buf] using hnext

theorem inv_lineTimeout {s t : State} (h : Inv s) (ht : lineTimeout s = .ok t) : Inv t := by
  obtain ⟨u, hu, rfl⟩ := lineTimeout_ok_iff.1 ht
  exact (inv_complete (x := s.rx) h (readOver_of_inv h) hu).withFirst true

/-! ### The render loop (rules R120 to R124) -/

theorem inv_rlTake {s t : State} (h : Inv s) (state : s.rl.state = .take) (ht : rlTake s = .ok t) : Inv t := by
  obtain ⟨f, hf, rfl⟩ := rlTake_ok_iff.1 ht
  obtain ⟨hslot, -⟩ := mbxOk_iff.1 h.mbx
  obtain ⟨-, hpix, -⟩ := rlOk_iff.1 h.rl
  obtain ⟨hbusy, hidle⟩ := dmaOk_iff.1 h.dma
  have hlen := Memory.length_of_readBlock (wf_of_bufferOk hslot) hf
  have hnot : s.enc.dmaBusy ≠ true := fun hb => nomatch state.symm.trans (hbusy hb).2.2
  exact
    { h with
      mbx := rfl
      rl := rlOk_iff.2 ⟨bufferOk_ofList hlen.le, hpix, nofun, .inr (written_ofList hlen), .inr (.inl rfl)⟩
      dma := dmaOk_iff.2 ⟨fun hb => absurd hb hnot, fun hb => (hidle hb).imp_right fun h => ⟨h.1, nofun⟩⟩
      write := rfl }

/-- The transfer words of pixels have a zero low byte (rule R65). -/
theorem all_lowByteZero_ofListAt (ps : List Pixel) (i : Nat) :
    ((Memory.ofListAt i (ps.map packPixel)).all fun x => lowByteZero x.2) = true := by
  induction ps generalizing i with
  | nil => rfl
  | cons p ps ih =>
    simp only [List.map_cons, Memory.ofListAt, List.all_cons, ih, Bool.and_true]
    exact decide_eq_true (unpackWord_packPixel p).2

theorem inv_rlMap {s t : State} (h : Inv s) (state : s.rl.state = .map) (ht : rlMap s = .ok t) : Inv t := by
  obtain ⟨hframe, -, -, hwritten, -⟩ := rlOk_iff.1 h.rl
  obtain ⟨-, -, hfifo, hlow, hbits, hosr⟩ := encOk_iff.1 h.enc
  obtain ⟨hnPix, -⟩ := Config.legal_iff.1 h.legal
  have hwrite := writeOk_of_rlMap ht
  obtain ⟨f, -, -, rfl⟩ := rlMap_ok_iff.1 ht
  have hlen : (mapFrame s.cfg.nPix f).length = s.cfg.nPix := length_mapFrame _ f
  have hlen' : ((mapFrame s.cfg.nPix f).map packPixel).length = s.cfg.nPix := by simp
  exact
    { h with
      rl := rlOk_iff.2 ⟨hframe, bufferOk_ofList hlen.le, nofun, .inr (by simpa [state] using hwritten),
        .inr (.inr (written_ofList hlen))⟩
      dma := dmaOk_iff.2 ⟨fun _ => ⟨hnPix, written_ofList hlen', rfl⟩, nofun⟩
      write := hwrite
      enc := encOk_iff.2 ⟨bufferOk_ofList hlen'.le, all_lowByteZero_ofListAt _ 0, hfifo, hlow, hbits, hosr⟩ }

/-- With no transfer running the loop may go back to `TAKE`, or from `WRITE` to `PUBLISH` where it publishes. -/
theorem inv_setRlState {s : State} {st : RlState} (h : Inv s)
    (hst : st = .take ∨ st = .publish ∧ s.cfg.pubSite = .rl ∧ s.rl.state = .write)
    (hdone : s.enc.dmaBusy = false) : Inv (setRlState st s) := by
  obtain ⟨hframe, hpix, -, hwf, hwp⟩ := rlOk_iff.1 h.rl
  obtain ⟨-, hidle⟩ := dmaOk_iff.1 h.dma
  have hne : st ≠ .write := by rintro rfl; simp at hst
  exact
    { h with
      rl := by
        obtain rfl | ⟨rfl, hsite, hw⟩ := hst
        · exact rlOk_iff.2 ⟨hframe, hpix, nofun, .inl rfl, .inl rfl⟩
        · exact rlOk_iff.2 ⟨hframe, hpix, fun _ => hsite, .inr (hwf.resolve_left (by simp [hw])),
            .inr (.inr ((hwp.resolve_left (by simp [hw])).resolve_left (by simp [hw])))⟩
      dma := dmaOk_iff.2 ⟨fun hb => by simp [setRlState, hdone] at hb,
        fun _ => (hidle hdone).imp_right fun h => ⟨h.1, hne⟩⟩
      write := by simp [writeOk, setRlState, hne] }

theorem inv_writeEnds {s : State} (h : Inv s) (state : s.rl.state = .write) (done : s.enc.dmaBusy = false) :
    Inv (setRlState (if s.cfg.pubSite = .rl then .publish else .take) s) := by
  split
  next hsite => exact inv_setRlState h (.inr ⟨rfl, hsite, state⟩) done
  next => exact inv_setRlState h (.inl rfl) done

theorem inv_rlPublish {s t : State} (h : Inv s) (state : s.rl.state = .publish) (ht : rlPublish s = .ok t) : Inv t := by
  obtain ⟨f, -, rfl⟩ := rlPublish_ok_iff.1 ht
  obtain ⟨hbusy, -⟩ := dmaOk_iff.1 h.dma
  refine inv_setRlState (inv_publish h .render f) (.inl rfl) ?_
  rw [publish_enc]
  by_contra hb
  simp [state, hb] at hbusy

/-! ### The transfer (rules R133 and R137) -/

theorem inv_moveWord {s t : State} (h : Inv s) (busy : s.enc.dmaBusy = true)
    (room : s.enc.fifo.length < s.cfg.fifoDepth) (ht : moveWord s = .ok t) : Inv t := by
  obtain ⟨w, hlt, hread, rfl⟩ := moveWord_ok_iff.1 ht
  obtain ⟨hbuf, hwords, -, hlow, hbits, hosr⟩ := encOk_iff.1 h.enc
  obtain ⟨-, hwritten, hstate⟩ := (dmaOk_iff.1 h.dma).1 busy
  have hw : lowByteZero w = true := List.all_eq_true.1 hwords _ (mem_of_read hread)
  exact
    { h with
      dma := by
        refine dmaOk_iff.2 ?_
        by_cases hlast : s.enc.dmaIdx + 1 = s.cfg.nPix
        · simp [hlast]
        · simp [hlast, busy, hwritten, hstate]
          omega
      enc := encOk_iff.2 ⟨hbuf, hwords, by simpa using room, by simp [hw]; simpa using hlow, hbits, hosr⟩ }

/-! ### The bit generator (rules R30, R31, R67, R134, R135 and R138) -/

theorem lowByteZero_iff {w : Word} : lowByteZero w = true ↔ ∀ i < 8, w.getLsbD i = false := by
  simp only [lowByteZero, decide_eq_true_eq]
  constructor
  · intro h i hi
    have := congrArg (fun x => x.getLsbD i) h
    simpa [hi] using this
  · intro h
    refine BitVec.eq_of_getLsbD_eq fun i hi => ?_
    simp [h i hi]

/-- Shifting left keeps a zero low byte. -/
theorem lowByteZero_shiftLeft {w : Word} (h : lowByteZero w = true) : lowByteZero (w <<< 1) = true := by
  rw [lowByteZero_iff] at h ⊢
  intro i hi
  simp [h (i - 1) (by omega)]

theorem inv_pull {s : State} (h : Inv s) : Inv (pull s) := by
  obtain ⟨w, ws, hfifo, hbits, heq⟩ | ⟨-, heq⟩ := pull_cases s <;> rw [heq]
  case inr => exact h
  case inl =>
    obtain ⟨hbuf, hwords, hlen, hlow, -⟩ := encOk_iff.1 h.enc
    obtain ⟨hle, hcell, hidle⟩ := tickOk_iff.1 h.tick
    simp only [hfifo, List.length_cons, List.all_cons, Bool.and_eq_true] at hlen hlow
    exact
      { h with
        enc := encOk_iff.2 ⟨hbuf, hwords, by simp; omega, hlow.2, le_rfl, .inr hlow.1⟩
        tick := tickOk_iff.2 ⟨hle, hcell, .inl (by simp)⟩ }

theorem inv_idleTick {s : State} (h : Inv s) : Inv (idleTick s) := by
  obtain ⟨hle, hcell, hidle⟩ := tickOk_iff.1 h.tick
  exact
    { h.withTrace (x := s.trace.emitTick false) rfl with
      tick := tickOk_iff.2 ⟨hle, hcell.imp_right fun h => ⟨h.1, rfl⟩, hidle⟩ }

/-- A cell has ended: its bit is shifted out and counted, and the line is low at a boundary. -/
theorem inv_cellEnds {s : State} {x : Trace} (h : Inv s) (hx : x.fatal = s.trace.fatal) :
    Inv ((s.withTrace x).withEnc
      { s.enc with
        osr := s.enc.osr <<< 1, bitsLeft := s.enc.bitsLeft - 1, phase := .start, tickCnt := 0, led := false }) := by
  obtain ⟨hbuf, hwords, hlen, hlow, hbits, hosr⟩ := encOk_iff.1 h.enc
  exact
    { h.withTrace hx with
      enc := encOk_iff.2 ⟨hbuf, hwords, hlen, hlow, by simp; omega,
        hosr.imp (fun h => by simp [h]) lowByteZero_shiftLeft⟩
      tick := tickOk_iff.2 ⟨Nat.zero_le _, .inr ⟨rfl, rfl⟩, .inr rfl⟩ }

/-- A cell goes on in a sub-phase with ticks left. -/
theorem inv_cellGoesOn {s : State} {x : Trace} {ph : Phase} {n : Nat} (h : Inv s) (hx : x.fatal = s.trace.fatal)
    (hb : s.enc.bitsLeft ≠ 0) (hn : n ≠ 0) (hle : n ≤ phaseTicks s.cfg ph) (v : Level) :
    Inv ((s.withTrace x).withEnc { s.enc with led := v, phase := ph, tickCnt := n }) :=
  { h.withTrace hx with tick := tickOk_iff.2 ⟨hle, .inl hn, .inl hb⟩ }

theorem phaseTicks_ne_zero {c : Config} (h : c.legal = true) (ph : Phase) : phaseTicks c ph ≠ 0 := by
  have := Config.legal_iff.1 h
  cases ph <;> simp only [phaseTicks] <;> omega

/-- The ticks left in the coming tick's sub-phase are within the sub-phase. -/
theorem tickPhase_le {s : State} (h : Inv s) : (tickPhase s).2 ≤ phaseTicks s.cfg (tickPhase s).1 := by
  unfold tickPhase
  split
  · exact le_rfl
  · exact (tickOk_iff.1 h.tick).1

/-- Everything a tick inside a cell can do: its sub-phase goes on, the next one is loaded, or the cell ends. -/
theorem cellTick_cases (s : State) :
    let v := phaseLevel (nextBit s) (tickPhase s).1
    (∃ ph n, (ph = (tickPhase s).1 ∧ n = (tickPhase s).2 - 1 ∧ n ≠ 0 ∨ n = phaseTicks s.cfg ph) ∧
      cellTick s = (s.withTrace (s.trace.emitTick v)).withEnc { s.enc with led := v, phase := ph, tickCnt := n }) ∨
    cellTick s = (s.withTrace { s.trace.emitTick v with ledBits := s.trace.ledBits ++ [nextBit s] }).withEnc
      { s.enc with
        osr := s.enc.osr <<< 1, bitsLeft := s.enc.bitsLeft - 1, phase := .start, tickCnt := 0, led := false } := by
  by_cases hn : (tickPhase s).2 - 1 = 0
  · cases hph : (tickPhase s).1 with
    | start => exact .inl ⟨.data, s.cfg.t2, .inr rfl, by simp [cellTick, hn, hph]⟩
    | data => exact .inl ⟨.stop, s.cfg.t3, .inr rfl, by simp [cellTick, hn, hph]⟩
    | stop => exact .inr (by simp [cellTick, hn, hph]; rfl)
  · exact .inl ⟨_, _, .inl ⟨rfl, rfl, hn⟩, by simp [cellTick, hn]⟩

theorem inv_cellTick {s : State} (h : Inv s) (hb : s.enc.bitsLeft ≠ 0) : Inv (cellTick s) := by
  have hle := tickPhase_le h
  obtain ⟨ph, n, hn, heq⟩ | heq := cellTick_cases s <;> rw [heq]
  · obtain ⟨rfl, rfl, hn⟩ | rfl := hn
    · exact inv_cellGoesOn (x := s.trace.emitTick _) h rfl hb hn (by omega) _
    · exact inv_cellGoesOn (x := s.trace.emitTick _) h rfl hb (phaseTicks_ne_zero h.legal ph) le_rfl _
  · exact inv_cellEnds h rfl

theorem inv_tick {s : State} (h : Inv s) : Inv (tick s) := by
  unfold tick
  simp only
  split
  next hb => exact inv_idleTick (inv_pull h)
  next hb => exact inv_cellTick (inv_pull h) hb

theorem inv_finishCell {s : State} (h : Inv s) : Inv (finishCell s) := by
  unfold finishCell
  split
  · exact inv_cellEnds h rfl
  · exact h

/-- A clock of the encoder (rule R143): the accumulator stays below the divisor. -/
theorem inv_encClock {s : State} (h : Inv s) (running : s.sys.fatal = false) : Inv (encClock s) := by
  obtain ⟨hlegal, hword, hacc⟩ := dividerOk_iff.1 (h.divider.resolve_left (by simp [running]))
  have hdiv := toNat_divisorWord hlegal
  rw [← hword] at hdiv
  have hset : ∀ n, n < s.enc.clkdiv.toNat → Inv (s.withEnc { s.enc with divAcc := n }) := fun n hn =>
    { h with divider := .inr (dividerOk_iff.2 ⟨hlegal, hword, hn⟩) }
  have hpow : 2 ^ divFracBits = 256 := rfl
  unfold encClock
  simp only
  split
  · exact inv_tick (hset _ (by omega))
  · exact hset _ (by omega)

/-! ### SYS (rules R142, R165 and R190) -/

theorem inv_takeHardwareFault {s : State} (h : Inv s) (running : s.sys.fatal = false) :
    Inv (takeHardwareFault s) := by
  obtain ⟨hnone, -⟩ := (sysOk_of_running running).1 h.sys
  exact { h with divider := .inl rfl, sys := (sysOk_of_fatal rfl).2 (by simp [takeHardwareFault_eq, hnone]) }

theorem inv_runOnCell {s : State} (h : Inv s) : Inv (runOnCell s) := by
  unfold runOnCell
  split
  case isFalse => exact h
  case isTrue hf =>
    split
    · exact h
    · have hone := (sysOk_of_fatal hf).1 h.sys
      exact { h with sys := (sysOk_of_fatal (y := { s.sys with runOn := s.sys.runOn + 1 }) hf).2 hone }

theorem finishCell_sys (s : State) : (finishCell s).sys = s.sys := by
  obtain ⟨_, _, _, heq, -⟩ := onlyShifter_finishCell s
  rw [heq]; rfl

/-! ### Every step -/

theorem inv_blockStep {s t : State} {e : Event} (h : Inv s) (hst : BlockStep s e t) : Inv t := by
  cases hst with
  | stay => exact h
  | ready v => exact h.withEnv _
  | character b running ht => exact inv_character h ht
  | readEnds result atBreak running ht => exact inv_complete (x := s.rx) h (readOver_of_inv h) ht
  | lineTimeout running ht => exact inv_lineTimeout h ht
  | take running state full ht => exact inv_rlTake h state ht
  | map running state ht => exact inv_rlMap h state ht
  | writeEnds running state done => exact inv_writeEnds h state done
  | publish running state ht => exact inv_rlPublish h state ht
  | moveWord running busy room ht => exact inv_moveWord h busy room ht
  | pull running => exact inv_pull h
  | cell running bits => exact inv_cellEnds h rfl
  | idle running idle => exact inv_idleTick h
  | tick running => exact inv_tick h
  | clock running => exact inv_encClock h running
  | fault running => exact inv_takeHardwareFault (inv_finishCell h) (by simpa [finishCell_sys] using running)
  | reset => exact (inv_resetOf h.legal).withEnv s.env
  | runOn => exact inv_runOnCell h

/-! ### Rule R39's last clause as it is written -/

theorem writeNotCompleted_of_frame {s t : State} (h : writeNotCompleted s) (hr : t.rl = s.rl)
    (hb : t.enc.dmaBusy = s.enc.dmaBusy) : writeNotCompleted t := by
  unfold writeNotCompleted encDone
  rw [hr, hb]
  exact h

theorem writeNotCompleted_receiveSide {s t : State} (h : writeNotCompleted s) (hst : onlyReceiveSide s t) :
    writeNotCompleted t := by
  obtain ⟨-, hrl, henc, -⟩ := hst
  exact writeNotCompleted_of_frame h hrl (by rw [henc])

theorem writeNotCompleted_shifter {s t : State} (h : writeNotCompleted s) (hst : onlyShifter s t) :
    writeNotCompleted t := by
  obtain ⟨e, bits, ticks, rfl, -, hb, -⟩ := hst
  exact writeNotCompleted_of_frame h rfl hb

theorem writeNotCompleted_of_ne {s : State} (h : s.rl.state ≠ .write) : writeNotCompleted s := fun hs => absurd hs h

/-- RL.WRITE's own step in a running block whose write is complete (rule R123). -/
theorem exec_rlWrite_of_done {s : State} (running : s.sys.fatal = false) (state : s.rl.state = .write)
    (done : s.enc.dmaBusy = false) :
    exec .rlWrite s = .next (s.withRl { s.rl with state := if s.cfg.pubSite = .rl then .publish else .take }) := by
  simp only [exec, execRlWrite, live_ok running, state, encDone, done, setRlState]
  rfl

/-- The word that ENC.DMA moves leaves the write in progress, unless it is the last. -/
theorem writeNotCompleted_moveWord {s t : State} (h : Inv s) (hs : writeNotCompleted s) (running : s.sys.fatal = false)
    (busy : s.enc.dmaBusy = true) (ht : moveWord s = .ok t) :
    writeNotCompleted t ∨ t.rl.state = .write ∧ t.enc.dmaIdx = t.cfg.nPix ∧
      exec .rlWrite t = .next (t.withRl { t.rl with state := if t.cfg.pubSite = .rl then .publish else .take }) := by
  obtain ⟨-, -, hstate⟩ := (dmaOk_iff.1 h.dma).1 busy
  cases hdone : encDone t with
  | false => exact .inl fun _ => hdone
  | true =>
    have hlast := encDone_moveWord ht (hs hstate) hdone
    obtain ⟨w, -, -, rfl⟩ := moveWord_ok_iff.1 ht
    have hidle := hdone
    simp only [encDone, Bool.not_eq_true'] at hidle
    exact .inr ⟨hstate, hlast, exec_rlWrite_of_done running hstate hidle⟩

theorem writeNotCompleted_runOnCell {s : State} (h : writeNotCompleted s) : writeNotCompleted (runOnCell s) := by
  unfold runOnCell
  split
  · split <;> exact h
  · exact h

theorem writeNotCompleted_blockStep {s t : State} {e : Event} (h : Inv s) (hst : BlockStep s e t)
    (hs : writeNotCompleted s) :
    writeNotCompleted t ∨ e = .run .dma ∧ t.rl.state = .write ∧ t.enc.dmaIdx = t.cfg.nPix ∧
      exec .rlWrite t = .next (t.withRl { t.rl with state := if t.cfg.pubSite = .rl then .publish else .take }) := by
  cases hst with
  | moveWord running busy room ht => exact (writeNotCompleted_moveWord h hs running busy ht).imp_right (⟨rfl, ·⟩)
  | stay => exact .inl hs
  | ready v => exact .inl hs
  | character b running ht => exact .inl (writeNotCompleted_receiveSide hs (onlyReceiveSide_character ht))
  | readEnds result atBreak running ht =>
    exact .inl (writeNotCompleted_receiveSide hs (onlyReceiveSide_complete ht))
  | lineTimeout running ht => exact .inl (writeNotCompleted_receiveSide hs (onlyReceiveSide_lineTimeout ht))
  | take running state full ht =>
    obtain ⟨f, -, rfl⟩ := rlTake_ok_iff.1 ht
    exact .inl (writeNotCompleted_of_ne nofun)
  | map running state ht =>
    obtain ⟨f, -, -, rfl⟩ := rlMap_ok_iff.1 ht
    exact .inl fun _ => rfl
  | writeEnds running state done =>
    have := hs state
    simp [encDone, done] at this
  | publish running state ht =>
    obtain ⟨f, -, rfl⟩ := rlPublish_ok_iff.1 ht
    exact .inl (writeNotCompleted_of_ne nofun)
  | pull running => exact .inl (writeNotCompleted_shifter hs (onlyShifter_pull s))
  | cell running bits => exact .inl (writeNotCompleted_shifter hs (onlyShifter_cellStep s))
  | idle running idle => exact .inl (writeNotCompleted_shifter hs (onlyShifter_idleTick s))
  | tick running => exact .inl (writeNotCompleted_shifter hs (onlyShifter_tick s))
  | clock running => exact .inl (writeNotCompleted_shifter hs (onlyShifter_encClock s))
  | fault running =>
    exact .inl (writeNotCompleted_of_frame (writeNotCompleted_shifter hs (onlyShifter_finishCell s)) rfl rfl)
  | reset => exact .inl (writeNotCompleted_of_ne (by simp [returnByReset, State.powerOn]))
  | runOn => exact .inl (writeNotCompleted_runOnCell hs)

/-- Settles O56, by the cases of a step of the block. -/
theorem everyStepKeepsTheInvariant : Obligations.EveryStepKeepsTheInvariant := by
  intro s t e es h hp hc ht
  obtain ⟨u, hmoved, hst⟩ := step_block hp hc ht
  have hu : Inv u := inv_lineMoved (h.withEnv _) hmoved
  refine ⟨inv_blockStep hu hst, fun hs => writeNotCompleted_blockStep hu hst ?_⟩
  obtain ⟨⟨n, z, rfl⟩, -⟩ := hmoved
  exact hs

end Sys2Proof.Safety
end

section
/-! The statements of `10_state.md`, fifth part: the fatal state (rules R33, R91, R142 and R165). -/

namespace Sys2Proof.Machine

open Sys2Proof.Safety

/-! ### No operation runs -/

/-- Every operation but SYS.RESET is an operation of a unit. -/
theorem exec_eq_live {i : Instr} (hi : i ≠ .sysReset) (s : State) : ∃ r, exec i s = live s r := by
  cases i with
  | sysReset => exact absurd rfl hi
  | _ =>
    simp only [exec, execRxArm, execRxChr, execRxBrk, execRxFerrStop1, execRxFerrStop2, execRxFull, execRxComplete,
      execRxDiscard, execRxBuild, execRxDeliver, execRxDrop, execRxIdle, execMbxDeposit, execMbxTake, execRlTake,
      execRlMap, execRlWrite, execRlPublish, execEncInit, execEncWrite, execEncPack, execEncDma, execEncDone,
      execEncPull, execEncCell0, execEncCell1, execEncIdle, execPubPublish, execPubPublishFail, execSysFault]
    exact ⟨_, rfl⟩

/-- Settles O52: an operation of a unit does not run while the block is fatal. -/
theorem noOperationRunsWhileFatal : Obligations.NoOperationRunsWhileFatal := by
  intro s i hf hi
  obtain ⟨r, hr⟩ := exec_eq_live hi s
  rw [hr, live_of_fatal hf]

/-! ### No event but reset reaches a unit -/

theorem ne_sysReset_of_isLineOp {i : Instr} (h : isLineOp i) : i ≠ .sysReset := by
  rintro rfl
  exact h

theorem select_ne_sysReset (a : Agent) (s : State) : select a s ≠ .sysReset := by
  unfold select
  cases a with
  | rl => cases s.rl.state <;> nofun
  | dma => nofun
  | shift =>
    simp only
    repeat' split
    all_goals nofun

/-- A character window has no effect in the fatal state (rule R91). -/
theorem perform_lineWindow_of_fatal {s : State} (hf : s.sys.fatal = true) (w : BitVec 11) :
    perform (lineWindow w s) = .next s := by
  have hy := yields_lineWindow (P := (· = s)) w rfl
  revert hy
  cases lineWindow w s with
  | run i t =>
    rintro ⟨hi, rfl⟩
    exact noOperationRunsWhileFatal t i hf (ne_sysReset_of_isLineOp hi)
  | quiet t => rintro rfl; rfl
  | reject r => exact False.elim

/-- What an event other than reset and a direct call does in the fatal state: at most the surroundings change, or one
more cell goes out. -/
theorem perform_fetch_of_fatal {s : State} {e : Event} (hf : s.sys.fatal = true) (hc : isCall e = false)
    (hr : e ≠ .rst) :
    (∃ x, perform (fetch e s) = .next (s.withEnv x)) ∨
      e = .runOn ∧ perform (fetch e s) = .next (runOnCell s) := by
  have hop : ∀ i, i ≠ .sysReset → perform (.run i s) = .next (s.withEnv s.env) := fun i =>
    noOperationRunsWhileFatal s i hf
  cases e with
  | window w => exact .inl ⟨s.env, perform_lineWindow_of_fatal hf w⟩
  | idle => exact .inl ⟨_, hop _ nofun⟩
  | lineBit v => exact .inl ⟨s.env, by rw [fetch, lineBit_of_fatal hf]; rfl⟩
  | lineClk v => exact .inl ⟨s.env, by rw [fetch, lineClock_of_fatal hf]; rfl⟩
  | run a => exact .inl ⟨_, hop _ (select_ne_sysReset a s)⟩
  | encTick => exact .inl ⟨s.env, by rw [fetch, fetchTick_of_fatal hf]; rfl⟩
  | encClk => exact .inl ⟨s.env, by rw [fetch, if_pos hf]; rfl⟩
  | ready v => exact .inl ⟨_, rfl⟩
  | encFault => exact .inl ⟨_, hop _ nofun⟩
  | rst => exact absurd rfl hr
  | runOn => exact .inr ⟨rfl, rfl⟩
  | call c => cases hc

/-! ### The cells that still go out (rule R142) -/

/-- Everything a run-on can do in the fatal state: nothing is owed, or the first bit owed goes out. -/
theorem runOnCell_cases {s : State} (hf : s.sys.fatal = true) :
    runOnCell s = s ∨
      ∃ v, owed s = v :: owed (runOnCell s) ∧
        runOnCell s =
          (s.withTrace (s.trace.emitCell v (cellTicks s.cfg v))).withSys { s.sys with runOn := s.sys.runOn + 1 } := by
  unfold runOnCell
  rw [if_pos hf]
  cases ho : owed s with
  | nil => exact .inl rfl
  | cons v vs =>
    refine .inr ⟨v, ?_, rfl⟩
    have hrest : (owedBits s).drop (s.sys.runOn + 1) = vs := by
      rw [← List.tail_drop]
      exact congrArg List.tail ho
    exact congrArg (v :: ·) hrest.symm

/-- Settles O53: the event leaves every unit alone, or it is a run-on and one more owed bit goes out. -/
theorem fatalStopsEveryUnit : Obligations.FatalStopsEveryUnit := by
  intro s e es hl hf hp hc hr
  rw [step_cons hl hp, dropEvent_eq hp]
  have hf' : (withPending s es).sys.fatal = true := hf
  obtain ⟨x, hx⟩ | ⟨rfl, hx⟩ := perform_fetch_of_fatal hf' hc hr
  · exact ⟨_, hx, rfl, rfl, rfl, rfl, rfl, rfl, hf, rfl, rfl, rfl, .inl ⟨rfl, rfl⟩⟩
  · refine ⟨_, hx, ?_⟩
    obtain hnone | ⟨v, ho, hcell⟩ := runOnCell_cases hf'
    · rw [hnone]
      exact ⟨rfl, rfl, rfl, rfl, rfl, rfl, hf, rfl, rfl, rfl, .inl ⟨rfl, rfl⟩⟩
    · rw [hcell] at ho ⊢
      exact ⟨rfl, rfl, rfl, rfl, rfl, rfl, hf, rfl, rfl, rfl, .inr ⟨rfl, v, ho, rfl, rfl⟩⟩

end Sys2Proof.Machine
end

section
/-! The statements of `10_state.md`, sixth part: the output traces are written and never read (rules R34 and R175).
Every operation gives the same result from a state and from the state with another trace, but for the trace. -/

namespace Sys2Proof.Safety

open Sys2Proof.Machine

/-- A result with the output traces of its state emptied. -/
def forgetResult : Except Fault State → Except Fault State := Except.map forgetTraces

/-- What an event comes to, with the output traces emptied. -/
def forgetFetched : Fetched → Fetched
  | .run i s => .run i (forgetTraces s)
  | .quiet s => .quiet (forgetTraces s)
  | .reject r => .reject r

@[simp] theorem forgetTraces_withTrace (s : State) (x : Trace) : forgetTraces (s.withTrace x) = forgetTraces s := rfl

@[simp] theorem forgetResult_ok (s : State) : forgetResult (.ok s) = .ok (forgetTraces s) := rfl

@[simp] theorem forgetResult_error (f : Fault) : forgetResult (.error f) = .error f := rfl

/-- Two choices by the same condition, whose branches agree under `g`, agree under `g`. -/
theorem map_ite_congr {α β : Type} (g : α → β) {c c' : Prop} [Decidable c] [Decidable c'] {a b a' b' : α}
    (hc : c' ↔ c) (ha : g a' = g a) (hb : g b' = g b) : g (if c' then a' else b') = g (if c then a else b) := by
  simp only [hc, apply_ite g, ha, hb]

/-- States that are equal but for their traces differ by a trace. -/
theorem eq_withTrace_of_forgetTraces {s t : State} (h : forgetTraces s = forgetTraces t) :
    t = s.withTrace t.trace := by
  have h' := congrArg (State.withTrace · t.trace) h
  exact h'.symm

section
variable (s : State) (x : Trace)

/-! ### Operations of a unit, and those that a condition enables -/

theorem forget_live {r r' : Except Fault State} (h : forgetResult r' = forgetResult r) :
    forgetOutcome (live (s.withTrace x) r') = forgetOutcome (live s r) := by
  refine map_ite_congr forgetOutcome Iff.rfl rfl ?_
  cases r <;> cases r' <;> simp_all [forgetOutcome]

theorem forget_live_ok {t t' : State} (h : forgetTraces t' = forgetTraces t) :
    forgetOutcome (live (s.withTrace x) (.ok t')) = forgetOutcome (live s (.ok t)) :=
  forget_live s x (congrArg Except.ok h)

/-- An operation that a condition enables. -/
theorem forget_live_ite {c c' : Prop} [Decidable c] [Decidable c'] {r r' : Except Fault State} (hc : c' ↔ c)
    (h : forgetResult r' = forgetResult r) :
    forgetOutcome (live (s.withTrace x) (if c' then r' else .ok (s.withTrace x))) =
      forgetOutcome (live s (if c then r else .ok s)) :=
  forget_live s x (map_ite_congr forgetResult hc h rfl)

theorem forget_live_ok_ite {c c' : Prop} [Decidable c] [Decidable c'] {t t' : State} (hc : c' ↔ c)
    (h : forgetTraces t' = forgetTraces t) :
    forgetOutcome (live (s.withTrace x) (.ok (if c' then t' else s.withTrace x))) =
      forgetOutcome (live s (.ok (if c then t else s))) :=
  forget_live_ok s x (map_ite_congr forgetTraces hc h rfl)

/-! ### The receiver -/

theorem forget_publish (c : Ctx) (f : Frame) :
    forgetTraces (publish c f (s.withTrace x)) = forgetTraces (publish c f s) :=
  map_ite_congr forgetTraces Iff.rfl rfl rfl

theorem forget_drop (kind : ReceiveKind) (atBreak : Bool) :
    forgetTraces (drop kind atBreak (s.withTrace x)) = forgetTraces (drop kind atBreak s) := by
  rw [drop_eq, drop_eq]
  rfl

theorem build_withTrace (n : Nat) : build n (s.withTrace x) = build n s := rfl

theorem forget_deposit {s t : State} (f : Frame) (h : forgetTraces s = forgetTraces t) :
    forgetTraces (deposit f s) = forgetTraces (deposit f t) := by
  rw [eq_withTrace_of_forgetTraces h]
  rfl

theorem forget_deliver (n : Nat) : forgetResult (deliver n (s.withTrace x)) = forgetResult (deliver n s) := by
  simp only [deliver, build_withTrace, State.withTrace_cfg]
  cases build n s with
  | error e => rfl
  | ok f =>
    exact congrArg Except.ok
      (forget_deposit f (map_ite_congr forgetTraces Iff.rfl (forget_publish s x .receive f) rfl))

theorem forget_complete (result : ReadResult) (atBreak : Bool) :
    forgetResult (complete result atBreak (s.withTrace x)) = forgetResult (complete result atBreak s) := by
  have hswap : swapBuffers (s.withTrace x) = (swapBuffers s).withTrace x := rfl
  simp only [complete, hswap, State.withTrace_rx]
  cases result with
  | err kind => exact congrArg Except.ok (forget_drop _ x kind atBreak)
  | ok n => exact map_ite_congr forgetResult Iff.rfl rfl (forget_deliver _ x n)

theorem forget_character (b : Byte) : forgetResult (character b (s.withTrace x)) = forgetResult (character b s) := by
  simp only [character, State.withTrace_rx, State.withTrace_cfg]
  cases bufWrite .rxBuf s.cfg.rxCap (s.rx.buf s.rx.active) s.rx.count b with
  | error e => rfl
  | ok m =>
    exact map_ite_congr forgetResult Iff.rfl (forget_complete (s.withRx _) x (.err .overrun) false) rfl

theorem forget_lineTimeout : forgetResult (lineTimeout (s.withTrace x)) = forgetResult (lineTimeout s) := by
  have h := forget_complete s x (.ok s.rx.count) false
  simp only [lineTimeout, State.withTrace_rx]
  revert h
  cases complete (.ok s.rx.count) false (s.withTrace x) <;> cases complete (.ok s.rx.count) false s <;>
    simp only [forgetResult_ok, forgetResult_error, Except.ok.injEq, Except.error.injEq, reduceCtorEq, imp_self]
  intro h
  rw [eq_withTrace_of_forgetTraces h]
  rfl

/-! ### The mailbox and the render loop -/

theorem forget_mbxTake :
    forgetOutcome (execMbxTake (s.withTrace x)) = forgetOutcome (execMbxTake s) := by
  refine forget_live s x (map_ite_congr forgetResult Iff.rfl ?_ rfl)
  simp only [takeFrame, State.withTrace_mbx]
  cases bufBlock .slot s.mbx.slot frameLen <;> rfl

theorem forget_rlTake : forgetResult (rlTake (s.withTrace x)) = forgetResult (rlTake s) := by
  simp only [rlTake, takeFrame, State.withTrace_mbx]
  cases bufBlock .slot s.mbx.slot frameLen <;> rfl

theorem forget_write (px : List Pixel) : forgetResult (write px (s.withTrace x)) = forgetResult (write px s) :=
  map_ite_congr forgetResult Iff.rfl rfl rfl

theorem forget_rlMap : forgetResult (rlMap (s.withTrace x)) = forgetResult (rlMap s) := by
  simp only [rlMap, State.withTrace_rl]
  cases bufBlock .rlFrame s.rl.frame frameLen with
  | error e => rfl
  | ok f => exact forget_write (s.withRl _) x _

theorem forget_rlPublish : forgetResult (rlPublish (s.withTrace x)) = forgetResult (rlPublish s) := by
  simp only [rlPublish, State.withTrace_rl]
  cases bufBlock .rlFrame s.rl.frame frameLen with
  | error e => rfl
  | ok f =>
    have h := forget_publish s x .render f
    simp only [forgetResult_ok]
    rw [eq_withTrace_of_forgetTraces h]
    rfl

/-! ### The encoder -/

theorem forget_initialise : forgetTraces (initialise (s.withTrace x)) = forgetTraces (initialise s) :=
  map_ite_congr forgetTraces Iff.rfl rfl rfl

theorem forget_moveWord : forgetResult (moveWord (s.withTrace x)) = forgetResult (moveWord s) := by
  simp only [moveWord, State.withTrace_cfg, State.withTrace_enc]
  cases bufRead .wordbuf s.cfg.nPix s.enc.wordbuf s.enc.dmaIdx with
  | error e => rfl
  | ok w => exact congrArg Except.ok (map_ite_congr forgetTraces Iff.rfl rfl rfl)

theorem pull_withTrace : pull (s.withTrace x) = (pull s).withTrace x := by
  simp only [pull, State.withTrace_enc]
  cases s.enc.fifo with
  | nil => rfl
  | cons w ws =>
    rw [apply_ite (State.withTrace · x)]
    rfl

theorem forget_cellTick : forgetTraces (cellTick (s.withTrace x)) = forgetTraces (cellTick s) := by
  have hphase : tickPhase (s.withTrace x) = tickPhase s := rfl
  refine map_ite_congr forgetTraces Iff.rfl ?_ rfl
  rw [hphase]
  cases (tickPhase s).1 <;> rfl

theorem forget_tick : forgetTraces (tick (s.withTrace x)) = forgetTraces (tick s) := by
  simp only [tick, pull_withTrace]
  exact map_ite_congr forgetTraces Iff.rfl rfl (forget_cellTick (pull s) x)

theorem forget_encClock : forgetTraces (encClock (s.withTrace x)) = forgetTraces (encClock s) :=
  map_ite_congr forgetTraces Iff.rfl (forget_tick (s.withEnc _) x) rfl

theorem forget_finishCell : forgetTraces (finishCell (s.withTrace x)) = forgetTraces (finishCell s) :=
  map_ite_congr forgetTraces Iff.rfl rfl rfl

theorem forget_sysFault :
    forgetTraces (takeHardwareFault (finishCell (s.withTrace x))) =
      forgetTraces (takeHardwareFault (finishCell s)) := by
  rw [eq_withTrace_of_forgetTraces (forget_finishCell s x)]
  rfl

theorem forget_runOnCell : forgetTraces (runOnCell (s.withTrace x)) = forgetTraces (runOnCell s) := by
  have howed : owed (s.withTrace x) = owed s := rfl
  refine map_ite_congr forgetTraces Iff.rfl ?_ rfl
  rw [howed]
  cases owed s <;> rfl

/-! ### The line -/

theorem forget_lineWindow (w : BitVec 11) :
    forgetFetched (lineWindow w (s.withTrace x)) = forgetFetched (lineWindow w s) := by
  simp only [lineWindow]
  cases decodeSerial w <;> rfl

theorem takeSample_withTrace (v : Level) : takeSample v (s.withTrace x) = (takeSample v s).withTrace x := by
  simp only [takeSample]
  rw [apply_ite (State.withTrace · x)]
  rfl

theorem forget_endBit (v : Level) :
    forgetFetched (endBit v (s.withTrace x)) = forgetFetched (endBit v s) :=
  map_ite_congr forgetFetched Iff.rfl rfl (forget_lineWindow (closeWindow _ s) x _)

theorem forget_idleBit : forgetFetched (idleBit (s.withTrace x)) = forgetFetched (idleBit s) :=
  map_ite_congr forgetFetched Iff.rfl rfl (map_ite_congr forgetFetched Iff.rfl rfl rfl)

/-- A condition of the state's own chooses alike with another trace. -/
theorem ite_withTrace (c : Prop) [Decidable c] (t u : State) :
    (if c then t.withTrace x else u.withTrace x) = (if c then t else u).withTrace x :=
  (apply_ite (State.withTrace · x) c t u).symm

theorem forget_windowBit (v : Level) :
    forgetFetched (windowBit v (s.withTrace x)) = forgetFetched (windowBit v s) := by
  simp only [windowBit, takeSample_withTrace, State.withTrace_rx, ite_withTrace]
  exact map_ite_congr forgetFetched Iff.rfl (forget_endBit _ x v) rfl

theorem forget_windowClock (v : Level) :
    forgetFetched (windowClock v (s.withTrace x)) = forgetFetched (windowClock v s) := by
  simp only [windowClock, takeSample_withTrace, State.withTrace_rx, State.withTrace_cfg, ite_withTrace]
  exact map_ite_congr forgetFetched Iff.rfl (map_ite_congr forgetFetched Iff.rfl (forget_endBit _ x v) rfl) rfl

theorem forget_lineBit (v : Level) :
    forgetFetched (lineBit v (s.withTrace x)) = forgetFetched (lineBit v s) :=
  map_ite_congr forgetFetched Iff.rfl rfl <|
    map_ite_congr forgetFetched Iff.rfl (by cases v <;> rfl) <|
      map_ite_congr forgetFetched Iff.rfl (forget_windowBit s x v) <|
        map_ite_congr forgetFetched Iff.rfl (forget_idleBit s x) (forget_windowBit (openWindow s) x false)

theorem forget_lineClock (v : Level) :
    forgetFetched (lineClock v (s.withTrace x)) = forgetFetched (lineClock v s) :=
  map_ite_congr forgetFetched Iff.rfl rfl <|
    map_ite_congr forgetFetched Iff.rfl (by cases v <;> rfl) <|
      map_ite_congr forgetFetched Iff.rfl (forget_windowClock s x v) <|
        map_ite_congr forgetFetched Iff.rfl
          (map_ite_congr forgetFetched Iff.rfl (forget_idleBit (setBaud 0 s) x) rfl)
          (forget_windowClock (openWindow s) x false)

theorem forget_fetchTick : forgetFetched (fetchTick (s.withTrace x)) = forgetFetched (fetchTick s) :=
  map_ite_congr forgetFetched Iff.rfl rfl <|
    map_ite_congr forgetFetched Iff.rfl rfl (congrArg Fetched.quiet (forget_tick s x))

/-! ### The operations and the step -/

theorem forget_rxBuild (n : Nat) :
    forgetOutcome (execRxBuild n (s.withTrace x)) = forgetOutcome (execRxBuild n s) := by
  refine forget_live s x ?_
  rw [build_withTrace]
  cases build n s <;> rfl

theorem forget_pubPublish (c : Ctx) (f : Frame) :
    forgetOutcome (execPubPublish c f (s.withTrace x)) = forgetOutcome (execPubPublish c f s) := by
  refine forget_live_ok s x ?_
  rw [eq_withTrace_of_forgetTraces (forget_publish s x c f)]
  rfl

theorem forget_exec (i : Instr) : forgetOutcome (exec i (s.withTrace x)) = forgetOutcome (exec i s) := by
  cases i with
  | rxArm => exact forget_live_ok s x (t' := arm (s.withTrace x)) (t := arm s) rfl
  | rxChr b => exact forget_live s x (forget_character s x b)
  | rxBrk => exact forget_live s x (forget_complete s x (breakResult s) true)
  | rxFerrStop1 d v => exact forget_live s x (forget_complete s x (.err .framing) false)
  | rxFerrStop2 d => exact forget_live s x (forget_complete s x (.err .framing) false)
  | rxFull => exact forget_live s x (forget_complete s x (.err .overrun) false)
  | rxComplete result atBreak => exact forget_live s x (forget_complete s x result atBreak)
  | rxDiscard => exact forget_live_ok s x (t' := discard (s.withTrace x)) (t := discard s) rfl
  | rxBuild n => exact forget_rxBuild s x n
  | rxDeliver n => exact forget_live s x (forget_deliver s x n)
  | rxDrop kind atBreak => exact forget_live_ok s x (forget_drop s x kind atBreak)
  | rxIdle => exact forget_live_ite s x Iff.rfl (forget_lineTimeout s x)
  | mbxDeposit frame => exact forget_live_ok s x (forget_deposit frame (forgetTraces_withTrace s x))
  | mbxTake => exact forget_mbxTake s x
  | rlTake => exact forget_live_ite s x Iff.rfl (forget_rlTake s x)
  | rlMap => exact forget_live_ite s x Iff.rfl (forget_rlMap s x)
  | rlWrite => exact forget_live_ok_ite s x Iff.rfl rfl
  | rlPublish => exact forget_live_ite s x Iff.rfl (forget_rlPublish s x)
  | encInit => exact forget_live_ok s x (forget_initialise s x)
  | encWrite pixels => exact forget_live s x (forget_write s x pixels)
  | encPack pixels => exact forget_live_ok s x (t' := pack pixels (s.withTrace x)) (t := pack pixels s) rfl
  | encDma => exact forget_live_ite s x Iff.rfl (forget_moveWord s x)
  | encDone => exact forget_live_ok s x (t' := transferDone (s.withTrace x)) (t := transferDone s) rfl
  | encPull => exact forget_live_ok s x (t := pull s) (by rw [pull_withTrace, forgetTraces_withTrace])
  | encCell0 => exact forget_live_ok_ite s x Iff.rfl rfl
  | encCell1 => exact forget_live_ok_ite s x Iff.rfl rfl
  | encIdle => exact forget_live_ok_ite s x Iff.rfl rfl
  | pubPublish ctx frame => exact forget_pubPublish s x ctx frame
  | pubPublishFail ctx frame => exact forget_live_ok s x (map_ite_congr forgetTraces Iff.rfl rfl rfl)
  | sysFault => exact forget_live_ok s x (forget_sysFault s x)
  | sysReset => rfl

theorem forget_fetch (e : Event) : forgetFetched (fetch e (s.withTrace x)) = forgetFetched (fetch e s) := by
  cases e with
  | window w => exact forget_lineWindow s x w
  | lineBit v => exact forget_lineBit s x v
  | lineClk v => exact forget_lineClock s x v
  | idle => rfl
  | run a => rfl
  | encTick => exact forget_fetchTick s x
  | encClk =>
    exact congrArg Fetched.quiet (map_ite_congr forgetTraces Iff.rfl rfl (forget_encClock s x))
  | ready v => rfl
  | encFault => rfl
  | rst => rfl
  | runOn => exact congrArg Fetched.quiet (forget_runOnCell s x)
  | call c =>
    simp only [fetch, fetchCall, State.withTrace_cfg]
    split <;> rfl

end

/-- What is performed is blind to the traces too. -/
theorem forget_perform {f g : Fetched} (h : forgetFetched g = forgetFetched f) :
    forgetOutcome (perform g) = forgetOutcome (perform f) := by
  cases f <;> cases g <;> simp only [forgetFetched, reduceCtorEq, Fetched.run.injEq, Fetched.quiet.injEq,
    Fetched.reject.injEq] at h
  case run.run i s j t =>
    obtain ⟨rfl, h⟩ := h
    rw [eq_withTrace_of_forgetTraces h]
    exact (forget_exec t s.trace j).symm
  case quiet.quiet s t => exact congrArg Host.Outcome.next h
  case reject.reject => rw [h]

theorem forget_step (s : State) (x : Trace) : forgetOutcome (step (s.withTrace x)) = forgetOutcome (step s) := by
  refine map_ite_congr forgetOutcome Iff.rfl ?_ rfl
  rw [State.withTrace_env]
  cases s.env.pending with
  | nil => rfl
  | cons e es => exact forget_perform (forget_fetch (dropEvent s) x e)

/-- Settles O60, operation by operation. -/
theorem outputTracesAreNeverRead : Obligations.OutputTracesAreNeverRead := by
  intro s t h
  rw [eq_withTrace_of_forgetTraces h]
  exact (forget_step s t.trace).symm

end Sys2Proof.Safety
end

section
/-! The statements of `20_memory.md`, first part: no step of the block stops (rules R43 and R166; U1). Each operation
that reads a buffer, writes an index or needs the encoder at rest finds what it needs in the invariant. -/

namespace Sys2Proof.Safety

open Sys2Proof.Machine

/-! ### An operation of a unit answers when its effect is a state -/

theorem live_answers {s : State} {r : Except Fault State} (h : ∃ t, r = .ok t) : ∃ t, live s r = .next t := by
  obtain ⟨t, rfl⟩ := h
  cases hf : s.sys.fatal with
  | true => exact ⟨s, live_of_fatal hf _⟩
  | false => exact ⟨t, live_ok hf t⟩

/-- An operation that a condition enables need only answer when it is enabled. -/
theorem live_ite_answers {s : State} {c : Prop} [Decidable c] {r : Except Fault State} (h : c → ∃ t, r = .ok t) :
    ∃ t, live s (if c then r else .ok s) = .next t := by
  refine live_answers ?_
  split
  next hc => exact h hc
  next => exact ⟨s, rfl⟩

theorem live_ok_answers (s t : State) : ∃ u, live s (.ok t) = .next u := live_answers ⟨t, rfl⟩

/-! ### The receiver reads what it has stored and stores inside its buffer (rules R12, R14, R43 and R87) -/

theorem build_answers {n : Nat} {s : State} (hwf : Memory.wf (s.rx.buf (!s.rx.active)) = true)
    (h : Memory.written (s.rx.buf (!s.rx.active)) 0 n = true) : ∃ f, build n s = .ok f := by
  obtain ⟨bytes, hbytes⟩ := Option.isSome_iff_exists.1 h
  exact ⟨_, build_ok_iff.2 ⟨_, Memory.readBlock_take hwf (Nat.min_le_left n frameLen) hbytes, rfl⟩⟩

/-- After the swap the previous buffer holds the chunk that ended. -/
theorem build_swapBuffers_answers {s : State} (h : Inv s) : ∃ f, build s.rx.count (swapBuffers s) = .ok f := by
  obtain ⟨-, -, hbuf0, hbuf1, hwritten, -⟩ := rxOk_iff.1 h.rx
  have hprev : (swapBuffers s).rx.buf (!(swapBuffers s).rx.active) = s.rx.buf s.rx.active := by
    simp [swapBuffers_eq, Rx.buf]
  refine build_answers ?_ ?_ <;> rw [hprev]
  · exact wf_of_bufferOk (bufferOk_buf hbuf0 hbuf1 _)
  · exact hwritten

/-- A read that ends with an error, or with the length of the open chunk. -/
theorem complete_answers {result : ReadResult} {atBreak : Bool} {s : State} (h : Inv s)
    (hr : ∀ n, result = .ok n → n = s.rx.count) : ∃ t, complete result atBreak s = .ok t := by
  cases result with
  | err kind => exact ⟨_, complete_ok_iff.2 rfl⟩
  | ok n =>
    obtain rfl := hr n rfl
    simp only [complete_ok_iff]
    split
    · exact ⟨_, rfl⟩
    · obtain ⟨f, hf⟩ := build_swapBuffers_answers h
      exact ⟨_, deliver_ok_iff.2 ⟨f, hf, rfl⟩⟩

theorem breakResult_length {s : State} {n : Nat} (h : breakResult s = .ok n) : n = s.rx.count := by
  unfold breakResult at h
  split at h <;> cases h
  rfl

theorem character_answers {s : State} (h : Inv s) (b : Byte) : ∃ t, character b s = .ok t := by
  obtain ⟨hcount, -⟩ := rxOk_iff.1 h.rx
  simp only [character_ok_iff, hcount, true_and]
  split
  · exact ⟨_, complete_ok_iff.2 rfl⟩
  · exact ⟨_, rfl⟩

theorem lineTimeout_answers {s : State} (h : Inv s) : ∃ t, lineTimeout s = .ok t := by
  obtain ⟨u, hu⟩ := complete_answers (result := .ok s.rx.count) (atBreak := false) h fun n hn => by cases hn; rfl
  exact ⟨_, lineTimeout_ok_iff.2 ⟨u, hu, rfl⟩⟩

theorem exec_lineOp_answers {s : State} {i : Instr} (h : Inv s) (hi : isLineOp i) : ∃ t, exec i s = .next t := by
  cases i <;> simp only [isLineOp] at hi
  case rxChr b => exact live_answers (character_answers h b)
  case rxBrk => exact live_answers (complete_answers h fun _ => breakResult_length)
  case rxFerrStop1 => exact live_answers (r := framingError s) (complete_answers h nofun)
  case rxFerrStop2 => exact live_answers (r := framingError s) (complete_answers h nofun)
  case rxIdle => exact live_ite_answers fun _ => lineTimeout_answers h

/-- A line event ends in a next state, whatever its levels come to. -/
theorem perform_yields_answers {s : State} {f : Fetched} (h : Inv s) (hf : yields (lineMoved s) f) :
    ∃ t, perform f = .next t := by
  cases f with
  | run i u => exact exec_lineOp_answers (inv_lineMoved h hf.2) hf.1
  | quiet u => exact ⟨u, rfl⟩
  | reject r => exact hf.elim

/-! ### The render loop owns a whole frame and requests no write while one runs (rules R18, R22, R45 and R131) -/

theorem rlTake_answers {s : State} (h : Inv s) (full : s.mbx.full = true) : ∃ t, rlTake s = .ok t := by
  obtain ⟨-, hwritten⟩ := mbxOk_iff.1 h.mbx
  obtain ⟨f, hf⟩ := Option.isSome_iff_exists.1 (hwritten.resolve_left (by simp [full]))
  exact ⟨_, rlTake_ok_iff.2 ⟨f, hf, rfl⟩⟩

/-- Outside `TAKE` the loop owns a whole frame. -/
theorem readBlock_frame_of_inv {s : State} (h : Inv s) (state : s.rl.state ≠ .take) :
    ∃ f, Memory.readBlock s.rl.frame 0 frameLen = some f := by
  obtain ⟨-, -, -, hwritten, -⟩ := rlOk_iff.1 h.rl
  exact Option.isSome_iff_exists.1 (hwritten.resolve_left state)

/-- Outside `WRITE` no transfer runs (rule R50). -/
theorem dmaIdle_of_inv {s : State} (h : Inv s) (state : s.rl.state ≠ .write) : s.enc.dmaBusy = false := by
  obtain ⟨hbusy, -⟩ := dmaOk_iff.1 h.dma
  exact Bool.eq_false_iff.2 fun hb => state (hbusy hb).2.2

theorem rlMap_answers {s : State} (h : Inv s) (state : s.rl.state = .map) : ∃ t, rlMap s = .ok t := by
  obtain ⟨f, hf⟩ := readBlock_frame_of_inv h (by simp [state])
  exact ⟨_, rlMap_ok_iff.2 ⟨f, hf, dmaIdle_of_inv h (by simp [state]), rfl⟩⟩

theorem rlPublish_answers {s : State} (h : Inv s) (state : s.rl.state = .publish) : ∃ t, rlPublish s = .ok t := by
  obtain ⟨f, hf⟩ := readBlock_frame_of_inv h (by simp [state])
  exact ⟨_, rlPublish_ok_iff.2 ⟨f, hf, rfl⟩⟩

theorem exec_rl_answers {s : State} (h : Inv s) : ∃ t, exec (select .rl s) s = .next t := by
  unfold select
  cases hst : s.rl.state
  case take => exact live_ite_answers fun hc => rlTake_answers h hc.2
  case map => exact live_ite_answers (rlMap_answers h)
  case write => exact live_ok_answers s _
  case publish => exact live_ite_answers (rlPublish_answers h)

/-! ### The transfer reads a packed word (rules R26, R132 and R133) -/

theorem moveWord_answers {s : State} (h : Inv s) (busy : s.enc.dmaBusy = true) : ∃ t, moveWord s = .ok t := by
  obtain ⟨hlt, hwritten, -⟩ := (dmaOk_iff.1 h.dma).1 busy
  obtain ⟨hbuf, -⟩ := encOk_iff.1 h.enc
  have hread := (Memory.written_iff (wf_of_bufferOk hbuf)).1 hwritten s.enc.dmaIdx hlt
  obtain ⟨w, hw⟩ := Option.isSome_iff_exists.1 hread
  exact ⟨_, moveWord_ok_iff.2 ⟨w, hlt, hw, rfl⟩⟩

theorem exec_dma_answers {s : State} (h : Inv s) : ∃ t, exec .encDma s = .next t := by
  refine live_ite_answers fun hc => moveWord_answers h ?_
  simp only [dmaEnabled, Bool.and_eq_true] at hc
  exact hc.1

/-! ### The shifter's operations always answer -/

theorem exec_shift_answers (s : State) : ∃ t, exec (select .shift s) s = .next t := by
  unfold select
  simp only
  split
  · split <;> exact live_ok_answers s _
  · split <;> exact live_ok_answers s _

theorem perform_fetchTick_answers (s : State) : ∃ t, perform (fetchTick s) = .next t := by
  unfold fetchTick
  split
  · exact ⟨s, rfl⟩
  split
  · exact live_ok_answers s _
  · exact ⟨tick s, rfl⟩

/-! ### Every event -/

theorem perform_fetch_answers {s : State} {e : Event} (h : Inv s) (hc : isCall e = false) :
    ∃ t, perform (fetch e s) = .next t := by
  cases e with
  | window w => exact perform_yields_answers h (yields_lineWindow w (.refl s))
  | lineBit v => exact perform_yields_answers h (yields_lineBit v s)
  | lineClk v => exact perform_yields_answers h (yields_lineClock v s)
  | idle => exact exec_lineOp_answers (i := .rxIdle) h trivial
  | run a =>
    cases a with
    | rl => exact exec_rl_answers h
    | dma => exact exec_dma_answers h
    | shift => exact exec_shift_answers s
  | encTick => exact perform_fetchTick_answers s
  | encFault => exact live_ok_answers s _
  | encClk => exact ⟨_, rfl⟩
  | ready v => exact ⟨_, rfl⟩
  | rst => exact ⟨_, rfl⟩
  | runOn => exact ⟨_, rfl⟩
  | call c => cases hc

/-- Settles O57, event by event: the invariant holds of the state in which the event is fetched. -/
theorem noStepOfTheBlockStops : Obligations.NoStepOfTheBlockStops := by
  intro s e es h hp hc
  rw [step_cons h.legal hp]
  exact perform_fetch_answers (h.withEnv _) hc

end Sys2Proof.Safety
end

section
/-! The statements of `20_memory.md`, second part: every step keeps the buffers in canonical form and within their
sizes (rules R40 and R43). A direct call is covered because its operands are decoded, and so fit their buffers. -/

namespace Sys2Proof.Safety

open Sys2Proof.Machine

theorem buffersOk_iff {s : State} :
    buffersOk s = true ↔ bufferOk s.cfg.rxCap s.rx.buf0 = true ∧ bufferOk s.cfg.rxCap s.rx.buf1 = true ∧
      bufferOk frameLen s.mbx.slot = true ∧ bufferOk frameLen s.rl.frame = true ∧
      bufferOk s.cfg.nPix s.rl.pix = true ∧ bufferOk s.cfg.nPix s.enc.wordbuf = true := by
  simp [buffersOk, and_assoc]

/-! ### One buffer replaced -/

theorem buffersOk_withRx {s : State} {x : Rx} (h : buffersOk s = true) (h0 : bufferOk s.cfg.rxCap x.buf0 = true)
    (h1 : bufferOk s.cfg.rxCap x.buf1 = true) : buffersOk (s.withRx x) = true := by
  obtain ⟨-, -, hrest⟩ := buffersOk_iff.1 h
  exact buffersOk_iff.2 ⟨h0, h1, hrest⟩

theorem buffersOk_withMbx {s : State} {x : Mbx} (h : buffersOk s = true) (hx : bufferOk frameLen x.slot = true) :
    buffersOk (s.withMbx x) = true := by
  obtain ⟨h0, h1, -, hrest⟩ := buffersOk_iff.1 h
  exact buffersOk_iff.2 ⟨h0, h1, hx, hrest⟩

theorem buffersOk_withRl {s : State} {x : Rl} (h : buffersOk s = true) (hf : bufferOk frameLen x.frame = true)
    (hp : bufferOk s.cfg.nPix x.pix = true) : buffersOk (s.withRl x) = true := by
  obtain ⟨h0, h1, hslot, -, -, hw⟩ := buffersOk_iff.1 h
  exact buffersOk_iff.2 ⟨h0, h1, hslot, hf, hp, hw⟩

theorem buffersOk_withEnc {s : State} {x : Enc} (h : buffersOk s = true)
    (hx : bufferOk s.cfg.nPix x.wordbuf = true) : buffersOk (s.withEnc x) = true := by
  obtain ⟨h0, h1, hslot, hf, hp, -⟩ := buffersOk_iff.1 h
  exact buffersOk_iff.2 ⟨h0, h1, hslot, hf, hp, hx⟩

/-! ### The mailbox and the receiver (rules R81 to R90 and R110) -/

theorem buffersOk_deposit {s : State} {f : Frame} (h : buffersOk s = true) (hf : f.length ≤ frameLen) :
    buffersOk (deposit f s) = true := buffersOk_withMbx h (bufferOk_ofList hf)

theorem buffersOk_publish {s : State} (h : buffersOk s = true) (c : Ctx) (f : Frame) :
    buffersOk (publish c f s) = true := by
  unfold publish
  split <;> exact h

theorem buffersOk_deliver {n : Nat} {s t : State} (h : buffersOk s = true) (ht : deliver n s = .ok t) :
    buffersOk t = true := by
  obtain ⟨f, hf, rfl⟩ := deliver_ok_iff.1 ht
  split
  · exact buffersOk_deposit (buffersOk_publish h .receive f) (length_of_build hf).le
  · exact buffersOk_deposit h (length_of_build hf).le

theorem buffersOk_drop {s : State} (h : buffersOk s = true) (kind : ReceiveKind) (atBreak : Bool) :
    buffersOk (drop kind atBreak s) = true := by
  rw [drop_eq]
  exact h

theorem buffersOk_complete {result : ReadResult} {atBreak : Bool} {s t : State} (h : buffersOk s = true)
    (ht : complete result atBreak s = .ok t) : buffersOk t = true := by
  have hswap : buffersOk (swapBuffers s) = true := h
  have ht := complete_ok_iff.1 ht
  cases result with
  | err kind => exact ht ▸ buffersOk_drop hswap kind atBreak
  | ok n =>
    simp only at ht
    split at ht
    · exact ht ▸ hswap
    · exact buffersOk_deliver hswap ht

theorem buffersOk_character {b : Byte} {s t : State} (h : buffersOk s = true) (ht : character b s = .ok t) :
    buffersOk t = true := by
  obtain ⟨h0, h1, -⟩ := buffersOk_iff.1 h
  obtain ⟨hcount, ht⟩ := character_ok_iff.1 ht
  have hact := bufferOk_write b hcount (bufferOk_buf h0 h1 s.rx.active)
  obtain ⟨h0', h1'⟩ := bufferOk_setBuf hact h0 h1 s.rx.active
  have hstored := buffersOk_withRx
    (x := { s.rx.setBuf s.rx.active (Memory.write (s.rx.buf s.rx.active) s.rx.count b) with count := s.rx.count + 1 })
    h h0' h1'
  simp only at ht
  split at ht
  · exact buffersOk_complete (result := .err .overrun) (atBreak := false) hstored ht
  · exact ht ▸ hstored

theorem buffersOk_lineTimeout {s t : State} (h : buffersOk s = true) (ht : lineTimeout s = .ok t) :
    buffersOk t = true := by
  obtain ⟨u, hu, rfl⟩ := lineTimeout_ok_iff.1 ht
  exact buffersOk_complete (t := u) h hu

/-! ### The render loop and the encoder (rules R111, R120 to R124 and R130 to R135) -/

/-- The frame that a block read gives fits a frame buffer. -/
theorem bufferOk_of_readBlock {m : Memory Byte} {cap : Nat} {f : Frame} (hm : bufferOk cap m = true)
    (hf : Memory.readBlock m 0 frameLen = some f) : bufferOk frameLen (Memory.ofList f) = true :=
  bufferOk_ofList (Memory.length_of_readBlock (wf_of_bufferOk hm) hf).le

theorem buffersOk_rlTake {s t : State} (h : buffersOk s = true) (ht : rlTake s = .ok t) : buffersOk t = true := by
  obtain ⟨f, hf, rfl⟩ := rlTake_ok_iff.1 ht
  obtain ⟨-, -, hslot, -, hpix, -⟩ := buffersOk_iff.1 h
  exact buffersOk_withRl (buffersOk_withMbx h (bufferOk_nil _)) (bufferOk_of_readBlock hslot hf) hpix

theorem buffersOk_write {px : List Pixel} {s t : State} (h : buffersOk s = true) (hpx : px.length ≤ s.cfg.nPix)
    (ht : write px s = .ok t) : buffersOk t = true := by
  obtain ⟨-, rfl⟩ := write_ok_iff.1 ht
  exact buffersOk_withEnc h (bufferOk_ofList (by simpa using hpx))

theorem buffersOk_pack {px : List Pixel} {s : State} (h : buffersOk s = true) (hpx : px.length ≤ s.cfg.nPix) :
    buffersOk (pack px s) = true := buffersOk_withEnc h (bufferOk_ofList (by simpa using hpx))

theorem buffersOk_rlMap {s t : State} (h : buffersOk s = true) (ht : rlMap s = .ok t) : buffersOk t = true := by
  obtain ⟨f, -, -, rfl⟩ := rlMap_ok_iff.1 ht
  obtain ⟨-, -, -, hframe, -⟩ := buffersOk_iff.1 h
  have hpix := buffersOk_withRl (x := { s.rl with pix := Memory.ofList (mapFrame s.cfg.nPix f), state := .write })
    h hframe (bufferOk_ofList (by simp))
  exact buffersOk_withEnc hpix (bufferOk_ofList (by simp))

theorem buffersOk_rlPublish {s t : State} (h : buffersOk s = true) (ht : rlPublish s = .ok t) :
    buffersOk t = true := by
  obtain ⟨f, -, rfl⟩ := rlPublish_ok_iff.1 ht
  exact buffersOk_publish h .render f

theorem buffersOk_initialise {s : State} (h : buffersOk s = true) : buffersOk (initialise s) = true := by
  unfold initialise
  split <;> exact h

theorem buffersOk_moveWord {s t : State} (h : buffersOk s = true) (ht : moveWord s = .ok t) : buffersOk t = true := by
  obtain ⟨w, -, -, rfl⟩ := moveWord_ok_iff.1 ht
  exact h

theorem buffersOk_shifter {s t : State} (h : buffersOk s = true) (hst : onlyShifter s t) : buffersOk t = true := by
  obtain ⟨e, bits, ticks, rfl, hw, -⟩ := hst
  obtain ⟨-, -, -, -, -, hwordbuf⟩ := buffersOk_iff.1 h
  exact buffersOk_withEnc (s := s) h (hw ▸ hwordbuf)

theorem buffersOk_runOnCell {s : State} (h : buffersOk s = true) : buffersOk (runOnCell s) = true := by
  unfold runOnCell
  split
  · split <;> exact h
  · exact h

/-! ### Every operation -/

/-- The arrays that an operation writes into a buffer fit it. -/
def operandsFit (c : Config) : Instr → Prop
  | .mbxDeposit frame => frame.length ≤ frameLen
  | .encWrite pixels | .encPack pixels => pixels.length ≤ c.nPix
  | _ => True

theorem operandsFit_of_wf {c : Config} {i : Instr} (h : i.wf c = true) : operandsFit c i := by
  cases i with
  | mbxDeposit frame => exact (of_decide_eq_true h).le
  | encWrite pixels => exact (of_decide_eq_true h).le
  | encPack pixels => exact (of_decide_eq_true h).le
  | _ => trivial

theorem operandsFit_of_isLineOp {i : Instr} (c : Config) (h : isLineOp i) : operandsFit c i := by
  cases i with
  | mbxDeposit frame => exact False.elim h
  | encWrite pixels => exact False.elim h
  | encPack pixels => exact False.elim h
  | _ => trivial

theorem operandsFit_select (a : Agent) (s : State) : operandsFit s.cfg (select a s) := by
  unfold select
  cases a with
  | rl => cases s.rl.state <;> trivial
  | dma => trivial
  | shift =>
    simp only
    repeat' split
    all_goals trivial

/-- A unit's operation keeps the buffers when each state it can end in does. -/
theorem buffersOk_of_live {s t : State} {r : Except Fault State} (h : buffersOk s = true)
    (ht : live s r = .next t) (hr : r = .ok t → buffersOk t = true) : buffersOk t = true := by
  obtain ⟨-, rfl⟩ | ⟨-, hok⟩ := live_next_iff.1 ht
  · exact h
  · exact hr hok

/-- The same for an operation that a condition enables. -/
theorem buffersOk_of_live_ite {s t : State} {c : Prop} [Decidable c] {r : Except Fault State} (h : buffersOk s = true)
    (ht : live s (if c then r else .ok s) = .next t) (hr : r = .ok t → buffersOk t = true) : buffersOk t = true := by
  refine buffersOk_of_live h ht fun hok => ?_
  split at hok
  · exact hr hok
  · cases hok; exact h

/-- The same for an operation whose effect is a plain state. -/
theorem buffersOk_of_live_ok {s t u : State} (h : buffersOk s = true) (ht : live s (.ok u) = .next t)
    (hu : buffersOk u = true) : buffersOk t = true := by
  refine buffersOk_of_live h ht fun hok => ?_
  cases hok
  exact hu

theorem buffersOk_ite {s t : State} {c : Prop} [Decidable c] (ht : buffersOk t = true) (hs : buffersOk s = true) :
    buffersOk (if c then t else s) = true := by
  split
  · exact ht
  · exact hs

theorem buffersOk_rxBuild {n : Nat} {s t : State} (h : buffersOk s = true) (ht : execRxBuild n s = .next t) :
    buffersOk t = true := by
  refine buffersOk_of_live h ht fun hok => ?_
  split at hok <;> cases hok
  exact h

theorem buffersOk_mbxTake {s t : State} (h : buffersOk s = true) (ht : execMbxTake s = .next t) :
    buffersOk t = true := by
  refine buffersOk_of_live_ite h ht fun hok => ?_
  split at hok <;> cases hok
  next f u htake =>
  obtain ⟨-, rfl⟩ := takeFrame_ok_iff.1 htake
  exact buffersOk_withMbx (s := s) h (bufferOk_nil _)

theorem buffersOk_exec {i : Instr} {s t : State} (h : buffersOk s = true) (hi : operandsFit s.cfg i)
    (ht : exec i s = .next t) : buffersOk t = true := by
  cases i with
  | rxArm => exact buffersOk_of_live_ok (u := arm s) h ht h
  | rxChr b => exact buffersOk_of_live h ht (buffersOk_character h)
  | rxBrk => exact buffersOk_of_live h ht (buffersOk_complete h)
  | rxFerrStop1 d x => exact buffersOk_of_live (r := framingError s) h ht (buffersOk_complete h)
  | rxFerrStop2 d => exact buffersOk_of_live (r := framingError s) h ht (buffersOk_complete h)
  | rxFull => exact buffersOk_of_live (r := readFull s) h ht (buffersOk_complete h)
  | rxComplete result atBreak => exact buffersOk_of_live h ht (buffersOk_complete h)
  | rxDiscard => exact buffersOk_of_live_ok (u := discard s) h ht h
  | rxBuild n => exact buffersOk_rxBuild h ht
  | rxDeliver n => exact buffersOk_of_live h ht (buffersOk_deliver h)
  | rxDrop kind atBreak => exact buffersOk_of_live_ok h ht (buffersOk_drop h kind atBreak)
  | rxIdle => exact buffersOk_of_live_ite h ht (buffersOk_lineTimeout h)
  | mbxDeposit frame => exact buffersOk_of_live_ok h ht (buffersOk_deposit h hi)
  | mbxTake => exact buffersOk_mbxTake h ht
  | rlTake => exact buffersOk_of_live_ite h ht (buffersOk_rlTake h)
  | rlMap => exact buffersOk_of_live_ite h ht (buffersOk_rlMap h)
  | rlWrite => exact buffersOk_of_live_ok h ht (buffersOk_ite h h)
  | rlPublish => exact buffersOk_of_live_ite h ht (buffersOk_rlPublish h)
  | encInit => exact buffersOk_of_live_ok h ht (buffersOk_initialise h)
  | encWrite pixels => exact buffersOk_of_live h ht (buffersOk_write h hi)
  | encPack pixels => exact buffersOk_of_live_ok h ht (buffersOk_pack h hi)
  | encDma => exact buffersOk_of_live_ite h ht (buffersOk_moveWord h)
  | encDone => exact buffersOk_of_live_ok (u := transferDone s) h ht h
  | encPull => exact buffersOk_of_live_ok h ht (buffersOk_shifter h (onlyShifter_pull s))
  | encCell0 => exact buffersOk_of_live_ok h ht (buffersOk_ite h h)
  | encCell1 => exact buffersOk_of_live_ok h ht (buffersOk_ite h h)
  | encIdle => exact buffersOk_of_live_ok h ht (buffersOk_ite h h)
  | pubPublish ctx frame => exact buffersOk_of_live_ok h ht (buffersOk_publish h ctx frame)
  | pubPublishFail ctx frame => exact buffersOk_of_live_ok h ht (buffersOk_ite h h)
  | sysFault =>
    have hcell : buffersOk (finishCell s) = true := buffersOk_shifter h (onlyShifter_finishCell s)
    exact buffersOk_of_live_ok (u := takeHardwareFault (finishCell s)) h ht hcell
  | sysReset => cases ht; exact buffersOk_resetOf s.cfg

/-! ### Every event -/

/-- What an event comes to leaves the buffers in order so far, and an operation's arrays fit them. -/
def fetchedOk : Fetched → Prop
  | .run i s => operandsFit s.cfg i ∧ buffersOk s = true
  | .quiet s => buffersOk s = true
  | .reject _ => True

theorem buffersOk_perform {f : Fetched} {t : State} (hf : fetchedOk f) (ht : perform f = .next t) :
    buffersOk t = true := by
  cases f with
  | run i s => exact buffersOk_exec hf.2 hf.1 ht
  | quiet s => cases ht; exact hf
  | reject r => cases ht

theorem buffersOk_lineMoved {s t : State} (h : buffersOk s = true) (hst : lineMoved s t) : buffersOk t = true := by
  obtain ⟨⟨n, z, rfl⟩, -⟩ := hst
  exact h

theorem fetchedOk_of_yields {s : State} {f : Fetched} (h : buffersOk s = true) (hf : yields (lineMoved s) f) :
    fetchedOk f := by
  cases f with
  | run i t => exact ⟨operandsFit_of_isLineOp t.cfg hf.1, buffersOk_lineMoved h hf.2⟩
  | quiet t => exact buffersOk_lineMoved h hf
  | reject r => trivial

theorem fetchedOk_fetchTick {s : State} (h : buffersOk s = true) : fetchedOk (fetchTick s) := by
  unfold fetchTick
  split
  · exact h
  split
  · exact ⟨trivial, h⟩
  · exact buffersOk_shifter h (onlyShifter_tick s)

/-- A call is decoded, so its operands are well-formed (rules R7 and R131). -/
theorem fetchedOk_fetchCall {s : State} (h : buffersOk s = true) (c : Code) : fetchedOk (fetchCall c s) := by
  unfold fetchCall
  split
  next i hi => exact ⟨operandsFit_of_wf (decodedOperationIsWellFormed s.cfg c i hi), h⟩
  next => exact h
  next => trivial

theorem fetchedOk_fetch {s : State} (h : buffersOk s = true) (e : Event) : fetchedOk (fetch e s) := by
  cases e with
  | window w => exact fetchedOk_of_yields h (yields_lineWindow w (.refl s))
  | lineBit v => exact fetchedOk_of_yields h (yields_lineBit v s)
  | lineClk v => exact fetchedOk_of_yields h (yields_lineClock v s)
  | idle => exact ⟨trivial, h⟩
  | run a => exact ⟨operandsFit_select a s, h⟩
  | encTick => exact fetchedOk_fetchTick h
  | encClk => exact buffersOk_ite h (buffersOk_shifter h (onlyShifter_encClock s))
  | ready v => exact h
  | encFault => exact ⟨trivial, h⟩
  | rst => exact ⟨trivial, h⟩
  | runOn => exact buffersOk_runOnCell h
  | call c => exact fetchedOk_fetchCall h c

/-- Settles O58, by what the next event comes to. -/
theorem everyStepKeepsTheBuffersCanonical : Obligations.EveryStepKeepsTheBuffersCanonical := by
  intro s t h ht
  have hlegal := legal_of_step_next ht
  cases hp : s.env.pending with
  | nil =>
    rw [step_nil hlegal hp] at ht
    cases ht
    exact h
  | cons e es =>
    rw [step_cons hlegal hp] at ht
    exact buffersOk_perform (fetchedOk_fetch (s := dropEvent s) h e) ht

end Sys2Proof.Safety
end

section
/-! The statements of `30_encoding.md`, first part: decoding and encoding are inverse to each other, form by form and,
for the OP rows, operand by operand. -/

namespace Sys2Proof

open Sys2Proof.Machine

/-! ### Serial windows (rules R60 to R63) -/

/-- The samples of a window in time order (rule R60). -/
theorem getLsbD_window (d : Byte) (x y : Level) (i : Nat) :
    (window d x y).getLsbD i =
      if i = 0 then false else if i < 9 then d.getLsbD (i - 1) else if i = 9 then x else decide (i = 10) && y := by
  refine (BitVec.getLsbD_append (x := BitVec.ofBool y) (y := BitVec.ofBool x ++ (d ++ 0#1)) (i := i)).trans ?_
  rw [BitVec.getLsbD_append, BitVec.getLsbD_append, BitVec.getLsbD_ofBool, BitVec.getLsbD_ofBool]
  rcases Nat.lt_or_ge i 9 with h | h
  · rcases i with _ | i
    · rfl
    · simp [h, show i + 1 < 10 by omega]
  · by_cases h9 : i = 9
    · simp [h9]
    · simp [h9, show ¬ i < 10 by omega, show ¬ i < 9 by omega, show i ≠ 0 by omega,
        show i - 10 = 0 ↔ i = 10 by omega]

/-- Rule R61: data bit `j` is sample `j + 1`. -/
theorem getLsbD_windowData (w : BitVec 11) {j : Nat} (hj : j < 8) : (windowData w).getLsbD j = w.getLsbD (j + 1) := by
  simp [windowData, hj, Nat.add_comm]

@[simp] theorem windowData_window (d : Byte) (x y : Level) : windowData (window d x y) = d := by
  refine BitVec.eq_of_getLsbD_eq fun j hj => ?_
  have hj9 : j + 1 < 9 := by omega
  simp [getLsbD_windowData _ hj, getLsbD_window, hj9]

/-- A window with a low start sample is the one of its byte and its stop samples. -/
theorem window_windowData {w : BitVec 11} (hstart : w.getLsbD 0 = false) :
    window (windowData w) (w.getLsbD 9) (w.getLsbD 10) = w := by
  refine BitVec.eq_of_getLsbD_eq fun j hj => ?_
  rw [getLsbD_window]
  split
  next h0 => rw [h0, hstart]
  split
  next h0 h9 => rw [getLsbD_windowData w (by omega), Nat.sub_add_cancel (by omega)]
  next h9 =>
    obtain rfl | rfl : j = 9 ∨ j = 10 := by omega
    all_goals simp

/-- The break window is the only one without a high sample (rules R61 and R62). -/
theorem window_eq_zero_iff {d : Byte} {x y : Level} : window d x y = 0 ↔ d = 0 ∧ x = false ∧ y = false := by
  constructor
  · intro h
    have hd := windowData_window d x y
    have hx := getLsbD_window d x y 9
    have hy := getLsbD_window d x y 10
    rw [h] at hd hx hy
    exact ⟨hd.symm, hx.symm, hy.symm⟩
  · rintro ⟨rfl, rfl, rfl⟩
    rfl

/-- What a window with a low start sample is, by its stop samples (rules R61 to R63). -/
theorem decodeSerial_window (d : Byte) (x y : Level) :
    decodeSerial (window d x y) =
      if d = 0 ∧ x = false ∧ y = false then .ok .rxBrk
      else if x then (if y then .ok (.rxChr d) else .ok (.rxFerrStop2 d))
      else .ok (.rxFerrStop1 d y) := by
  have h0 : (window d x y).getLsbD 0 = false := getLsbD_window d x y 0
  have h9 : (window d x y).getLsbD 9 = x := getLsbD_window d x y 9
  have h10 : (window d x y).getLsbD 10 = y := getLsbD_window d x y 10
  simp only [decodeSerial, h0, h9, h10, window_eq_zero_iff, windowData_window, Bool.false_eq_true, if_false]

/-! ### The other formats (rules R65, R67, R70 and R71) -/

/-- With a data sub-phase the cells of a 1 and of a 0 differ (rule R67). -/
theorem cellTicks_false_ne_true {c : Config} (h : 1 ≤ c.t2) : cellTicks c false ≠ cellTicks c true := by
  intro heq
  have htick := congrArg (·[c.t1]?) heq
  simp [cellTicks, List.getElem?_append, show 0 < c.t2 by omega] at htick

/-- The publish port is wide enough for its frame (rule R8). -/
theorem toNat_ofNat_bytesNat {f : Frame} {width : Nat} (h : width = 8 * f.length) :
    (BitVec.ofNat width (bytesNat f)).toNat = bytesNat f := by
  rw [h, BitVec.toNat_ofNat]
  refine Nat.mod_eq_of_lt ?_
  rw [Nat.pow_mul]
  exact bytesNat_lt f

/-- A frame goes through the publish port unchanged (rules R8 and R71). -/
theorem portFrame_framePort {f : Frame} (h : f.wf = true) : portFrame (framePort f) = f := by
  have hlen : f.length = frameLen := by simpa [Frame.wf] using h
  have hwidth : 4096 = 8 * f.length := by rw [hlen]; rfl
  rw [portFrame, framePort, toNat_ofNat_bytesNat hwidth, ← hlen, natBytes_bytesNat]

/-! ### The rows of format OP (log entry 6) -/

@[simp] theorem boolArg_boolNum (b : Bool) : boolArg (boolNum b) = some b := by cases b <;> rfl

@[simp] theorem kindArg_kindNum (k : ReceiveKind) : kindArg (kindNum k) = some k := by cases k <;> rfl

@[simp] theorem ctxArg_ctxNum (x : Ctx) : ctxArg (ctxNum x) = some x := by cases x <;> rfl

theorem completeArgs_resultNums (result : ReadResult) (atBreak : Bool) :
    completeArgs (resultNums result ++ [boolNum atBreak]) = some (.rxComplete result atBreak) := by
  cases result <;> simp [resultNums, completeArgs]

/-- Everything the decoder accepts in format OP: a row with its operands, in their ranges. -/
theorem decodeOp_ok_iff {c : Config} {row : Nat} {args : List Nat} {i : Instr} :
    decodeOp c row args = .ok i ↔ opRow row args = some (some i) ∧ i.wf c = true := by
  unfold decodeOp
  split
  next h => simp [h]
  next h => simp [h]
  next j h =>
    rw [h]
    by_cases hwf : j.wf c = true
    · simp only [hwf, if_true, Except.ok.injEq, Option.some.injEq]
      exact ⟨fun hij => ⟨hij, hij ▸ hwf⟩, And.left⟩
    · simp only [hwf, if_false, reduceCtorEq, Option.some.injEq, false_iff]
      rintro ⟨rfl, hi⟩
      exact hwf hi

/-- An operation whose code is a row with operands that the decoder reads as it. -/
theorem decode_encode_of_opRow {c : Config} {row : Nat} {args : List Nat} {i : Instr} (hwf : i.wf c = true)
    (hcode : encode c i = .op row args) (hrow : opRow row args = some (some i)) : decode c (encode c i) = .ok i := by
  rw [hcode]
  exact decodeOp_ok_iff.2 ⟨hrow, hwf⟩

/-- Settles O2, operation by operation. -/
theorem decodeOfEncodeIsTheOperation : Obligations.DecodeOfEncodeIsTheOperation := by
  intro c i hlegal h
  cases i with
  | rxArm => exact decode_encode_of_opRow h rfl rfl
  | rxChr b => simp [encode, decode, decodeSerial_window]
  | rxBrk => exact decodeSerial_window 0 false false
  | rxFerrStop1 d x =>
    have hbrk : ¬ (d = 0 ∧ false = false ∧ x = false) := by
      rintro ⟨rfl, -, rfl⟩
      cases h
    rw [encode, decode, decodeSerial_window, if_neg hbrk]
    rfl
  | rxFerrStop2 d => simp [encode, decode, decodeSerial_window]
  | rxFull => exact decode_encode_of_opRow h rfl rfl
  | rxComplete result atBreak =>
    exact decode_encode_of_opRow h rfl (congrArg some (completeArgs_resultNums result atBreak))
  | rxDiscard => exact decode_encode_of_opRow h rfl rfl
  | rxBuild n => exact decode_encode_of_opRow h rfl rfl
  | rxDeliver n => exact decode_encode_of_opRow h rfl rfl
  | rxDrop kind atBreak => exact decode_encode_of_opRow h rfl (by simp [opRow, dropArgs])
  | rxIdle => exact decode_encode_of_opRow h rfl rfl
  | mbxDeposit frame => exact decode_encode_of_opRow h rfl (by simp [opRow, byteArgs_map])
  | mbxTake => exact decode_encode_of_opRow h rfl rfl
  | rlTake => exact decode_encode_of_opRow h rfl rfl
  | rlMap => exact decode_encode_of_opRow h rfl rfl
  | rlWrite => exact decode_encode_of_opRow h rfl rfl
  | rlPublish => exact decode_encode_of_opRow h rfl rfl
  | encInit =>
    have hdiv : divisorLegal c = true := h
    simp [encode, decode, decodeDivisor, hdiv]
  | encWrite pixels => exact decode_encode_of_opRow h rfl (by simp [opRow, pixelArgs_pixelNums])
  | encPack pixels =>
    have hlen : pixels.length = c.nPix := by simpa [Instr.wf] using h
    simp [encode, decode, decodeWords_packPixel, hlen]
  | encDma => exact decode_encode_of_opRow h rfl rfl
  | encDone => exact decode_encode_of_opRow h rfl rfl
  | encPull => exact decode_encode_of_opRow h rfl rfl
  | encCell0 =>
    obtain ⟨-, -, -, -, -, -, ht2, -⟩ := Config.legal_iff.1 hlegal
    simp [encode, decode, decodeCell, cellTicks_false_ne_true ht2]
  | encCell1 => simp [encode, decode, decodeCell]
  | encIdle => exact decode_encode_of_opRow h rfl rfl
  | pubPublish ctx frame => simp [encode, decode, portFrame_framePort h]
  | pubPublishFail ctx frame => exact decode_encode_of_opRow h rfl (by simp [opRow, failArgs, byteArgs_map])
  | sysFault => exact decode_encode_of_opRow h rfl rfl
  | sysReset => exact decode_encode_of_opRow h rfl rfl

/-! ### Every accepted code is the encoding of its operation -/

/-- A window that is a symbol is the window of that symbol. -/
theorem encode_of_decodeSerial (c : Config) {w : BitVec 11} {i : Instr} (h : decodeSerial w = .ok i) :
    encode c i = .serial w := by
  cases hstart : w.getLsbD 0 with
  | true => simp only [decodeSerial, hstart, if_true, reduceCtorEq] at h
  | false =>
    rw [← window_windowData hstart, decodeSerial_window] at h
    rw [← window_windowData hstart]
    generalize windowData w = d, w.getLsbD 9 = x, w.getLsbD 10 = y at h ⊢
    split at h
    next hbrk =>
      obtain ⟨rfl, rfl, rfl⟩ := hbrk
      cases h
      rfl
    next => cases x <;> cases y <;> cases h <;> rfl

/-- A transfer word with a zero low byte is the one of its pixel, byte by byte (rule R65). -/
theorem packPixel_unpackWord {w : Word} (h : w.extractLsb' 0 8 = 0#8) : packPixel (unpackWord w) = w := by
  have hlow : ∀ j < 8, w.getLsbD j = false := Safety.lowByteZero_iff.1 (by simp [Safety.lowByteZero, h])
  refine BitVec.eq_of_getLsbD_eq fun j hj => ?_
  simp only [packPixel, unpackWord, BitVec.getLsbD_or, BitVec.getLsbD_shiftLeft, BitVec.getLsbD_setWidth,
    BitVec.getLsbD_extractLsb']
  obtain hbyte | hbyte | hbyte | hbyte : j < 8 ∨ 8 ≤ j ∧ j < 16 ∨ 16 ≤ j ∧ j < 24 ∨ 24 ≤ j := by omega
  all_goals grind

theorem map_packPixel_of_decodeWords {ws : List Word} {ps : List Pixel} (h : decodeWords ws = .ok ps) :
    ps.map packPixel = ws := by
  induction ws generalizing ps with
  | nil => cases h; rfl
  | cons w ws ih =>
    unfold decodeWords decodeWord at h
    split at h
    next p qs hp hqs =>
      split at hp
      next hlow => cases hp; cases h; rw [List.map_cons, packPixel_unpackWord hlow, ih hqs]
      next => cases hp
    next => cases h
    next => cases h

theorem encode_of_decodeCell {c : Config} {ticks : List Level} {i : Instr} (h : decodeCell c ticks = .ok i) :
    encode c i = .cell ticks := by
  unfold decodeCell at h
  split at h
  next htrue => cases h; exact congrArg Code.cell htrue.symm
  next =>
    split at h
    next hfalse => cases h; exact congrArg Code.cell hfalse.symm
    next => cases h

theorem encode_of_decodeDivisor {c : Config} {d : BitVec 24} {i : Instr} (h : decodeDivisor c d = .ok i) :
    encode c i = .divisor d := by
  unfold decodeDivisor at h
  split at h
  next hd =>
    cases h
    obtain ⟨-, hword⟩ := Bool.and_eq_true_iff.1 hd
    exact congrArg Code.divisor (of_decide_eq_true hword).symm
  next => cases h

theorem bytesNat_natBytes (k n : Nat) : bytesNat (natBytes k n) = n % 256 ^ k := by
  induction k generalizing n with
  | zero => simp [natBytes, bytesNat, Nat.mod_one]
  | succ k ih =>
    have hdigit : (BitVec.ofNat 8 n).toNat = n % 256 := BitVec.toNat_ofNat n 8
    rw [natBytes, bytesNat, ih, hdigit, Nat.pow_succ, Nat.mul_comm (256 ^ k), Nat.mod_mul]

theorem toNat_lt_pow_of_bytes {width k : Nat} (p : BitVec width) (h : width = 8 * k) : p.toNat < 256 ^ k := by
  subst h
  have hp := p.isLt
  rwa [Nat.pow_mul] at hp

/-- A value of the publish port goes through its frame unchanged (rules R8 and R71). -/
theorem framePort_portFrame (p : BitVec 4096) : framePort (portFrame p) = p := by
  have hwidth : 4096 = 8 * frameLen := rfl
  have hlen : (portFrame p).length = frameLen := length_natBytes _ _
  apply BitVec.eq_of_toNat_eq
  rw [framePort, toNat_ofNat_bytesNat (by rw [hlen, ← hwidth]), portFrame, bytesNat_natBytes,
    Nat.mod_eq_of_lt (toNat_lt_pow_of_bytes p hwidth)]

/-! ### Every accepted row of format OP is the encoding of its operation (log entry 6) -/

theorem toNat_of_byteArg {n : Nat} {b : Byte} (h : byteArg n = some b) : b.toNat = n := by
  unfold byteArg at h
  split at h
  next hn => cases h; simpa using hn
  next => cases h

theorem map_toNat_of_byteArgs {ns : List Nat} {bs : List Byte} (h : byteArgs ns = some bs) :
    bs.map BitVec.toNat = ns := by
  induction ns generalizing bs with
  | nil => cases h; rfl
  | cons n ns ih =>
    unfold byteArgs at h
    split at h
    next b bs hb hbs => cases h; rw [List.map_cons, toNat_of_byteArg hb, ih hbs]
    next => cases h

theorem pixelNums_of_pixelArgs {ns : List Nat} {ps : List Pixel} (h : pixelArgs ns = some ps) :
    pixelNums ps = ns := by
  fun_induction pixelArgs ns generalizing ps with
  | case1 => cases h; rfl
  | case2 r g b ns r' g' b' ps' hps hb hg hr ih =>
    cases h
    rw [← ih hps, ← toNat_of_byteArg hr, ← toNat_of_byteArg hg, ← toNat_of_byteArg hb]
    rfl
  | case3 => cases h
  | case4 => cases h

theorem boolNum_of_boolArg {n : Nat} {b : Bool} (h : boolArg n = some b) : boolNum b = n := by
  unfold boolArg at h
  split at h <;> cases h <;> rfl

theorem kindNum_of_kindArg {n : Nat} {k : ReceiveKind} (h : kindArg n = some k) : kindNum k = n := by
  unfold kindArg at h
  split at h <;> cases h <;> rfl

theorem ctxNum_of_ctxArg {n : Nat} {x : Ctx} (h : ctxArg n = some x) : ctxNum x = n := by
  unfold ctxArg at h
  split at h <;> cases h <;> rfl

theorem noArgs_eq_some {i j : Instr} {args : List Nat} : noArgs i args = some j ↔ args = [] ∧ i = j := by
  cases args <;> simp [noArgs]

theorem oneArg_eq_some {f : Nat → Instr} {j : Instr} {args : List Nat} :
    oneArg f args = some j ↔ ∃ n, args = [n] ∧ f n = j := by
  unfold oneArg
  split <;> simp_all

theorem encode_of_completeArgs (c : Config) {args : List Nat} {i : Instr} (h : completeArgs args = some i) :
    encode c i = .op 6 args := by
  unfold completeArgs at h
  split at h
  next n ab =>
    obtain ⟨b, hb, rfl⟩ := Option.map_eq_some_iff.1 h
    rw [← boolNum_of_boolArg hb]
    rfl
  next k ab =>
    obtain ⟨kind, hk, h⟩ := Option.bind_eq_some_iff.1 h
    obtain ⟨b, hb, rfl⟩ := Option.map_eq_some_iff.1 h
    rw [← boolNum_of_boolArg hb, ← kindNum_of_kindArg hk]
    rfl
  next => cases h

theorem encode_of_dropArgs (c : Config) {args : List Nat} {i : Instr} (h : dropArgs args = some i) :
    encode c i = .op 10 args := by
  unfold dropArgs at h
  split at h
  next k ab =>
    obtain ⟨kind, hk, h⟩ := Option.bind_eq_some_iff.1 h
    obtain ⟨b, hb, rfl⟩ := Option.map_eq_some_iff.1 h
    rw [← boolNum_of_boolArg hb, ← kindNum_of_kindArg hk]
    rfl
  next => cases h

theorem encode_of_failArgs (c : Config) {args : List Nat} {i : Instr} (h : failArgs args = some i) :
    encode c i = .op 28 args := by
  unfold failArgs at h
  split at h
  next ctx bytes =>
    obtain ⟨x, hx, h⟩ := Option.bind_eq_some_iff.1 h
    obtain ⟨bs, hbs, rfl⟩ := Option.map_eq_some_iff.1 h
    rw [← ctxNum_of_ctxArg hx, ← map_toNat_of_byteArgs hbs]
    rfl
  next => cases h

theorem encode_of_noArgs {c : Config} {row : Nat} {args : List Nat} {i j : Instr} (hi : encode c i = .op row [])
    (h : noArgs i args = some j) : encode c j = .op row args := by
  obtain ⟨rfl, rfl⟩ := noArgs_eq_some.1 h
  exact hi

theorem encode_of_oneArg {c : Config} {row : Nat} {args : List Nat} {f : Nat → Instr} {j : Instr}
    (hf : ∀ n, encode c (f n) = .op row [n]) (h : oneArg f args = some j) : encode c j = .op row args := by
  obtain ⟨n, rfl, rfl⟩ := oneArg_eq_some.1 h
  exact hf n

theorem encode_of_depositArgs (c : Config) {args : List Nat} {i : Instr}
    (h : (byteArgs args).map .mbxDeposit = some i) : encode c i = .op 12 args := by
  obtain ⟨bs, hbs, rfl⟩ := Option.map_eq_some_iff.1 h
  exact congrArg (Code.op 12) (map_toNat_of_byteArgs hbs)

theorem encode_of_writeArgs (c : Config) {args : List Nat} {i : Instr}
    (h : (pixelArgs args).map .encWrite = some i) : encode c i = .op 19 args := by
  obtain ⟨ps, hps, rfl⟩ := Option.map_eq_some_iff.1 h
  exact congrArg (Code.op 19) (pixelNums_of_pixelArgs hps)

/-- An operation read from a row's operands is written with these operands. The cases stand in the order of the rows. -/
theorem encode_of_opRow {c : Config} {row : Nat} {args : List Nat} {i : Instr}
    (h : opRow row args = some (some i)) : encode c i = .op row args := by
  unfold opRow at h
  split at h
  next => exact encode_of_noArgs rfl (Option.some.inj h)
  next => exact encode_of_noArgs rfl (Option.some.inj h)
  next => exact encode_of_completeArgs c (Option.some.inj h)
  next => exact encode_of_noArgs rfl (Option.some.inj h)
  next => exact encode_of_oneArg (fun _ => rfl) (Option.some.inj h)
  next => exact encode_of_oneArg (fun _ => rfl) (Option.some.inj h)
  next => exact encode_of_dropArgs c (Option.some.inj h)
  next => exact encode_of_noArgs rfl (Option.some.inj h)
  next => exact encode_of_depositArgs c (Option.some.inj h)
  next => exact encode_of_noArgs rfl (Option.some.inj h)
  next => exact encode_of_noArgs rfl (Option.some.inj h)
  next => exact encode_of_noArgs rfl (Option.some.inj h)
  next => exact encode_of_noArgs rfl (Option.some.inj h)
  next => exact encode_of_noArgs rfl (Option.some.inj h)
  next => exact encode_of_writeArgs c (Option.some.inj h)
  next => exact encode_of_noArgs rfl (Option.some.inj h)
  next => exact encode_of_noArgs rfl (Option.some.inj h)
  next => exact encode_of_noArgs rfl (Option.some.inj h)
  next => exact encode_of_noArgs rfl (Option.some.inj h)
  next => exact encode_of_failArgs c (Option.some.inj h)
  next => exact encode_of_noArgs rfl (Option.some.inj h)
  next => exact encode_of_noArgs rfl (Option.some.inj h)
  next => cases h

/-- Settles O3, form by form. -/
theorem encodeOfDecodeIsTheCode : Obligations.EncodeOfDecodeIsTheCode := by
  intro c k i h
  cases k with
  | serial w => exact encode_of_decodeSerial c h
  | words ws =>
    simp only [decode] at h
    split at h
    next =>
      split at h
      next ps hps => cases h; exact congrArg Code.words (map_packPixel_of_decodeWords hps)
      next => cases h
    next => cases h
  | cell ticks => exact encode_of_decodeCell h
  | divisor d => exact encode_of_decodeDivisor h
  | pubmsg ctx p => cases h; exact congrArg (Code.pubmsg ctx) (framePort_portFrame p)
  | op row args =>
    obtain ⟨hrow, -⟩ := decodeOp_ok_iff.1 h
    exact encode_of_opRow hrow
  | raw nbits w => cases h

end Sys2Proof
end

section
/-! The statements of `30_encoding.md`, second part: what a pending event selects (rule R74), and the windows of
the line at the event level (rules R60 to R63). -/

namespace Sys2Proof.Machine

open Sys2Proof.Safety

/-! ### The operation map (rule R74) -/

/-- A step whose next event is there does what that comes to once it is consumed. -/
theorem step_pending {s : State} {e : Event} {es : List Event} (hl : s.cfg.legal = true)
    (hp : s.env.pending = e :: es) : step s = perform (fetch e (withPending s es)) := by
  rw [step_cons hl hp, dropEvent_eq hp]

/-- A step of an agent is the operation that its state selects. -/
theorem step_run {s : State} {a : Agent} {es : List Event} (hl : s.cfg.legal = true)
    (hp : s.env.pending = .run a :: es) : step s = exec (select a s) (withPending s es) := by
  rw [step_pending hl hp]
  rfl

theorem fetchCall_run {c : Code} {s : State} {i : Instr} (h : decode s.cfg c = .ok i) : fetchCall c s = .run i s := by
  simp [fetchCall, h]

/-- Settles O5: the call is fetched as the operation that its code decodes to. -/
theorem stepRunsTheDecodedCall : Obligations.StepRunsTheDecodedCall := by
  intro s k es i hl hp hd
  rw [step_call hl hp, fetchCall_run (s := withPending s es) hd, perform]

/-- Settles O6, by the selection of each agent and input. -/
theorem stepSelectsTheOperation : Obligations.StepSelectsTheOperation := by
  intro s e es hl hp
  have hrl : e = .run .rl → step s = exec (select .rl s) (withPending s es) := by
    rintro rfl; exact step_run hl hp
  have hshift : e = .run .shift → step s = exec (select .shift s) (withPending s es) := by
    rintro rfl; exact step_run hl hp
  refine ⟨?take, ?map, ?write, ?publish, ?dma, ?idle, ?pull, ?cell0, ?cell1, ?timeout, ?fault, ?reset⟩
  case take => intro he hst; rw [hrl he, select, hst]
  case map => intro he hst; rw [hrl he, select, hst]
  case write => intro he hst; rw [hrl he, select, hst]
  case publish => intro he hst; rw [hrl he, select, hst]
  case dma => rintro rfl; exact step_run hl hp
  case idle => intro he hbits hfifo; simp [hshift he, select, hbits, hfifo]
  case pull => intro he hbits hfifo; simp [hshift he, select, hbits, hfifo]
  case cell0 => intro he hbits hbit; simp only [hshift he, select, nextBit, hbits, hbit, if_true]; rfl
  case cell1 => intro he hbits hbit; simp only [hshift he, select, nextBit, hbits, hbit, if_true]
  case timeout => rintro rfl; exact step_pending hl hp
  case fault => rintro rfl; exact step_pending hl hp
  case reset => rintro rfl; exact step_pending hl hp

/-! ### Whole windows (rules R60 to R63) -/

/-- What a window with a low start sample is, by its data and stop samples. -/
theorem decodeSerial_of_start_low {w : BitVec 11} (hstart : w.getLsbD 0 = false) :
    decodeSerial w =
      if windowData w = 0 ∧ w.getLsbD 9 = false ∧ w.getLsbD 10 = false then .ok .rxBrk
      else if w.getLsbD 9 then
        (if w.getLsbD 10 then .ok (.rxChr (windowData w)) else .ok (.rxFerrStop2 (windowData w)))
      else .ok (.rxFerrStop1 (windowData w) (w.getLsbD 10)) := by
  rw [← decodeSerial_window, window_windowData hstart]

theorem lineWindow_run {w : BitVec 11} {i : Instr} (h : decodeSerial w = .ok i) (s : State) :
    lineWindow w s = .run i s := by
  simp [lineWindow, h]

theorem lineWindow_glitch {w : BitVec 11} (h : w.getLsbD 0 = true) (s : State) : lineWindow w s = .quiet s := by
  simp only [lineWindow, decodeSerial, h, if_true]

/-- Settles O8: the decoder's branches are the four classes. -/
theorem windowsAreClassified : Obligations.WindowsAreClassified := by
  intro s w es hl hp
  have hrun : ∀ i, decodeSerial w = .ok i → step s = exec i (withPending s es) := by
    intro i hi
    rw [step_pending hl hp, fetch, lineWindow_run hi, perform]
  refine ⟨?glitch, ?character, ?brk, ?framing⟩
  case glitch =>
    intro hstart
    rw [step_pending hl hp, fetch, lineWindow_glitch hstart, perform]
  case character =>
    intro hstart h9 h10
    refine ⟨windowData w, fun i hi => getLsbD_windowData w hi, hrun _ ?_⟩
    simp only [decodeSerial_of_start_low hstart, h9, h10, if_true, Bool.true_eq_false, and_false, if_false]
  case brk =>
    intro hlow
    have hw : w = 0 := BitVec.eq_of_getLsbD_eq fun i hi => by rw [hlow i hi]; simp
    exact hrun _ (hw ▸ rfl)
  case framing =>
    intro hstart hstop hhigh
    obtain ⟨j, hj, hbit⟩ := hhigh
    have hbrk : ¬ (windowData w = 0 ∧ w.getLsbD 9 = false ∧ w.getLsbD 10 = false) := by
      rintro ⟨hdata, h9, h10⟩
      rw [window_eq_zero hstart hdata h9 h10] at hbit
      simp at hbit
    have hdec := decodeSerial_of_start_low hstart
    rw [if_neg hbrk] at hdec
    cases h9 : w.getLsbD 9 with
    | false => exact ⟨.rxFerrStop1 _ _, trivial, hrun _ (by rw [hdec, h9]; rfl)⟩
    | true =>
      have h10 : w.getLsbD 10 = false := hstop.resolve_left (by simp only [h9]; decide)
      exact ⟨.rxFerrStop2 _, trivial, hrun _ (by rw [hdec, h9, h10]; rfl)⟩

end Sys2Proof.Machine
end

section
/-! The statements of `30_encoding.md`, third part: the line at the bit level (rules R17, R61, R62 and R90). -/

namespace Sys2Proof.Machine

open Sys2Proof.Safety

/-! ### Runs -/

section
variable {M : Host.Core} {s t : M.State}

theorem run_one : M.run 1 s = M.step s := by
  cases h : M.step s <;> simp only [Host.Core.run, h]

theorem run_succ (k : Nat) (h : M.step s = .next t) : M.run (k + 1) s = M.run k t := by
  simp only [Host.Core.run, h]

end

/-! ### The window of a list of samples -/

/-- The number that a list of samples makes has them as its bits. -/
theorem testBit_foldr_samples (vs : List Level) (i : Nat) :
    (vs.foldr (fun (v : Level) n => Bool.toNat v + 2 * n) 0).testBit i = vs.getD i false := by
  induction vs generalizing i with
  | nil => simp
  | cons v vs ih =>
    rw [List.foldr_cons, Nat.add_comm, ← Nat.bit_val]
    cases i with
    | zero => exact Nat.testBit_bit_zero _ _
    | succ i => rw [Nat.testBit_bit_succ, ih]; rfl

theorem windowOf_windowSamples (w : BitVec 11) : windowOf (windowSamples w) = w := by
  refine BitVec.eq_of_getLsbD_eq fun i hi => ?_
  rw [windowOf, BitVec.getLsbD_ofNat, testBit_foldr_samples]
  simp [windowSamples, hi]

/-! ### Bit times of a window (rules R17 and R61) -/

/-- A bit time of an open window is over: its sample is kept and the next bit time begins. -/
def bitOver (v : Level) (s : State) : State :=
  s.withRx
    { s.rx with
      serial :=
        { s.rx.serial with
          sampler := s.rx.serial.sampler ++ [v], bitCnt := s.rx.serial.bitCnt + 1, baudCnt := 0 } }

/-- The block runs and a window is open, at least one of its bit times over and the next sample due. -/
structure MidWindow (s : State) : Prop where
  legal : s.cfg.legal = true
  running : s.sys.fatal = false
  notWaiting : s.rx.serial.waitHigh = false
  opened : s.rx.serial.opened = true
  due : s.rx.serial.sampler.length = s.rx.serial.bitCnt
  started : s.rx.serial.bitCnt ≠ 0

theorem MidWindow.bitOver {s : State} (h : MidWindow s) (v : Level) (es : List Event) :
    MidWindow (bitOver v (withPending s es)) :=
  { h with
    due := by simpa [Machine.bitOver, withPending] using h.due
    started := Nat.succ_ne_zero _ }

theorem windowBit_goesOn {v : Level} {s : State} (ho : s.rx.serial.opened = true)
    (hdue : s.rx.serial.sampler.length = s.rx.serial.bitCnt) (hg : s.rx.serial.bitCnt ≠ 0 ∨ v = false)
    (hlt : s.rx.serial.bitCnt < 10) : windowBit v s = .quiet (bitOver v s) := by
  rw [windowBit_due ho hdue.le hg, endBit]
  exact if_pos hlt

/-- The last bit time of a window closes it; its samples are classified (rule R61). -/
theorem windowBit_last {v : Level} {s : State} (h : MidWindow s) (hlast : s.rx.serial.bitCnt = 10) :
    windowBit v s =
      lineWindow (windowOf (s.rx.serial.sampler ++ [v]))
        (closeWindow (waitsAfter (windowOf (s.rx.serial.sampler ++ [v])) v) s) := by
  rw [windowBit_due h.opened h.due.le (.inl h.started), endBit]
  exact if_neg (by simp [hlast])

theorem lineBit_midWindow {s : State} (h : MidWindow s) (v : Level) : lineBit v s = windowBit v s := by
  simp [lineBit, h.running, h.notWaiting, h.opened]

/-- A falling edge opens a window and is its first bit time (rule R61). -/
theorem step_falling {s : State} {es : List Event} (hl : s.cfg.legal = true) (hf : s.sys.fatal = false)
    (hw : s.rx.serial.waitHigh = false) (ho : s.rx.serial.opened = false)
    (hp : s.env.pending = .lineBit false :: es) :
    step s = .next (bitOver false (openWindow (withPending s es))) := by
  have hopen : lineBit false (withPending s es) = windowBit false (openWindow (withPending s es)) := by
    simp [lineBit, withPending, hf, hw, ho]
  rw [step_pending hl hp, fetch, hopen, windowBit_goesOn rfl rfl (.inr rfl) (Nat.zero_lt_succ 9), perform]

theorem step_bitOver {s : State} {v : Level} {es : List Event} (h : MidWindow s) (hlt : s.rx.serial.bitCnt < 10)
    (hp : s.env.pending = .lineBit v :: es) : step s = .next (bitOver v (withPending s es)) := by
  have h' : MidWindow (withPending s es) := { h with }
  rw [step_pending h.legal hp, fetch, lineBit_midWindow h', windowBit_goesOn h'.opened h'.due (.inl h'.started) hlt,
    perform]

/-- The bit times that an open window still lacks, the last one with the line at `u`, close it and classify it. -/
theorem run_windowBits {vs : List Level} {u : Level} {s : State} {es : List Event} (h : MidWindow s)
    (hlen : s.rx.serial.bitCnt + vs.length = 10) (hp : s.env.pending = (vs ++ [u]).map .lineBit ++ es) :
    Sys2Proof.core.run (vs.length + 1) s =
      perform (lineWindow (windowOf (s.rx.serial.sampler ++ (vs ++ [u])))
        (closeWindow (waitsAfter (windowOf (s.rx.serial.sampler ++ (vs ++ [u]))) u) (withPending s es))) := by
  induction vs generalizing s with
  | nil =>
    have h' : MidWindow (withPending s es) := { h with }
    have hstep : step s = perform (windowBit u (withPending s es)) := by
      rw [step_pending h.legal hp, ← lineBit_midWindow h']; rfl
    rw [windowBit_last h' hlen] at hstep
    exact run_one.trans hstep
  | cons v vs ih =>
    have hlen' : s.rx.serial.bitCnt + 1 + vs.length = 10 := by simpa [Nat.add_assoc, Nat.add_comm 1] using hlen
    have hstep := step_bitOver h (by omega) hp
    have hih := ih (h.bitOver v ((vs ++ [u]).map .lineBit ++ es)) hlen' rfl
    have hsamples : (bitOver v (withPending s ((vs ++ [u]).map .lineBit ++ es))).rx.serial.sampler ++ (vs ++ [u]) =
        s.rx.serial.sampler ++ (v :: vs ++ [u]) := by
      simp [bitOver, withPending]
    rw [hsamples] at hih
    exact (run_succ (M := Sys2Proof.core) _ hstep).trans hih

/-- The samples of a window, the first and the last one apart. -/
theorem windowSamples_eq (w : BitVec 11) :
    windowSamples w = w.getLsbD 0 :: ((List.range 9).map (fun i => w.getLsbD (i + 1)) ++ [w.getLsbD 10]) := rfl

/-- A window whose last sample is low is no character (rule R61). -/
theorem waitsAfter_last (w : BitVec 11) : waitsAfter w (w.getLsbD 10) = !w.getLsbD 10 := by
  unfold waitsAfter
  generalize w.getLsbD 10 = v
  cases v <;> simp

/-- Settles O9: the falling edge opens the window, nine bit times go on and the last one closes it. -/
theorem elevenBitTimesAreTheWindow : Obligations.ElevenBitTimesAreTheWindow := by
  intro s w es hl hf hw ho hstart hp
  have hsamples : false :: ((List.range 9).map (fun i => w.getLsbD (i + 1)) ++ [w.getLsbD 10]) = windowSamples w := by
    rw [windowSamples_eq, hstart]
  have hpending : s.env.pending = (windowSamples w).map .lineBit ++ es := by
    rw [hp, windowSamples, List.map_map]; rfl
  rw [← hsamples] at hpending
  have hfirst := step_falling hl hf hw ho hpending
  have hmid : MidWindow (bitOver false (openWindow (withPending s
      (((List.range 9).map (fun i => w.getLsbD (i + 1)) ++ [w.getLsbD 10]).map .lineBit ++ es)))) :=
    ⟨hl, hf, hw, rfl, rfl, Nat.one_ne_zero⟩
  have hrest := run_windowBits hmid (by simp [bitOver]) rfl
  have hsampler : ∀ t, (bitOver false (openWindow t)).rx.serial.sampler = [false] := fun _ => rfl
  rw [hsampler, List.singleton_append, hsamples, windowOf_windowSamples, waitsAfter_last] at hrest
  refine (run_succ (M := Sys2Proof.core) 10 hfirst).trans (hrest.trans ?_)
  exact (step_pending (s := (withPending s (.window w :: es)).withRx _) (e := .window w) (es := es) hl rfl).symm

/-! ### Between windows (rules R17, R61, R62 and R90) -/

theorem lineBit_waiting {s : State} (hf : s.sys.fatal = false) (hw : s.rx.serial.waitHigh = true) (v : Level) :
    lineBit v s = .quiet (s.withRx { s.rx with serial := { s.rx.serial with waitHigh := !v } }) := by
  cases v with
  | true => simp [lineBit, hf, hw, lineHigh]
  | false =>
    simp only [lineBit, hf, hw, Bool.false_eq_true, if_false, if_true, Bool.not_false]
    rw [← hw]
    rfl

/-- A high start sample is a glitch (rule R61). -/
theorem takeSample_glitch {s : State} (hb : s.rx.serial.bitCnt = 0) : takeSample true s = closeWindow false s :=
  if_pos ⟨hb, rfl⟩

theorem lineBit_glitch {s : State} (hf : s.sys.fatal = false) (hw : s.rx.serial.waitHigh = false)
    (ho : s.rx.serial.opened = true) (hb : s.rx.serial.bitCnt = 0) (hdue : s.rx.serial.sampler = []) :
    lineBit true s = .quiet (closeWindow false s) := by
  simp [lineBit, windowBit, hf, hw, ho, hb, hdue, takeSample_glitch]

theorem lineClock_glitch {s : State} (hf : s.sys.fatal = false) (hw : s.rx.serial.waitHigh = false)
    (ho : s.rx.serial.opened = true) (hb : s.rx.serial.bitCnt = 0)
    (hdue : s.rx.serial.baudCnt = clocksPerBit s.cfg / 2) : lineClock true s = .quiet (closeWindow false s) := by
  simp [lineClock, windowClock, hf, hw, ho, hb, hdue, takeSample_glitch]

theorem lineBit_idle {s : State} (hf : s.sys.fatal = false) (hw : s.rx.serial.waitHigh = false)
    (ho : s.rx.serial.opened = false) : lineBit true s = idleBit s := by
  simp [lineBit, hf, hw, ho]

/-- Settles O10: while waiting, at a glitch, and at a high bit time with no window open. -/
theorem lineWaitsForHighAfterBreak : Obligations.LineWaitsForHighAfterBreak := by
  intro s v es hl hf
  refine ⟨?waiting, ?glitch, ?idle⟩
  case waiting =>
    intro hw hp
    rw [step_pending hl hp, fetch, lineBit_waiting (s := withPending s es) hf hw, perform]
    rfl
  case glitch =>
    rintro hw ho hb (⟨hp, hdue⟩ | ⟨hp, hdue⟩)
    · rw [step_pending hl hp, fetch, lineClock_glitch (s := withPending s es) hf hw ho hb hdue, perform]
      rfl
    · rw [step_pending hl hp, fetch, lineBit_glitch (s := withPending s es) hf hw ho hb hdue, perform]
      rfl
  case idle =>
    intro hw ho hp
    have hstep : step s = perform (idleBit (withPending s es)) := by
      rw [step_pending hl hp, fetch, lineBit_idle (s := withPending s es) hf hw ho]
    rw [hstep]
    obtain ⟨h0, h⟩ | ⟨hpos, hcnt, hfirst, hcount, h⟩ | ⟨hpos, hdue, h⟩ := idleBit_cases (withPending s es) <;> rw [h]
    · exact ⟨fun _ => rfl, fun hpos => absurd h0 hpos.ne'⟩
    · exact ⟨fun h0 => absurd h0 hpos.ne', fun _ => ⟨fun _ => rfl, fun hn => absurd ⟨hcnt, hfirst, hcount⟩ hn⟩⟩
    · exact ⟨fun h0 => absurd h0 hpos.ne', fun _ => ⟨fun h => absurd h hdue, fun _ => rfl⟩⟩

end Sys2Proof.Machine
end

section
/-! The statements of `30_encoding.md`, fourth part: ticks and cells (rules R30, R67, R68 and R135). Every tick takes
the first of the ticks that the cell still lacks and leaves what the cell's operation would do unchanged. -/

namespace Sys2Proof.Machine

open Sys2Proof.Safety

/-! ### The ticks that a cell still lacks -/

/-- The ticks that the cell in progress still lacks, the whole cell at a boundary. -/
def restTicks (s : State) : List Level := cellRest s.cfg s.enc.phase s.enc.tickCnt (nextBit s)

/-- The ticks of a cell after a sub-phase (rule R67). -/
def ticksAfter (c : Config) (v : Level) : Phase → List Level
  | .start => List.replicate c.t2 v ++ List.replicate c.t3 false
  | .data => List.replicate c.t3 false
  | .stop => []

/-- What a cell lacks are the ticks of the coming tick's sub-phase and those after it. -/
theorem restTicks_eq (s : State) :
    restTicks s =
      List.replicate (tickPhase s).2 (phaseLevel (nextBit s) (tickPhase s).1) ++
        ticksAfter s.cfg (nextBit s) (tickPhase s).1 := by
  by_cases hcnt : s.enc.tickCnt = 0
  · simp [restTicks, cellRest, tickPhase, hcnt, cellTicks, ticksAfter, phaseLevel]
  · cases hph : s.enc.phase <;> simp [restTicks, cellRest, tickPhase, hcnt, hph, ticksAfter, phaseLevel]

theorem tickPhase_pos {s : State} (hl : s.cfg.legal = true) : 0 < (tickPhase s).2 := by
  unfold tickPhase
  split
  · exact Nat.pos_of_ne_zero (phaseTicks_ne_zero hl .start)
  · omega

/-! ### One tick -/

/-- A tick inside a cell has passed: the level is driven, and a sub-phase has ticks left. -/
def tickOver (l : Level) (ph : Phase) (n : Nat) (s : State) : State :=
  (s.withTrace (s.trace.emitTick l)).withEnc { s.enc with led := l, phase := ph, tickCnt := n }

theorem restTicks_tickOver {s : State} {l : Level} {ph : Phase} {n : Nat} (hn : n ≠ 0) :
    restTicks (tickOver l ph n s) =
      List.replicate n (phaseLevel (nextBit s) ph) ++ ticksAfter s.cfg (nextBit s) ph := by
  have hph : tickPhase (tickOver l ph n s) = (ph, n) := if_neg hn
  rw [restTicks_eq, hph]
  rfl

/-- The operation of a cell emits what the cell lacks (rule R135). -/
theorem cellStep_eq (s : State) :
    cellStep s =
      (s.withEnc
        { s.enc with
          osr := s.enc.osr <<< 1, bitsLeft := s.enc.bitsLeft - 1, phase := .start, tickCnt := 0, led := false
        }).withTrace
        { s.trace with
          ledBits := s.trace.ledBits ++ [nextBit s], ledTicks := s.trace.ledTicks ++ restTicks s } := rfl

/-- A tick that was the first of the rest of a cell does not change what the cell's operation comes to. -/
theorem cellStep_tickOver {s : State} {l : Level} {ph : Phase} {n : Nat}
    (h : restTicks s = l :: restTicks (tickOver l ph n s)) : cellStep (tickOver l ph n s) = cellStep s := by
  have hticks : s.trace.ledTicks ++ restTicks s = s.trace.ledTicks ++ [l] ++ restTicks (tickOver l ph n s) := by
    rw [h, List.append_assoc, List.singleton_append]
  rw [cellStep_eq s, hticks]
  rfl

/-- A tick takes the first of the ticks that the cell lacks; with the last one it ends the cell as the cell's
operation does. -/
theorem cellTick_takes_rest {s : State} (hl : s.cfg.legal = true) :
    (∃ l, restTicks s = [l] ∧ cellTick s = cellStep s) ∨
    ∃ l ph n, restTicks s = l :: restTicks (tickOver l ph n s) ∧ cellTick s = tickOver l ph n s := by
  have hrest := restTicks_eq s
  have hpos := tickPhase_pos hl
  have hnext := phaseTicks_ne_zero hl
  rw [← Nat.succ_pred_eq_of_pos hpos, List.replicate_succ, List.cons_append] at hrest
  by_cases hlast : (tickPhase s).2 - 1 = 0
  · rw [Nat.pred_eq_sub_one, hlast, List.replicate_zero, List.nil_append] at hrest
    cases hph : (tickPhase s).1 with
    | start =>
      refine .inr ⟨true, .data, phaseTicks s.cfg .data, ?_, ?_⟩
      · rw [hrest, restTicks_tickOver (hnext .data), hph]
        rfl
      · simp [cellTick, hlast, hph, phaseLevel, tickOver, phaseTicks]
    | data =>
      refine .inr ⟨nextBit s, .stop, phaseTicks s.cfg .stop, ?_, ?_⟩
      · rw [hrest, restTicks_tickOver (hnext .stop), hph]
        simp [ticksAfter, phaseLevel, phaseTicks]
      · simp [cellTick, hlast, hph, phaseLevel, tickOver, phaseTicks]
    | stop =>
      rw [hph] at hrest
      refine .inl ⟨false, hrest, ?_⟩
      rw [cellStep_eq, hrest]
      simp [cellTick, hlast, hph, phaseLevel]
      rfl
  · refine .inr ⟨_, (tickPhase s).1, (tickPhase s).2 - 1, ?_, by simp [cellTick, hlast, tickOver]; rfl⟩
    rw [hrest, restTicks_tickOver hlast]
    rfl

theorem restTicks_ne_nil {s : State} (hl : s.cfg.legal = true) : restTicks s ≠ [] := by
  obtain ⟨l, h, -⟩ | ⟨l, ph, n, h, -⟩ := cellTick_takes_rest hl <;> simp [h]

/-! ### All the ticks of a cell -/

theorem step_encTick {s : State} {es : List Event} (hl : s.cfg.legal = true) (hf : s.sys.fatal = false)
    (hb : 0 < s.enc.bitsLeft) (hp : s.env.pending = .encTick :: es) :
    step s = .next (cellTick (withPending s es)) := by
  have hb' : s.enc.bitsLeft ≠ 0 := by omega
  have hpull : pull (withPending s es) = withPending s es := by
    obtain ⟨-, -, -, h, -⟩ | ⟨-, h⟩ := pull_cases (withPending s es)
    · exact absurd h hb'
    · exact h
  have htick : tick (withPending s es) = cellTick (withPending s es) := by
    rw [tick, hpull]
    exact if_neg hb'
  have hfetch : fetchTick (withPending s es) = .quiet (tick (withPending s es)) := by
    simp [fetchTick, withPending, shifterIdle, hf, hb']
  rw [step_pending hl hp, fetch, hfetch, htick, perform]

/-- As many ticks as a cell lacks do what the cell's operation does. -/
theorem run_restTicks {s : State} {es : List Event} {n : Nat} (hl : s.cfg.legal = true) (hf : s.sys.fatal = false)
    (hb : 0 < s.enc.bitsLeft) (hn : (restTicks s).length = n)
    (hp : s.env.pending = List.replicate n .encTick ++ es) :
    Sys2Proof.core.run n s = .next (cellStep (withPending s es)) := by
  induction n generalizing s with
  | zero => exact absurd (List.eq_nil_of_length_eq_zero hn) (restTicks_ne_nil hl)
  | succ n ih =>
    obtain ⟨later, hlater⟩ : ∃ later, later = List.replicate n Event.encTick ++ es := ⟨_, rfl⟩
    have hstep : step s = .next (cellTick (withPending s later)) :=
      step_encTick hl hf hb (by rw [hp, hlater]; rfl)
    obtain ⟨l, hrest, htick⟩ | ⟨l, ph, k, hrest, htick⟩ := cellTick_takes_rest (s := withPending s later) hl <;>
      rw [htick] at hstep
    · have hone : (restTicks s).length = 1 := congrArg List.length hrest
      obtain rfl : n = 0 := by omega
      subst hlater
      exact run_succ (M := Sys2Proof.core) 0 hstep
    · have hlen : (restTicks (tickOver l ph k (withPending s later))).length = n := by
        have hsucc : (restTicks s).length = _ := congrArg List.length hrest
        rw [hn, List.length_cons] at hsucc
        omega
      have hcell : cellStep (withPending (tickOver l ph k (withPending s later)) es) = cellStep (withPending s es) :=
        congrArg (fun t => withPending t es) (cellStep_tickOver hrest)
      have hrun := ih (s := tickOver l ph k (withPending s later)) hl hf hb hlen hlater
      exact (run_succ (M := Sys2Proof.core) n hstep).trans (hcell ▸ hrun)

/-- The cell operation of the next bit is enabled while bits are left (rule R135). -/
theorem exec_cell {s : State} (hf : s.sys.fatal = false) (hb : 0 < s.enc.bitsLeft) :
    exec (if nextBit s then .encCell1 else .encCell0) s = .next (cellStep s) := by
  cases hbit : nextBit s <;> exact (live_ok hf _).trans (congrArg _ (if_pos ⟨hb, hbit⟩))

/-- What a cell lacks, written out by the sub-phase (rules R30 and R68). -/
theorem restTicks_written_out (s : State) :
    restTicks s =
      if s.enc.tickCnt = 0 then
        List.replicate s.cfg.t1 true ++ List.replicate s.cfg.t2 (nextBit s) ++ List.replicate s.cfg.t3 false
      else if s.enc.phase = .start then
        List.replicate s.enc.tickCnt true ++ List.replicate s.cfg.t2 (nextBit s) ++ List.replicate s.cfg.t3 false
      else if s.enc.phase = .data then
        List.replicate s.enc.tickCnt (nextBit s) ++ List.replicate s.cfg.t3 false
      else List.replicate s.enc.tickCnt false := by
  unfold restTicks cellRest cellTicks
  cases s.enc.phase <;> rfl

/-- Settles O45: the ticks run to the state of the cell's operation, and that state is written out. -/
theorem ticksRefineTheCell : Obligations.TicksRefineTheCell := by
  intro s es hl hf hb v rest done
  have hrest : restTicks s = rest := restTicks_written_out s
  have hdone : done = .next (cellStep (withPending s es)) := exec_cell (s := withPending s es) hf hb
  refine ⟨fun hp => ?_, ?_⟩
  · rw [hdone]
    exact run_restTicks hl hf hb (congrArg List.length hrest) hp
  · rw [hdone, cellStep_eq, ← hrest]
    rfl

end Sys2Proof.Machine
end

section
/-! The statements of `40_receiver.md`, first part: what each operation of the receiver does (rules R80 to R90). -/

namespace Sys2Proof.Machine

open Sys2Proof.Safety

/-! ### Operations without a condition (rules R80, R86 and R89) -/

theorem live_of_ok {s t : State} {r : Except Fault State} (hf : s.sys.fatal = false) (h : r = .ok t) :
    live s r = .next t := live_next_iff.2 (.inr ⟨hf, h⟩)

theorem ok_of_live {s t : State} {r : Except Fault State} (hf : s.sys.fatal = false) (h : live s r = .next t) :
    r = .ok t := by
  obtain ⟨hf', -⟩ | ⟨-, hok⟩ := live_next_iff.1 h
  · rw [hf] at hf'; cases hf'
  · exact hok

/-- Settles O15: in a running block the operation is the arming of a read. -/
theorem rxArmStartsARead : Obligations.RxArmStartsARead := fun s hf => live_ok hf (arm s)

/-- Settles O20: in a running block the operation is the clearing of the flag. -/
theorem rxDiscardClearsFirst : Obligations.RxDiscardClearsFirst := fun s hf => live_ok hf (discard s)

/-- Settles O24, by the receiver after an error. -/
theorem rxDropLogsAndResyncs : Obligations.RxDropLogsAndResyncs := by
  intro s k atBreak hf
  exact (live_ok hf _).trans (congrArg _ (drop_eq k atBreak s))

/-! ### The frame builder (rule R87) -/

/-- Only the bytes below 512 reach the frame. -/
theorem padFrame_take (bytes : List Byte) : padFrame (bytes.take (min bytes.length frameLen)) = padFrame bytes := by
  have hpad : frameLen - min bytes.length frameLen = frameLen - bytes.length := by omega
  have htake : (bytes.take (min bytes.length frameLen)).take frameLen = bytes.take frameLen := by
    rw [List.take_take, List.take_eq_take_iff]
    omega
  simp [padFrame, hpad, htake]

/-- A build from a chunk whose length is the operand, or whose first 512 bytes are all that the operand asks for. -/
theorem build_of_holds {s : State} {n : Nat} {chunk : List Byte}
    (hlen : min chunk.length frameLen = min n frameLen) (h : holds (s.rx.buf (!s.rx.active)) chunk) :
    build n s = .ok (padFrame chunk) := by
  have hblock := Memory.readBlock_take h.1 (Nat.min_le_left _ frameLen) (readBlock_of_holds rfl h)
  rw [hlen] at hblock
  refine build_ok_iff.2 ⟨_, hblock, ?_⟩
  rw [← hlen, padFrame_take]

/-- Everything a called build can answer with a next state. -/
theorem exec_rxBuild_next_iff {s t : State} {n : Nat} (hf : s.sys.fatal = false) :
    exec (.rxBuild n) s = .next t ↔ ∃ f, build n s = .ok f ∧ t = s.withRet (some (.frame f)) := by
  simp only [exec, execRxBuild, live_next_iff, hf, Bool.false_eq_true, false_and, true_and, false_or]
  cases build n s <;> simp [eq_comm]

/-- Settles O21, by the build of the padded chunk. -/
theorem rxBuildPadsTheChunk : Obligations.RxBuildPadsTheChunk := by
  intro s n bytes hf hlen h
  have hbuild : build n s = .ok (padFrame bytes) := build_of_holds (by simp [hlen, frameLen]) h
  exact ⟨_, isFrameOf_padFrame bytes, (exec_rxBuild_next_iff hf).2 ⟨_, hbuild, rfl⟩⟩

/-- A build depends only on the bytes of its chunk (rule R87; U3). -/
theorem build_congr {s u : State} {n : Nat} {f : Frame} (hs : Memory.wf (s.rx.buf (!s.rx.active)) = true)
    (hu : Memory.wf (u.rx.buf (!u.rx.active)) = true)
    (hagree : ∀ i < min n frameLen,
      Memory.read (s.rx.buf (!s.rx.active)) i = Memory.read (u.rx.buf (!u.rx.active)) i)
    (h : build n s = .ok f) : build n u = .ok f := by
  obtain ⟨bytes, hblock, rfl⟩ := build_ok_iff.1 h
  obtain ⟨hlen, hread⟩ := (Memory.readBlock_wf_iff hs).1 hblock
  exact build_ok_iff.2
    ⟨bytes, (Memory.readBlock_wf_iff hu).2 ⟨hlen, fun i hi => (hagree i hi).symm.trans (hread i hi)⟩, rfl⟩

/-- Settles O22: the frame that one build gives is the other's. -/
theorem rxBuildIgnoresStaleBytes : Obligations.RxBuildIgnoresStaleBytes := by
  intro s u n hfs hfu hs hu hagree t ht
  obtain ⟨f, hbuild, rfl⟩ := (exec_rxBuild_next_iff hfs).1 ht
  exact (exec_rxBuild_next_iff hfu).2 ⟨f, build_congr hs hu hagree hbuild, rfl⟩

/-! ### Delivery (rule R88) -/

/-- The state after RX.DELIVER of a frame: published where PUB_SITE = RX, and in the mailbox. -/
def handOver (f : Frame) (s : State) : State := deposit f (if s.cfg.pubSite = .rx then publish .receive f s else s)

/-- The two forms of a delivery, by the publish site. -/
theorem handOver_cases (f : Frame) (s : State) :
    (s.cfg.pubSite = .rx ∧ handOver f s = deposit f (publish .receive f s)) ∨
    (s.cfg.pubSite ≠ .rx ∧ handOver f s = deposit f s) := by
  unfold handOver
  by_cases h : s.cfg.pubSite = .rx <;> simp [h]

@[simp] theorem handOver_rx (f : Frame) (s : State) : (handOver f s).rx = s.rx := by
  obtain ⟨-, h⟩ | ⟨-, h⟩ := handOver_cases f s <;> simp [h, deposit]

theorem delivered_handOver (f : Frame) (s : State) : delivered f s (handOver f s) := by
  refine ⟨rfl, Memory.read_ofList f, ?atRx, ?elsewhere, ?frame⟩
  case atRx =>
    intro hsite
    rw [handOver, if_pos hsite]
    exact publishAttempt_publish .receive f s
  case elsewhere =>
    intro hsite
    simp [handOver, hsite, deposit]
  case frame =>
    unfold handOver publish
    split
    · split <;> rfl
    · rfl

/-- What the receiver held before does not matter to what a delivery is. -/
theorem delivered_of_withRx {f : Frame} {s t : State} {x : Rx} (h : delivered f (s.withRx x) t) : delivered f s t := h

theorem deliver_of_holds {s : State} {n : Nat} {chunk : List Byte}
    (hlen : min chunk.length frameLen = min n frameLen) (h : holds (s.rx.buf (!s.rx.active)) chunk) :
    deliver n s = .ok (handOver (padFrame chunk) s) :=
  deliver_ok_iff.2 ⟨_, build_of_holds hlen h, rfl⟩

/-- Settles O23, by the delivery of the padded chunk. -/
theorem rxDeliverDepositsTheFrame : Obligations.RxDeliverDepositsTheFrame := by
  intro s n bytes hf hlen h
  have hdeliver : deliver n s = .ok (handOver (padFrame bytes) s) := deliver_of_holds (by simp [hlen, frameLen]) h
  exact ⟨_, _, live_of_ok hf hdeliver, isFrameOf_padFrame bytes, handOver_rx _ s, delivered_handOver _ s⟩

/-! ### The end of a read (rules R82 to R85) -/

/-- The receiver after a read has ended: the length is kept, the roles are swapped, the next read is armed. -/
def readEnded (first : Bool) (r : Rx) : Rx :=
  { r with prevLen := r.count, active := !r.active, count := 0, first := first }

theorem swapBuffers_readEnded (s : State) : swapBuffers s = s.withRx (readEnded s.rx.first s.rx) := rfl

/-- The state after a read has ended with an error. -/
def readDropped (kind : ReceiveKind) (atBreak : Bool) (s : State) : State :=
  (s.withRx (readEnded (s.rx.first || (s.cfg.resyncOnError && !atBreak)) s.rx)).withTrace
    { s.trace with log := s.trace.log ++ [.receive kind] }

theorem complete_err (kind : ReceiveKind) (atBreak : Bool) (s : State) :
    complete (.err kind) atBreak s = .ok (readDropped kind atBreak s) :=
  complete_ok_iff.2 (drop_eq kind atBreak (swapBuffers s)).symm

theorem complete_ok_first {s : State} (h : s.rx.first = true) (n : Nat) (atBreak : Bool) :
    complete (.ok n) atBreak s = .ok (s.withRx (readEnded false s.rx)) := by
  simp only [complete_ok_iff, h, if_true]
  rfl

/-- After the swap the previous buffer is the one that was active. -/
theorem complete_ok_delivers {s : State} {n : Nat} {chunk : List Byte} (h : s.rx.first = false) (atBreak : Bool)
    (hlen : min chunk.length frameLen = min n frameLen) (hchunk : holds (s.rx.buf s.rx.active) chunk) :
    complete (.ok n) atBreak s = .ok (handOver (padFrame chunk) (swapBuffers s)) := by
  simp only [complete_ok_iff, h, Bool.false_eq_true, if_false]
  refine deliver_of_holds hlen ?_
  simpa [swapBuffers_readEnded, readEnded, Rx.buf] using hchunk

/-- A delivery at the end of a read, from the state before it. -/
theorem delivered_swapBuffers (f : Frame) (s : State) : delivered f s (handOver f (swapBuffers s)) :=
  delivered_of_withRx (delivered_handOver f (swapBuffers s))

theorem handOver_swapBuffers_rx (f : Frame) (s : State) :
    (handOver f (swapBuffers s)).rx = readEnded s.rx.first s.rx := handOver_rx f (swapBuffers s)

/-- Settles O19, case by case of rule R85. -/
theorem rxCompleteEndsTheRead : Obligations.RxCompleteEndsTheRead := by
  intro s atBreak hf done
  refine ⟨?discards, ?delivers, ?drops⟩
  case discards =>
    intro n hfirst
    exact live_of_ok hf (complete_ok_first hfirst n atBreak)
  case delivers =>
    intro n bytes hfirst hlen h
    have hend := complete_ok_delivers hfirst (n := n) atBreak (by simp [hlen, frameLen]) h
    exact ⟨_, _, live_of_ok hf hend, isFrameOf_padFrame bytes, handOver_swapBuffers_rx _ s, delivered_swapBuffers _ s⟩
  case drops =>
    intro k
    exact live_of_ok hf (complete_err k atBreak s)

/-- Settles O18: each of the operations ends the read with its error. -/
theorem framingErrorDropsTheChunk : Obligations.FramingErrorDropsTheChunk := by
  intro s d x hf dropped
  have hends : ∀ k, live s (complete (.err k) false s) = .next (dropped k) := by
    intro k
    rw [complete_err, live_ok hf, readDropped]
    simp [dropped, readEnded]
  exact ⟨hends .framing, hends .framing, hends .overrun⟩

/-- A break gives the length of the chunk, save of an empty one where that is an error (rule R82). -/
theorem breakResult_ok {s : State} (h : s.rx.first = true ∨ s.rx.count ≠ 0 ∨ s.cfg.emptyIsError = false) :
    breakResult s = .ok s.rx.count := by
  unfold breakResult
  rcases h with h | h | h <;> simp [h]

theorem breakResult_empty {s : State} (hfirst : s.rx.first = false) (hcount : s.rx.count = 0)
    (hempty : s.cfg.emptyIsError = true) : breakResult s = .err .breakWithoutData := by
  simp [breakResult, hfirst, hcount, hempty]

/-- RX.BRK ends the read with the result of the break. -/
theorem exec_rxBrk {s t : State} {result : ReadResult} (hf : s.sys.fatal = false) (hr : breakResult s = result)
    (h : complete result true s = .ok t) : exec .rxBrk s = .next t :=
  live_of_ok hf (hr ▸ h)

/-- Settles O17: the three results of a break. -/
theorem rxBrkEndsTheChunk : Obligations.RxBrkEndsTheChunk := by
  intro s hf done
  refine ⟨?discards, ?drops, ?delivers⟩
  case discards =>
    intro hfirst
    exact exec_rxBrk hf (breakResult_ok (.inl hfirst)) (complete_ok_first hfirst _ true)
  case drops =>
    intro hfirst hcount hempty
    rw [exec_rxBrk hf (breakResult_empty hfirst hcount hempty) (complete_err _ true s), readDropped]
    simp [done, readEnded]
  case delivers =>
    intro chunk hfirst hresult hlen h
    have hend := complete_ok_delivers hfirst true (congrArg (min · frameLen) hlen) h
    exact ⟨_, _, exec_rxBrk hf (breakResult_ok (.inr hresult)) hend, isFrameOf_padFrame chunk,
      handOver_swapBuffers_rx _ s, delivered_swapBuffers _ s⟩

/-! ### The optional timeout (rule R90) -/

theorem idleEnabled_iff {s : State} :
    idleEnabled s = true ↔ 0 < s.cfg.idleTimeout ∧ s.rx.first = false ∧ 0 < s.rx.count := by
  simp [idleEnabled, and_assoc]

theorem exec_rxIdle_disabled {s : State} (hf : s.sys.fatal = false) (h : ¬ idleEnabled s = true) :
    exec .rxIdle s = .next s :=
  live_of_ok hf (if_neg h)

/-- Setting the first-frame flag is no part of what a delivery is. -/
theorem delivered_setFirst {f : Frame} {s t : State} (h : delivered f s t) : delivered f s (setFirst t) := by
  obtain ⟨hfull, hslot, hrx, helse, hframe⟩ := h
  exact ⟨hfull, hslot, hrx, helse, congrArg setFirst hframe⟩

/-- Settles O25, by the condition of the timeout. -/
theorem rxIdleDeliversWhenEnabled : Obligations.RxIdleDeliversWhenEnabled := by
  intro s hf
  refine ⟨?enabled, ?disabled⟩
  case enabled =>
    intro chunk htimeout hfirst hcount hlen h
    have hend := complete_ok_delivers hfirst false (congrArg (min · frameLen) hlen) h
    have htime := lineTimeout_ok_iff.2 ⟨_, hend, rfl⟩
    refine ⟨_, _, live_of_ok hf ((if_pos (idleEnabled_iff.2 ⟨htimeout, hfirst, hcount⟩)).trans htime),
      isFrameOf_padFrame chunk, ?_, delivered_setFirst (delivered_swapBuffers _ s)⟩
    simp [setFirst, swapBuffers_readEnded, readEnded]
  case disabled =>
    intro h
    refine exec_rxIdle_disabled hf fun hen => ?_
    obtain ⟨htimeout, hfirst, hcount⟩ := idleEnabled_iff.1 hen
    rcases h with h | h | h
    · omega
    · simp [hfirst] at h
    · omega

/-! ### A character (rules R81 and R84) -/

/-- The state with a character stored in the open chunk. -/
def stored (b : Byte) (s : State) : State :=
  s.withRx
    { s.rx.setBuf s.rx.active (Memory.write (s.rx.buf s.rx.active) s.rx.count b) with count := s.rx.count + 1 }

@[simp] theorem stored_active (b : Byte) (s : State) : (stored b s).rx.active = s.rx.active := by simp [stored]

@[simp] theorem stored_first (b : Byte) (s : State) : (stored b s).rx.first = s.rx.first := by simp [stored]

@[simp] theorem stored_prevLen (b : Byte) (s : State) : (stored b s).rx.prevLen = s.rx.prevLen := by simp [stored]

@[simp] theorem stored_idleCnt (b : Byte) (s : State) : (stored b s).rx.idleCnt = s.rx.idleCnt := by simp [stored]

@[simp] theorem stored_serial (b : Byte) (s : State) : (stored b s).rx.serial = s.rx.serial := by simp [stored]

@[simp] theorem stored_count (b : Byte) (s : State) : (stored b s).rx.count = s.rx.count + 1 := rfl

@[simp] theorem stored_buf_active (b : Byte) (s : State) :
    (stored b s).rx.buf s.rx.active = Memory.write (s.rx.buf s.rx.active) s.rx.count b :=
  buf_setBuf_same s.rx s.rx.active _

@[simp] theorem stored_buf_other (b : Byte) (s : State) :
    (stored b s).rx.buf (!s.rx.active) = s.rx.buf (!s.rx.active) :=
  buf_setBuf_other s.rx s.rx.active _

/-- A character that leaves room is stored. -/
theorem character_room {b : Byte} {s : State} (hcount : s.rx.count < s.cfg.rxCap)
    (hroom : s.rx.count + 1 ≠ s.cfg.rxCap) : character b s = .ok (stored b s) :=
  character_ok_iff.2 ⟨hcount, (if_neg hroom).mpr rfl⟩

/-- A character that fills the buffer is stored and ends the read with an overrun. -/
theorem character_full {b : Byte} {s : State} (hfull : s.rx.count + 1 = s.cfg.rxCap) :
    character b s = .ok (readDropped .overrun false (stored b s)) :=
  character_ok_iff.2 ⟨by omega, (if_pos hfull).mpr (complete_err .overrun false (stored b s))⟩

/-- Settles O16, by whether the character leaves room. -/
theorem rxChrStoresTheByte : Obligations.RxChrStoresTheByte := by
  intro s b hf hcount
  have hsame : Memory.read ((stored b s).rx.buf s.rx.active) s.rx.count = some b := by
    rw [stored_buf_active, Memory.read_write_self]
  have hrest : ∀ j, j ≠ s.rx.count →
      Memory.read ((stored b s).rx.buf s.rx.active) j = Memory.read (s.rx.buf s.rx.active) j := by
    intro j hj
    rw [stored_buf_active, Memory.read_write_other _ _ hj]
  have hother : ∀ j, Memory.read ((stored b s).rx.buf (!s.rx.active)) j = Memory.read (s.rx.buf (!s.rx.active)) j := by
    intro j
    rw [stored_buf_other]
  by_cases hfull : s.rx.count + 1 = s.cfg.rxCap
  · refine ⟨_, live_of_ok hf (character_full hfull), hsame, hrest, hother, stored_idleCnt b s, stored_serial b s,
      absurd hfull, fun _ => ⟨rfl, ?_, hfull, ?_, rfl, rfl⟩⟩
    · simp [readDropped, readEnded]
    · simp [readDropped, readEnded, stored]
  · exact ⟨_, live_of_ok hf (character_room hcount hfull), hsame, hrest, hother, stored_idleCnt b s,
      stored_serial b s, fun _ => ⟨rfl, stored_active b s, stored_first b s, stored_prevLen b s, rfl⟩,
      fun h => absurd h hfull⟩

end Sys2Proof.Machine
end

section
/-! The statements of `40_receiver.md`, second part: the receiver is the fold over its line symbols (rule R92). -/

namespace Sys2Proof.Machine

open Sys2Proof.Safety

/-! ### The invariant of the receiver (rules R14, R16 and R39) -/

theorem readOver_of_rxOk {c : Config} {r : Rx} (h : rxOk c r = true) : readOver c r := by
  obtain ⟨hcount, -, hbuf0, hbuf1, -, hserial⟩ := rxOk_iff.1 h
  exact ⟨hcount.le, hbuf0, hbuf1, hserial⟩

/-- A read that has ended leaves an empty chunk. -/
theorem rxOk_readEnded {c : Config} {r : Rx} (h : readOver c r) (first : Bool) : rxOk c (readEnded first r) = true := by
  obtain ⟨hcount, hbuf0, hbuf1, hserial⟩ := h
  exact rxOk_iff.2 ⟨rxCap_pos c, hcount, hbuf0, hbuf1, written_zero _ _, hserial⟩

theorem readOver_stored {s : State} (h : rxOk s.cfg s.rx = true) (b : Byte) : readOver s.cfg (stored b s).rx := by
  obtain ⟨hcount, -, hbuf0, hbuf1, -, hserial⟩ := rxOk_iff.1 h
  have hact := bufferOk_write b hcount (bufferOk_buf hbuf0 hbuf1 s.rx.active)
  obtain ⟨hbuf0', hbuf1'⟩ := bufferOk_setBuf hact hbuf0 hbuf1 s.rx.active
  exact ⟨hcount, hbuf0', hbuf1', by simpa using hserial⟩

/-! ### The receiver as the fold sees it -/

theorem rxView_eq_some_iff {s : State} {r : RxRef} :
    rxView s = some r ↔
      Memory.readBlock (s.rx.buf s.rx.active) 0 s.rx.count = some r.acc ∧ s.rx.first = r.first := by
  unfold rxView
  cases r
  simp only [Option.map_eq_some_iff, RxRef.mk.injEq]
  constructor
  · rintro ⟨acc, hacc, hfirst, rfl⟩; exact ⟨hacc, hfirst⟩
  · rintro ⟨hacc, hfirst⟩; exact ⟨_, hacc, hfirst, rfl⟩

/-- The open chunk has been written, so that the receiver has a view. -/
theorem rxView_of_rxOk {s : State} (h : rxOk s.cfg s.rx = true) : ∃ r, rxView s = some r := by
  obtain ⟨-, -, -, -, hwritten, -⟩ := rxOk_iff.1 h
  obtain ⟨acc, hacc⟩ := Option.isSome_iff_exists.1 hwritten
  exact ⟨⟨s.rx.first, acc⟩, rxView_eq_some_iff.2 ⟨hacc, rfl⟩⟩

theorem wf_active_of_rxOk {c : Config} {r : Rx} (h : rxOk c r = true) : Memory.wf (r.buf r.active) = true := by
  obtain ⟨-, -, hbuf0, hbuf1, -, -⟩ := rxOk_iff.1 h
  exact wf_of_bufferOk (bufferOk_buf hbuf0 hbuf1 _)

/-- The active buffer holds the open chunk of the view, whose length is the count. -/
theorem chunk_of_rxView {s : State} {r : RxRef} (h : rxOk s.cfg s.rx = true) (hv : rxView s = some r) :
    r.acc.length = s.rx.count ∧ holds (s.rx.buf s.rx.active) r.acc := by
  obtain ⟨hblock, -⟩ := rxView_eq_some_iff.1 hv
  have hwf := wf_active_of_rxOk h
  obtain ⟨hlen, hread⟩ := (Memory.readBlock_wf_iff hwf).1 hblock
  exact ⟨hlen, hwf, hlen ▸ hread⟩

/-- After the end of a read the chunk is empty. -/
theorem rxView_readEnded {s : State} {first : Bool} {r : Rx} (h : s.rx = readEnded first r) :
    rxView s = some ⟨first, []⟩ := by
  rw [rxView_eq_some_iff, h]
  exact ⟨Memory.readBlock_zero _ _, rfl⟩

/-- A stored character is the next byte of the chunk. -/
theorem rxView_stored {s : State} {r : RxRef} (h : rxOk s.cfg s.rx = true) (hv : rxView s = some r) (b : Byte) :
    rxView (stored b s) = some ⟨r.first, r.acc ++ [b]⟩ := by
  obtain ⟨hblock, hfirst⟩ := rxView_eq_some_iff.1 hv
  refine rxView_eq_some_iff.2 ⟨?_, by simpa using hfirst⟩
  simpa using Memory.readBlock_write_next b (wf_active_of_rxOk h) hblock

theorem rxOk_stored {s : State} (h : rxOk s.cfg s.rx = true) (b : Byte) (hroom : s.rx.count + 1 ≠ s.cfg.rxCap) :
    rxOk s.cfg (stored b s).rx = true := by
  obtain ⟨hcount, hprev, -, -, -, -⟩ := rxOk_iff.1 h
  obtain ⟨-, hbuf0, hbuf1, hserial⟩ := readOver_stored h b
  obtain ⟨r, hv⟩ := rxView_of_rxOk h
  obtain ⟨hblock, -⟩ := rxView_eq_some_iff.1 (rxView_stored h hv b)
  exact rxOk_iff.2 ⟨by simp; omega, by simpa using hprev, hbuf0, hbuf1, written_of_readBlock hblock, hserial⟩

/-! ### Errors and frames -/

theorem receiveErrors_append (l l' : List LogEntry) : receiveErrors (l ++ l') = receiveErrors l ++ receiveErrors l' :=
  List.filterMap_append

/-- A publish logs no receive error (rule R151). -/
theorem receiveErrors_publish (c : Ctx) (f : Frame) (s : State) :
    receiveErrors (publish c f s).trace.log = receiveErrors s.trace.log := by
  unfold publish
  split
  · rfl
  · exact (receiveErrors_append _ _).trans (List.append_nil _)

theorem receiveErrors_handOver (f : Frame) (s : State) :
    receiveErrors (handOver f s).trace.log = receiveErrors s.trace.log := by
  obtain ⟨-, h⟩ | ⟨-, h⟩ := handOver_cases f s
  · rw [h]; exact receiveErrors_publish .receive f s
  · rw [h]; rfl

theorem mailboxFrame_handOver {f : Frame} (h : f.length = frameLen) (s : State) :
    mailboxFrame (handOver f s) = some f :=
  readBlock_deposit h s

/-- What the mailbox offers depends on the mailbox alone. -/
theorem mailboxFrame_congr {s t : State} (h : t.mbx = s.mbx) : mailboxFrame t = mailboxFrame s := by
  unfold mailboxFrame
  rw [h]

/-! ### One symbol -/

/-- A step of the block is a step of the fold: the view, the errors and the mailbox are those of its output, and the
invariant of the receiver is kept. -/
structure FoldStep (o : RxRefOut) (s t : State) : Prop where
  view : rxView t = some o.next
  errors : receiveErrors t.trace.log = receiveErrors s.trace.log ++ o.logged.toList
  mailbox : ∀ f, o.delivered = some f → mailboxFrame t = some f
  untouched : o.delivered = none → t.mbx = s.mbx
  rx : rxOk s.cfg t.rx = true

/-- A read that ends with an error: the fold drops its chunk and resynchronises. -/
theorem foldStep_readDropped {s : State} (h : readOver s.cfg s.rx) (hresync : s.cfg.resyncOnError = true)
    (kind : ReceiveKind) : FoldStep ⟨⟨true, []⟩, none, some kind⟩ s (readDropped kind false s) where
  view := rxView_readEnded (r := s.rx) (by simp [readDropped, hresync])
  errors := receiveErrors_append _ _
  mailbox := nofun
  untouched _ := rfl
  rx := rxOk_readEnded h _

/-- A break ends the first chunk, which the fold discards. -/
theorem foldStep_discarded {s : State} (h : readOver s.cfg s.rx) :
    FoldStep ⟨⟨false, []⟩, none, none⟩ s (s.withRx (readEnded false s.rx)) where
  view := rxView_readEnded rfl
  errors := (List.append_nil _).symm
  mailbox := nofun
  untouched _ := rfl
  rx := rxOk_readEnded h _

/-- A break ends any other chunk, which the fold delivers. -/
theorem foldStep_handOver {s : State} (h : readOver s.cfg s.rx) (hfirst : s.rx.first = false) (chunk : List Byte) :
    FoldStep ⟨⟨false, []⟩, some (padFrame chunk), none⟩ s (handOver (padFrame chunk) (swapBuffers s)) where
  view := rxView_readEnded ((handOver_swapBuffers_rx _ s).trans (congrArg (readEnded · s.rx) hfirst))
  errors := (receiveErrors_handOver _ _).trans (List.append_nil _).symm
  mailbox := by
    rintro f ⟨⟩
    exact mailboxFrame_handOver (length_padFrame chunk) _
  untouched := nofun
  rx := by
    rw [handOver_swapBuffers_rx]
    exact rxOk_readEnded h _

theorem Config.decided_iff {c : Config} :
    c.decided = true ↔ c.rxOverhead = 1 ∧ c.resyncOnError = true ∧ c.emptyIsError = false ∧ c.idleTimeout = 0 := by
  simp [Config.decided, and_assoc]

theorem rxRefStep_chr_full {r : RxRef} (b : Byte) (h : r.acc.length + 1 = 513) :
    rxRefStep r (.chr b) = ⟨⟨true, []⟩, none, some .overrun⟩ := if_pos h

theorem rxRefStep_chr_room {r : RxRef} (b : Byte) (h : r.acc.length + 1 ≠ 513) :
    rxRefStep r (.chr b) = ⟨⟨r.first, r.acc ++ [b]⟩, none, none⟩ := if_neg h

theorem rxRefStep_brk_first {r : RxRef} (h : r.first = true) : rxRefStep r .brk = ⟨⟨false, []⟩, none, none⟩ := if_pos h

theorem rxRefStep_brk_later {r : RxRef} (h : r.first = false) :
    rxRefStep r .brk = ⟨⟨false, []⟩, some (padFrame r.acc), none⟩ := if_neg (Bool.eq_false_iff.1 h)

theorem eq_rxChr_of_selectsSym {i : Instr} {b : Byte} (h : selectsSym i (.chr b)) : i = .rxChr b := by
  cases i with
  | rxChr b' => exact congrArg _ h
  | _ => exact h.elim

theorem eq_rxBrk_of_selectsSym {i : Instr} (h : selectsSym i .brk) : i = .rxBrk := by
  cases i with
  | rxBrk => rfl
  | _ => exact h.elim

theorem eq_rxFerr_of_selectsSym {i : Instr} (h : selectsSym i .ferr) :
    (∃ d y, i = .rxFerrStop1 d y) ∨ ∃ d, i = .rxFerrStop2 d := by
  cases i with
  | rxFerrStop1 d y => exact .inl ⟨d, y, rfl⟩
  | rxFerrStop2 d => exact .inr ⟨d, rfl⟩
  | _ => exact h.elim

theorem eq_rxIdle_of_selectsSym {i : Instr} (h : selectsSym i .idle) : i = .rxIdle := by
  cases i with
  | rxIdle => rfl
  | _ => exact h.elim

section
variable {s : State} {r : RxRef} (hd : s.cfg.decided = true) (hf : s.sys.fatal = false)
  (h : rxOk s.cfg s.rx = true) (hv : rxView s = some r)
include hd hf h hv

theorem exec_rxChr_folds (b : Byte) : ∃ t, exec (.rxChr b) s = .next t ∧ FoldStep (rxRefStep r (.chr b)) s t := by
  obtain ⟨hoverhead, hresync, -, -⟩ := Config.decided_iff.1 hd
  obtain ⟨hcount, -⟩ := rxOk_iff.1 h
  obtain ⟨hlen, -⟩ := chunk_of_rxView h hv
  have hcap : s.cfg.rxCap = 513 := by simp [Config.rxCap, frameLen, hoverhead]
  by_cases hfull : r.acc.length + 1 = 513
  · rw [rxRefStep_chr_full b hfull]
    obtain ⟨hview, herrors, hmailbox, huntouched, hrx⟩ :=
      foldStep_readDropped (s := stored b s) (readOver_stored h b) hresync .overrun
    exact ⟨_, live_of_ok hf (character_full (by omega)), hview, herrors, hmailbox, huntouched, hrx⟩
  · rw [rxRefStep_chr_room b hfull]
    have hroom : s.rx.count + 1 ≠ s.cfg.rxCap := by omega
    exact ⟨_, live_of_ok hf (character_room hcount hroom), rxView_stored h hv b, (List.append_nil _).symm, nofun,
      fun _ => rfl, rxOk_stored h b hroom⟩

theorem exec_rxBrk_folds : ∃ t, exec .rxBrk s = .next t ∧ FoldStep (rxRefStep r .brk) s t := by
  obtain ⟨-, -, hempty, -⟩ := Config.decided_iff.1 hd
  obtain ⟨hlen, hchunk⟩ := chunk_of_rxView h hv
  obtain ⟨-, hfirst⟩ := rxView_eq_some_iff.1 hv
  have hresult := breakResult_ok (s := s) (.inr (.inr hempty))
  cases hr : r.first with
  | true =>
    have hend := complete_ok_first (hfirst.trans hr) s.rx.count true
    rw [rxRefStep_brk_first hr]
    exact ⟨_, exec_rxBrk hf hresult hend, foldStep_discarded (readOver_of_rxOk h)⟩
  | false =>
    have hend := complete_ok_delivers (hfirst.trans hr) true (congrArg (min · frameLen) hlen) hchunk
    rw [rxRefStep_brk_later hr]
    exact ⟨_, exec_rxBrk hf hresult hend, foldStep_handOver (readOver_of_rxOk h) (hfirst.trans hr) r.acc⟩

omit hv in
theorem framingError_folds :
    ∃ t, live s (framingError s) = .next t ∧ FoldStep (rxRefStep r .ferr) s t := by
  obtain ⟨-, hresync, -, -⟩ := Config.decided_iff.1 hd
  exact ⟨_, live_of_ok hf (complete_err .framing false s), foldStep_readDropped (readOver_of_rxOk h) hresync .framing⟩

theorem exec_rxIdle_folds : ∃ t, exec .rxIdle s = .next t ∧ FoldStep (rxRefStep r .idle) s t := by
  obtain ⟨-, -, -, htimeout⟩ := Config.decided_iff.1 hd
  have hdisabled : ¬ idleEnabled s = true := by simp [idleEnabled_iff, htimeout]
  exact ⟨s, exec_rxIdle_disabled hf hdisabled, hv, (List.append_nil _).symm, nofun, fun _ => rfl, h⟩

/-- The operation of a symbol is a step of the fold, symbol by symbol. -/
theorem exec_lineOp_folds {i : Instr} {x : Sym} (hsel : selectsSym i x) :
    ∃ t, exec i s = .next t ∧ FoldStep (rxRefStep r x) s t := by
  cases x with
  | chr b =>
    obtain rfl := eq_rxChr_of_selectsSym hsel
    exact exec_rxChr_folds hd hf h hv b
  | brk =>
    obtain rfl := eq_rxBrk_of_selectsSym hsel
    exact exec_rxBrk_folds hd hf h hv
  | ferr =>
    obtain ⟨d, y, rfl⟩ | ⟨d, rfl⟩ := eq_rxFerr_of_selectsSym hsel
    · exact framingError_folds hd hf h
    · exact framingError_folds hd hf h
  | idle =>
    obtain rfl := eq_rxIdle_of_selectsSym hsel
    exact exec_rxIdle_folds hd hf h hv

end

/-- Settles O26: the operation of a symbol is a step of the fold. -/
theorem receiverStepMatchesTheFold : Obligations.ReceiverStepMatchesTheFold := by
  intro s i x hd hf h hsel
  obtain ⟨r, hv⟩ := rxView_of_rxOk h
  obtain ⟨t, hexec, hview, herrors, hmailbox, huntouched, -⟩ := exec_lineOp_folds hd hf h hv hsel
  exact ⟨r, t, hv, hexec, hview, herrors, hmailbox, huntouched⟩

/-! ### A sequence of symbols -/

theorem isLineOp_of_selectsSym {i : Instr} {x : Sym} (h : selectsSym i x) : isLineOp i := by
  cases i <;> trivial

/-- A line operation touches the receive context only (rule R171). -/
theorem onlyReceiveSide_lineOp {i : Instr} {s t : State} (hi : isLineOp i) (hf : s.sys.fatal = false)
    (h : exec i s = .next t) : onlyReceiveSide s t := by
  cases i <;> simp only [isLineOp] at hi
  case rxChr b => exact onlyReceiveSide_character (ok_of_live hf h)
  case rxBrk => exact onlyReceiveSide_complete (ok_of_live hf h)
  case rxFerrStop1 => exact onlyReceiveSide_complete (ok_of_live (r := framingError s) hf h)
  case rxFerrStop2 => exact onlyReceiveSide_complete (ok_of_live (r := framingError s) hf h)
  case rxIdle =>
    have hok := ok_of_live hf h
    split at hok
    next => exact onlyReceiveSide_lineTimeout hok
    next => cases hok; exact ⟨rfl, rfl, rfl, rfl, rfl, rfl, rfl, rfl, rfl, rfl, .inl rfl⟩

/-- The event of a symbol is fetched as an operation that the symbol selects (rules R60 to R63, R73 and R74). -/
theorem fetch_symEvent (x : Sym) (s : State) : ∃ i, selectsSym i x ∧ fetch (symEvent x) s = .run i s := by
  cases x with
  | chr b =>
    have hdec : decodeSerial (window b true true) = .ok (.rxChr b) := by simp [decodeSerial_window]
    exact ⟨.rxChr b, rfl, lineWindow_run hdec s⟩
  | brk => exact ⟨.rxBrk, trivial, rfl⟩
  | ferr =>
    have hdec : decodeSerial (window 0x10 true false) = .ok (.rxFerrStop2 0x10) := by simp [decodeSerial_window]
    exact ⟨.rxFerrStop2 0x10, trivial, lineWindow_run hdec s⟩
  | idle => exact ⟨.rxIdle, trivial, rfl⟩

/-- A step whose next event is a symbol's is a step of the fold, and consumes the event. -/
theorem step_symEvent_folds {s : State} {r : RxRef} {x : Sym} {es : List Event} (hl : s.cfg.legal = true)
    (hd : s.cfg.decided = true) (hf : s.sys.fatal = false) (h : rxOk s.cfg s.rx = true) (hv : rxView s = some r)
    (hp : s.env.pending = symEvent x :: es) :
    ∃ t, step s = .next t ∧ FoldStep (rxRefStep r x) s t ∧ t.cfg = s.cfg ∧ t.sys.fatal = false ∧
      t.env.pending = es := by
  obtain ⟨i, hsel, hfetch⟩ := fetch_symEvent x (withPending s es)
  obtain ⟨t, hexec, hview, herrors, hmailbox, huntouched, hrx⟩ :=
    exec_lineOp_folds (s := withPending s es) hd hf h hv hsel
  obtain ⟨hcfg, -, -, hsys, -, henv, -⟩ :=
    onlyReceiveSide_lineOp (s := withPending s es) (isLineOp_of_selectsSym hsel) hf hexec
  have hstep : step s = .next t := by rw [step_pending hl hp, hfetch, perform, hexec]
  exact ⟨t, hstep, ⟨hview, herrors, hmailbox, huntouched, hrx⟩, hcfg, hsys ▸ hf, henv ▸ rfl⟩

theorem getLast?_toList {α : Type} (o : Option α) : o.toList.getLast? = o := by cases o <;> rfl

/-- Settles O27, by induction over the symbols: a step of the fold, then the run of the rest. -/
theorem receiverRunMatchesTheFold : Obligations.ReceiverRunMatchesTheFold := by
  intro s xs es r hl hd hf h hv hp
  induction xs generalizing s r with
  | nil => exact ⟨s, rfl, hv, (List.append_nil _).symm, nofun, fun _ => rfl, hp⟩
  | cons x xs ih =>
    obtain ⟨t, hstep, hfold, hcfg, hfatal, hpending⟩ := step_symEvent_folds hl hd hf h hv hp
    obtain ⟨u, hrun, hview, herrors, hmailbox, huntouched, hrest⟩ :=
      ih t _ (hcfg ▸ hl) (hcfg ▸ hd) hfatal (hcfg ▸ hfold.rx) hfold.view hpending
    refine ⟨u, (run_succ (M := Sys2Proof.core) xs.length hstep).trans hrun, hview, ?errors, ?mailbox, ?untouched, hrest⟩
    case errors =>
      rw [herrors, hfold.errors, List.append_assoc]
      rfl
    case mailbox =>
      intro f hlast
      simp only [rxRefRun, List.getLast?_append] at hlast
      cases hfs : (rxRefRun (rxRefStep r x).next xs).2.1 with
      | nil =>
        rw [mailboxFrame_congr (huntouched hfs)]
        refine hfold.mailbox f ?_
        simpa [hfs, getLast?_toList] using hlast
      | cons g fs =>
        refine hmailbox f ?_
        simpa [hfs] using hlast
    case untouched =>
      intro hnone
      obtain ⟨hfirst, hothers⟩ := List.append_eq_nil_iff.1 hnone
      exact (huntouched hothers).trans (hfold.untouched (Option.toList_eq_nil_iff.1 hfirst))

end Sys2Proof.Machine
end

section
/-! The statements of `41_mailbox.md` (rules R110 to R115), and what the takes of the mailbox and the render loop do. -/

namespace Sys2Proof.Machine

open Sys2Proof.Safety

/-! ### The frame on offer -/

theorem mailboxFrame_eq_some_iff {s : State} {f : Frame} :
    mailboxFrame s = some f ↔ s.mbx.full = true ∧ Memory.readBlock s.mbx.slot 0 frameLen = some f :=
  Option.ite_none_right_eq_some

theorem mailboxFrame_of_holds {s : State} {f : Frame} (full : s.mbx.full = true) (hlen : f.length = 512)
    (h : holds s.mbx.slot f) : mailboxFrame s = some f :=
  mailboxFrame_eq_some_iff.2 ⟨full, readBlock_of_holds hlen h⟩

/-- The latest deposit is on offer, whatever the slot held (rule R112). -/
theorem mailboxFrame_deposit {f : Frame} (hlen : f.length = 512) (s : State) : mailboxFrame (deposit f s) = some f :=
  mailboxFrame_eq_some_iff.2 ⟨rfl, readBlock_deposit hlen s⟩

/-! ### The operations of the mailbox in a running block -/

section
variable {s : State} (hf : s.sys.fatal = false)
include hf

theorem exec_mbxDeposit (f : Frame) : exec (.mbxDeposit f) s = .next (deposit f s) := live_ok hf _

/-- A take hands over the frame on offer and empties the slot (rule R111). -/
theorem exec_mbxTake_of_frame {f : Frame} (h : mailboxFrame s = some f) :
    exec .mbxTake s = .next ((s.withMbx { slot := [], full := false }).withRet (some (.frame f))) := by
  obtain ⟨full, hslot⟩ := mailboxFrame_eq_some_iff.1 h
  have htake := takeFrame_ok_iff.2 ⟨hslot, rfl⟩
  exact live_of_ok hf (by rw [if_pos full, htake])

theorem exec_mbxTake_waits (empty : s.mbx.full = false) : exec .mbxTake s = .next s :=
  live_of_ok hf (if_neg (Bool.eq_false_iff.1 empty))

/-- The render loop's take moves the frame on offer to RL and empties the slot (rule R120). -/
theorem exec_rlTake_of_frame {f : Frame} (state : s.rl.state = .take) (h : mailboxFrame s = some f) :
    exec .rlTake s = .next ((s.withMbx { slot := [], full := false }).withRl
      { s.rl with frame := Memory.ofList f, state := .map }) := by
  obtain ⟨full, hslot⟩ := mailboxFrame_eq_some_iff.1 h
  exact live_of_ok hf ((if_pos ⟨state, full⟩).trans (rlTake_ok_iff.2 ⟨f, hslot, rfl⟩))

/-- The render loop's take waits in every other state, and while the slot is empty (rule R120). -/
theorem exec_rlTake_waits (h : s.rl.state ≠ .take ∨ s.mbx.full = false) : exec .rlTake s = .next s := by
  refine live_of_ok hf (if_neg ?_)
  rintro ⟨state, full⟩
  obtain hstate | empty := h
  · exact hstate state
  · exact Bool.eq_false_iff.1 empty full

end

/-! ### The statements -/

/-- Settles O28: the next state is the deposit's, whose slot is made from the frame. -/
theorem depositOverwritesTheSlot : Obligations.DepositOverwritesTheSlot := by
  intro s f hf _
  exact ⟨deposit f s, exec_mbxDeposit hf f, rfl, Memory.read_ofList f, Memory.wf_ofList f, rfl⟩

/-- Settles O29: the take of the frame on offer, and the wait for one. -/
theorem takeReturnsAndEmpties : Obligations.TakeReturnsAndEmpties := by
  refine fun s hf => ⟨fun f full hlen hslot => ?_, exec_mbxTake_waits hf⟩
  exact ⟨_, exec_mbxTake_of_frame hf (mailboxFrame_of_holds full hlen hslot), rfl, rfl, rfl⟩

/-- Settles O30: after both deposits the second one's frame is on offer, and its take leaves nothing to take. -/
theorem takeReturnsTheLatestDeposit : Obligations.TakeReturnsTheLatestDeposit := by
  intro s a b hf _ hb
  have hdeposits : (deposit b (deposit a s)).sys.fatal = false := hf
  exact ⟨deposit a s, deposit b (deposit a s), _, exec_mbxDeposit hf a, exec_mbxDeposit (s := deposit a s) hf b,
    exec_mbxTake_of_frame hdeposits (mailboxFrame_deposit hb _), rfl, rfl, exec_mbxTake_waits hf rfl⟩

/-- Settles O31: each step of either order is one whole operation, so the take moves the frame on offer at its turn
and the deposit puts its own on offer. -/
theorem concurrentDepositAndTake : Obligations.ConcurrentDepositAndTake := by
  refine fun s a b hf state ha hb => ⟨fun full hslot => ?takeFirst, ?depositFirst, fun empty => ?alone⟩
  case takeFirst =>
    have htake := exec_rlTake_of_frame hf state (mailboxFrame_of_holds full ha hslot)
    refine ⟨_, _, htake, exec_mbxDeposit ?running b, holds_ofList a, mailboxFrame_deposit hb _⟩
    exact hf
  case depositFirst =>
    have htake := exec_rlTake_of_frame (s := deposit b s) hf state (mailboxFrame_deposit hb s)
    exact ⟨_, _, exec_mbxDeposit hf b, htake, holds_ofList b, rfl⟩
  case alone => exact exec_rlTake_waits hf (.inr empty)

end Sys2Proof.Machine
end

section
/-! The statements of `42_render.md` (rules R120 to R124). -/

namespace Sys2Proof.Machine

open Sys2Proof.Safety

/-! ### The pixels of a frame and their words (rules R121, R122 and R132) -/

theorem mapPixel_of_le {i : Nat} (h : 3 * i + 2 ≤ 511) (f : Frame) :
    mapPixel f i = ⟨f.getD (3 * i + 1) 0, f.getD (3 * i) 0, f.getD (3 * i + 2) 0⟩ := if_pos h

theorem mapPixel_of_lt {i : Nat} (h : 511 < 3 * i + 2) (f : Frame) : mapPixel f i = ⟨0, 0, 0⟩ :=
  if_neg (Nat.not_le.2 h)

theorem mapFrame_getElem?_of_lt {n i : Nat} (h : i < n) (f : Frame) : (mapFrame n f)[i]? = some (mapPixel f i) := by
  simp [mapFrame, h]

theorem mapFrame_getElem?_of_le {n i : Nat} (h : n ≤ i) (f : Frame) : (mapFrame n f)[i]? = none :=
  List.getElem?_eq_none (by simpa using h)

/-! ### The operations of the render loop in a running block -/

/-- The state after RL.MAP of a frame: the pixels computed and packed, and the transfer started. -/
def mapped (f : Frame) (s : State) : State :=
  (s.withRl { s.rl with pix := Memory.ofList (mapFrame s.cfg.nPix f), state := .write }).withEnc
    { s.enc with
      wordbuf := Memory.ofList ((mapFrame s.cfg.nPix f).map packPixel), dmaIdx := 0, dmaBusy := true }

theorem read_pix_mapped (f : Frame) (s : State) (i : Nat) :
    Memory.read (mapped f s).rl.pix i = (mapFrame s.cfg.nPix f)[i]? := Memory.read_ofList _ i

theorem read_wordbuf_mapped (f : Frame) (s : State) (i : Nat) :
    Memory.read (mapped f s).enc.wordbuf i = (mapFrame s.cfg.nPix f)[i]?.map packPixel :=
  (Memory.read_ofList _ i).trans List.getElem?_map

section
variable {s : State} (hf : s.sys.fatal = false)
include hf

theorem exec_rlMap_of_holds {f : Frame} (state : s.rl.state = .map) (idle : s.enc.dmaBusy = false)
    (hlen : f.length = 512) (h : holds s.rl.frame f) : exec .rlMap s = .next (mapped f s) :=
  live_of_ok hf ((if_pos state).trans (rlMap_ok_iff.2 ⟨f, readBlock_of_holds hlen h, idle, rfl⟩))

theorem exec_rlMap_waits (state : s.rl.state ≠ .map) : exec .rlMap s = .next s := live_of_ok hf (if_neg state)

theorem exec_rlWrite_waits (h : s.rl.state ≠ .write ∨ s.enc.dmaBusy = true) : exec .rlWrite s = .next s := by
  refine live_of_ok hf (congrArg _ (if_neg ?_))
  rintro ⟨state, done⟩
  obtain hstate | busy := h
  · exact hstate state
  · simp [encDone, busy] at done

theorem exec_rlPublish_of_holds {f : Frame} (state : s.rl.state = .publish) (hlen : f.length = 512)
    (h : holds s.rl.frame f) : exec .rlPublish s = .next (setRlState .take (publish .render f s)) :=
  live_of_ok hf ((if_pos state).trans (rlPublish_ok_iff.2 ⟨f, readBlock_of_holds hlen h, rfl⟩))

theorem exec_rlPublish_waits (state : s.rl.state ≠ .publish) : exec .rlPublish s = .next s :=
  live_of_ok hf (if_neg state)

end

/-- A publish attempt changes the counters and the traces only (rules R150, R151 and R154). -/
theorem publish_eq (c : Ctx) (f : Frame) (s : State) :
    publish c f s = (s.withPub (publish c f s).pub).withTrace (publish c f s).trace := by
  unfold publish
  split <;> rfl

/-! ### The statements -/

/-- Settles O32: the take of the frame on offer, and the wait for one. -/
theorem rlTakeMovesTheFrame : Obligations.RlTakeMovesTheFrame := by
  refine fun s hf => ⟨fun f state full hlen hslot => ?_, exec_rlTake_waits hf⟩
  have htake := exec_rlTake_of_frame hf state (mailboxFrame_of_holds full hlen hslot)
  exact ⟨_, htake, rfl, Memory.read_ofList f, Memory.wf_ofList f, rfl, rfl, rfl⟩

/-- Settles O33: below `N_PIX` both buffers hold the pixel of the frame, as itself and as its word; from there on they
hold nothing. -/
theorem rlMapMapsAndRequestsTheWrite : Obligations.RlMapMapsAndRequestsTheWrite := by
  refine fun s hf => ⟨fun f state idle hlen hframe => ?_, exec_rlMap_waits hf⟩
  refine ⟨mapped f s, exec_rlMap_of_holds hf state idle hlen hframe, ?inside, ?outside, rfl, rfl, rfl, rfl⟩
  case inside =>
    intro i hi
    have hpix := mapFrame_getElem?_of_lt hi f
    refine ⟨mapPixel f i, ?pixel, (mapPixel_of_le · f), (mapPixel_of_lt · f), ?word⟩
    case pixel => rw [read_pix_mapped, hpix]
    case word => rw [read_wordbuf_mapped, hpix]; rfl
  case outside =>
    intro i hi
    have hpix := mapFrame_getElem?_of_le hi f
    exact ⟨by rw [read_pix_mapped, hpix], by rw [read_wordbuf_mapped, hpix]; rfl⟩

/-- Settles O35: the publish attempt, then the return to `TAKE`. -/
theorem rlPublishOffersTheFrame : Obligations.RlPublishOffersTheFrame := by
  refine fun s hf => ⟨fun f state hlen hframe => ?_, exec_rlPublish_waits hf⟩
  refine ⟨_, exec_rlPublish_of_holds hf state hlen hframe, publishAttempt_publish .render f s, ?loop, ?frame⟩
  case loop => simp [setRlState]
  case frame => rw [publish_eq]; rfl

/-- Settles O34: the exit by the publish site, and the wait for completion. -/
theorem rlWriteWaitsForCompletion : Obligations.RlWriteWaitsForCompletion := by
  refine fun s hf => ⟨fun state idle => ⟨fun site => ?atRl, fun site => ?elsewhere⟩, exec_rlWrite_waits hf⟩
  case atRl => rw [exec_rlWrite_of_done hf state idle, if_pos site]
  case elsewhere => rw [exec_rlWrite_of_done hf state idle, if_neg site]

end Sys2Proof.Machine
end

section
/-! The statements of `43_encoder.md`, first part: what each operation of the encoder does in a running block (rules
R130 to R138), and a reset with an illegal divisor (rule R192). -/

namespace Sys2Proof.Machine

open Sys2Proof.Safety

/-! ### The divisor (rules R70 and R130) -/

theorem divisorLegal_iff {c : Config} :
    divisorLegal c = true ↔ 256 ≤ divisorQuotient c ∧ divisorQuotient c < 2 ^ 24 := by
  simp only [divisorLegal, Bool.and_eq_true, decide_eq_true_eq]
  rfl

/-- The register holds every quotient that 24 bits can hold, a legal divisor or not. -/
theorem toNat_divisorWord_of_lt {c : Config} (h : divisorQuotient c < 2 ^ 24) :
    (divisorWord c).toNat = divisorQuotient c := by
  have hword : divisorWord c = BitVec.ofNat 24 (divisorQuotient c) := if_pos h
  rw [hword, BitVec.toNat_ofNat, Nat.mod_eq_of_lt h]

theorem resetOf_illegal {c : Config} (h : divisorLegal c = false) :
    State.resetOf c =
      { State.powerOn c with
        sys := { fatal := true, runOn := 0 }
        trace := { ledBits := [], ledTicks := [], pub := [], log := [.hardwareFault], fatal := [.hardwareFault] } } :=
  if_neg (Bool.eq_false_iff.1 h)

/-- Settles O13: the next state is the reset table's with the hardware fault raised. -/
theorem resetWithIllegalDivisorIsFatal : Obligations.ResetWithIllegalDivisorIsFatal := by
  intro s hd
  refine ⟨returnByReset s, rfl, ?_⟩
  rw [returnByReset, resetOf_illegal hd]
  exact ⟨rfl, rfl, rfl, rfl, rfl, rfl, rfl, rfl, rfl, rfl, rfl⟩

/-- Settles O36: the assignments are made with any divisor, and an illegal one raises the fault besides. -/
theorem encInitComputesTheDivisor : Obligations.EncInitComputesTheDivisor := by
  intro s hf
  refine ⟨initialise s, live_ok hf _, ?_⟩
  intro q
  have henc : (initialise s).enc = (initFields s).enc := by unfold initialise; split <;> rfl
  have hword : q < 2 ^ 24 → (initFields s).enc.clkdiv.toNat = q := toNat_divisorWord_of_lt
  rw [henc]
  refine ⟨hword, rfl, rfl, rfl, rfl, rfl, rfl, rfl, fun hlegal => ?legal, fun hillegal => ?illegal⟩
  case legal => exact if_pos (divisorLegal_iff.2 hlegal)
  case illegal => exact if_neg (mt divisorLegal_iff.1 hillegal)

/-! ### The front end and the transfer (rules R131 to R133 and R137) -/

/-- The word buffer of a packed array (rule R132). -/
theorem read_packed (px : List Pixel) (i : Nat) :
    Memory.read (Memory.ofList (px.map packPixel)) i = px[i]?.map packPixel :=
  (Memory.read_ofList _ i).trans List.getElem?_map

/-- The bytes of a transfer word (rule R65). -/
theorem packPixel_fields (p : Pixel) :
    (packPixel p).extractLsb' 24 8 = p.g ∧ (packPixel p).extractLsb' 16 8 = p.r ∧ (packPixel p).extractLsb' 8 8 = p.b ∧
      (packPixel p).extractLsb' 0 8 = 0 := by
  obtain ⟨hpixel, hlow⟩ := unpackWord_packPixel p
  exact ⟨congrArg Pixel.g hpixel, congrArg Pixel.r hpixel, congrArg Pixel.b hpixel, hlow⟩

/-- Settles O38, by the fields of a packed word. -/
theorem encPackLaysOutTheWord : Obligations.EncPackLaysOutTheWord := by
  intro s px hf _
  refine ⟨pack px s, live_ok hf _, fun i p hp => ⟨packPixel p, ?_, packPixel_fields p⟩, rfl, rfl⟩
  exact (read_packed px i).trans (by rw [hp]; rfl)

/-- The state after ENC.WRITE: the array packed and the transfer started (rule R131). -/
def writeStarted (px : List Pixel) (s : State) : State :=
  s.withEnc { s.enc with wordbuf := Memory.ofList (px.map packPixel), dmaIdx := 0, dmaBusy := true }

theorem exec_encWrite_of_idle {s : State} (hf : s.sys.fatal = false) (idle : s.enc.dmaBusy = false)
    (px : List Pixel) : exec (.encWrite px) s = .next (writeStarted px s) :=
  live_of_ok hf (write_ok_iff.2 ⟨idle, rfl⟩)

/-- Settles O37: the idle transfer starts on the packed array, and a busy one is the named stop (log entry 15). -/
theorem encWriteStartsTheTransfer : Obligations.EncWriteStartsTheTransfer := by
  refine fun s px hf hlen => ⟨fun idle => ?starts, fun busy => ?stops⟩
  case starts =>
    refine ⟨writeStarted px s, exec_encWrite_of_idle hf idle px, fun i p hp => ?_, fun i hi => ?_, rfl, rfl⟩
    · exact (read_packed px i).trans (by rw [hp]; rfl)
    · exact (read_packed px i).trans (by rw [List.getElem?_eq_none (hlen.trans_le hi)]; rfl)
  case stops =>
    have hwrite : write px s = .error .writeWhileBusy := if_pos busy
    rw [exec, execEncWrite, hwrite, live_error hf]

theorem dmaEnabled_iff {s : State} :
    dmaEnabled s = true ↔ s.enc.dmaBusy = true ∧ s.enc.fifo.length < s.cfg.fifoDepth := by
  simp [dmaEnabled]

/-- The state after the transfer has handed `w` to the FIFO; after the last word it is complete (rules R133 and
R137). -/
def wordMoved (w : Word) (s : State) : State :=
  s.withEnc
    { s.enc with
      fifo := s.enc.fifo ++ [w], dmaIdx := s.enc.dmaIdx + 1, dmaBusy := decide (s.enc.dmaIdx + 1 ≠ s.cfg.nPix) }

theorem exec_encDma_moves {s : State} {w : Word} (hf : s.sys.fatal = false) (busy : s.enc.dmaBusy = true)
    (room : s.enc.fifo.length < s.cfg.fifoDepth) (hlt : s.enc.dmaIdx < s.cfg.nPix)
    (hread : Memory.read s.enc.wordbuf s.enc.dmaIdx = some w) : exec .encDma s = .next (wordMoved w s) := by
  have hbusy : (if s.enc.dmaIdx + 1 = s.cfg.nPix then false else s.enc.dmaBusy) =
      decide (s.enc.dmaIdx + 1 ≠ s.cfg.nPix) := by
    by_cases hlast : s.enc.dmaIdx + 1 = s.cfg.nPix <;> simp [hlast, busy]
  have hmove : moveWord s = .ok (wordMoved w s) := moveWord_ok_iff.2 ⟨w, hlt, hread, by rw [hbusy]; rfl⟩
  exact live_of_ok hf ((if_pos (dmaEnabled_iff.2 ⟨busy, room⟩)).trans hmove)

/-- Settles O39: the enabled step moves the word, and without a transfer or room the step waits. -/
theorem encDmaMovesOneWord : Obligations.EncDmaMovesOneWord := by
  refine fun s hf => ⟨fun w busy room hlt hread => exec_encDma_moves hf busy room hlt hread, fun hwait => ?_⟩
  refine live_of_ok hf (if_neg fun henabled => ?_)
  obtain ⟨busy, room⟩ := dmaEnabled_iff.1 henabled
  obtain idle | full := hwait
  · exact Bool.eq_false_iff.1 idle busy
  · exact Nat.not_le.2 room full

/-- Settles O40: in a running block the operation is the end of the transfer. -/
theorem encDoneClearsBusy : Obligations.EncDoneClearsBusy := fun s hf => live_ok hf (transferDone s)

/-! ### The bit generator (rules R134, R135 and R138) -/

theorem pull_of_cons {s : State} {w : Word} {ws : List Word} (hb : s.enc.bitsLeft = 0) (hfifo : s.enc.fifo = w :: ws) :
    pull s = s.withEnc { s.enc with osr := w, fifo := ws, bitsLeft := 24 } := by
  simp [pull, hfifo, hb]

theorem pull_waits {s : State} (h : 0 < s.enc.bitsLeft ∨ s.enc.fifo = []) : pull s = s := by
  obtain ⟨w, ws, hfifo, hb, -⟩ | ⟨-, hpull⟩ := pull_cases s
  · simp [hfifo, hb] at h
  · exact hpull

/-- Settles O41: the pull of the oldest word, and the wait for one. -/
theorem encPullLoadsTheShifter : Obligations.EncPullLoadsTheShifter := by
  refine fun s hf => ⟨fun w ws hb hfifo => ?_, fun hwait => ?_⟩
  · rw [← pull_of_cons hb hfifo]; exact live_ok hf _
  · exact (live_ok hf _).trans (congrArg _ (pull_waits hwait))

/-- At a cell boundary a cell is whole (rule R68). -/
theorem restTicks_boundary {s : State} (h : s.enc.tickCnt = 0) : restTicks s = cellTicks s.cfg (nextBit s) := by
  rw [restTicks, h, cellRest_boundary]

/-- Settles O42: the cell of the next bit is sent whole, and the operation of the other bit waits. -/
theorem encCellsSendTheTopBit : Obligations.EncCellsSendTheTopBit := by
  refine fun s hf => ⟨fun hb hcnt hph => ?sends, fun hwait => ?cell1, fun hwait => ?cell0⟩
  case sends =>
    refine (exec_cell hf hb).trans ?_
    rw [cellStep_eq, restTicks_boundary hcnt, ← hcnt, ← hph]
    rfl
  case cell1 =>
    refine live_of_ok hf (congrArg _ (if_neg ?_))
    rintro ⟨hb, hbit⟩
    obtain hzero | hlow := hwait
    · exact hb.ne' hzero
    · exact Bool.eq_false_iff.1 hlow hbit
  case cell0 =>
    refine live_of_ok hf (congrArg _ (if_neg ?_))
    rintro ⟨hb, hbit⟩
    obtain hzero | hhigh := hwait
    · exact hb.ne' hzero
    · exact Bool.eq_false_iff.1 hbit hhigh

theorem shifterIdle_iff {s : State} : shifterIdle s = true ↔ s.enc.bitsLeft = 0 ∧ s.enc.fifo = [] := by
  simp [shifterIdle]

/-- Settles O43: the idle tick of an idle shifter, and nothing else. -/
theorem encIdleKeepsTheLineLow : Obligations.EncIdleKeepsTheLineLow := by
  refine fun s hf => ⟨fun hb hfifo => ?_, fun hwait => ?_⟩
  · exact live_of_ok hf (congrArg _ (if_pos (shifterIdle_iff.2 ⟨hb, hfifo⟩)))
  · refine live_of_ok hf (congrArg _ (if_neg fun hidle => ?_))
    obtain ⟨hb, hfifo⟩ := shifterIdle_iff.1 hidle
    obtain hbits | hwords := hwait
    · exact hbits.ne' hb
    · exact hwords hfifo

end Sys2Proof.Machine
end

section
/-! The statements of `43_encoder.md`, second part: the bits of a word and of a whole write on the wire (rules R136
and R140). -/

namespace Sys2Proof.Machine

open Sys2Proof.Safety

/-! ### Runs -/

/-- A run that reaches a state goes on from there. -/
theorem run_add {M : Host.Core} {s t : M.State} {k : Nat} (l : Nat) (h : M.run k s = .next t) :
    M.run (k + l) s = M.run l t := by
  induction k generalizing s with
  | zero => cases h; rw [Nat.zero_add]
  | succ k ih =>
    cases hstep : M.step s with
    | next u =>
      rw [run_succ k hstep] at h
      rw [Nat.add_right_comm, run_succ (k + l) hstep, ih h]
    | fault f => simp [Host.Core.run, hstep] at h
    | refused r => simp [Host.Core.run, hstep] at h

/-! ### The bits of a word (rules R65, R132, R136 and R140) -/

/-- The bits of a word are those of its green, red and blue bytes, each most significant first. -/
theorem wordBits_eq (w : Word) :
    wordBits w = msb8 (w.extractLsb' 24 8) ++ msb8 (w.extractLsb' 16 8) ++ msb8 (w.extractLsb' 8 8) := by
  simp [wordBits, shiftBits, msb8, List.range_succ]

theorem wordBits_packPixel (p : Pixel) : wordBits (packPixel p) = msb8 p.g ++ msb8 p.r ++ msb8 p.b := by
  obtain ⟨hg, hr, hb, -⟩ := packPixel_fields p
  rw [wordBits_eq, hg, hr, hb]

/-- The packed words of an array carry `bits(p)` of rule R140. -/
theorem flatMap_wordBits_packPixel (px : List Pixel) : (px.map packPixel).flatMap wordBits = ledFrameBits px := by
  rw [List.flatMap_map, ledFrameBits]
  exact List.flatMap_congr fun p _ => wordBits_packPixel p

/-! ### The cells of a word (rules R135 and R136) -/

/-- Whole cells have gone out, the last of the shift register's: it holds `o` and the line is low at a boundary. -/
def cellsSent (bits : List Level) (o : Word) (s : State) : State :=
  (s.withEnc { s.enc with osr := o, bitsLeft := 0, phase := .start, tickCnt := 0, led := false }).withTrace
    { s.trace with
      ledBits := s.trace.ledBits ++ bits, ledTicks := s.trace.ledTicks ++ bits.flatMap (cellTicks s.cfg) }

/-- A step of the shifter with bits left is the next cell (rules R74 and R135). -/
theorem step_cell {s : State} {es : List Event} (hl : s.cfg.legal = true) (hf : s.sys.fatal = false)
    (hb : 0 < s.enc.bitsLeft) (hp : s.env.pending = .run .shift :: es) :
    step s = .next (cellStep (withPending s es)) := by
  have hsel : select .shift s = if nextBit s then .encCell1 else .encCell0 := if_pos hb
  rw [step_run hl hp, hsel]
  exact exec_cell (s := withPending s es) hf hb

/-- A cell before the others is one bit more. -/
theorem cellsSent_cellStep {s : State} (hcnt : s.enc.tickCnt = 0) (bits : List Level) (o : Word) :
    cellsSent bits o (cellStep s) = cellsSent (nextBit s :: bits) o s := by
  simp [cellsSent, cellStep_eq, restTicks_boundary hcnt]
  rfl

theorem cellStep_last {s : State} (hcnt : s.enc.tickCnt = 0) (hb : s.enc.bitsLeft = 1) :
    cellStep s = cellsSent [nextBit s] (s.enc.osr <<< 1) s := by
  simp [cellsSent, cellStep_eq, restTicks_boundary hcnt, hb]

/-- From a cell boundary, as many steps of the shifter as it has bits left send them, the top bit first. -/
theorem run_cells {s : State} {es : List Event} {n : Nat} (hl : s.cfg.legal = true) (hf : s.sys.fatal = false)
    (hb : s.enc.bitsLeft = n + 1) (hn : n < 32) (hcnt : s.enc.tickCnt = 0)
    (hp : s.env.pending = List.replicate (n + 1) (.run .shift) ++ es) :
    Sys2Proof.core.run (n + 1) s =
      .next (cellsSent (shiftBits s.enc.osr (n + 1)) (s.enc.osr <<< (n + 1)) (withPending s es)) := by
  induction n generalizing s with
  | zero =>
    have hstep := step_cell (es := es) hl hf (by omega) hp
    rw [cellStep_last (s := withPending s es) hcnt hb] at hstep
    rw [shiftBits_succ _ _ hn]
    exact run_succ (M := Sys2Proof.core) 0 hstep
  | succ n ih =>
    obtain ⟨later, hlater⟩ : ∃ later, later = List.replicate (n + 1) (Event.run .shift) ++ es := ⟨_, rfl⟩
    have hstep := step_cell (es := later) hl hf (by omega) (by rw [hp, hlater]; rfl)
    have hrest := ih (s := cellStep (withPending s later)) hl hf (congrArg (· - 1) hb) (by omega) rfl hlater
    have hshift : s.enc.osr <<< (n + 1 + 1) = s.enc.osr <<< 1 <<< (n + 1) := by
      rw [Nat.add_comm (n + 1), BitVec.shiftLeft_add]
    rw [run_succ (M := Sys2Proof.core) (n + 1) hstep, hrest, shiftBits_succ _ _ hn, hshift]
    exact congrArg _ (cellsSent_cellStep (s := withPending s es) hcnt _ _)

/-! ### One word (rule R136) -/

/-- The first word of the FIFO has been used up and its cells have gone out. -/
def wordSent (w : Word) (ws : List Word) (s : State) : State :=
  cellsSent (wordBits w) (w <<< 24) (s.withEnc { s.enc with fifo := ws })

/-- A step of the shifter with no bits left and a word waiting is the pull (rules R74 and R134). -/
theorem step_pull {s : State} {w : Word} {ws : List Word} {es : List Event} (hl : s.cfg.legal = true)
    (hf : s.sys.fatal = false) (hb : s.enc.bitsLeft = 0) (hfifo : s.enc.fifo = w :: ws)
    (hp : s.env.pending = .run .shift :: es) :
    step s = .next ((withPending s es).withEnc { s.enc with osr := w, fifo := ws, bitsLeft := 24 }) := by
  have hsel : select .shift s = .encPull := by simp [select, hb, hfifo]
  rw [step_run hl hp, hsel]
  exact (live_ok (s := withPending s es) hf _).trans (congrArg _ (pull_of_cons (s := withPending s es) hb hfifo))

/-- One pull and 24 cells send a word. -/
theorem run_word {s : State} {w : Word} {ws : List Word} {es : List Event} (hl : s.cfg.legal = true)
    (hf : s.sys.fatal = false) (hb : s.enc.bitsLeft = 0) (hcnt : s.enc.tickCnt = 0) (hfifo : s.enc.fifo = w :: ws)
    (hp : s.env.pending = List.replicate 25 (.run .shift) ++ es) :
    Sys2Proof.core.run 25 s = .next (wordSent w ws (withPending s es)) := by
  have hpull := step_pull (es := List.replicate 24 (.run .shift) ++ es) hl hf hb hfifo (by rw [hp]; rfl)
  refine (run_succ (M := Sys2Proof.core) 24 hpull).trans ?_
  exact run_cells (n := 23) (es := es) hl hf rfl (by decide) hcnt rfl

/-- Settles O44: the pull and the 24 cells, each bit with its own ticks. -/
theorem wordGoesOutMostSignificantFirst : Obligations.WordGoesOutMostSignificantFirst := by
  intro s w ws es hl hf hb hcnt hph hfifo hp
  refine ⟨wordSent w ws (withPending s es), run_word hl hf hb hcnt hfifo hp, rfl, ?ticks, rfl, rfl, rfl, rfl, rfl, rfl,
    rfl, rfl, rfl⟩
  case ticks => exact congrArg (s.trace.ledTicks ++ ·) (List.flatMap_map _ _ _)

/-! ### A whole write (rule R140) -/

/-- The transfer has the words `ws` still to hand off, in a running block whose FIFO is empty and whose shifter is
idle at a cell boundary; with no word left it is complete and the line is low. -/
structure Streaming (ws : List Word) (s : State) : Prop where
  legal : s.cfg.legal = true
  running : s.sys.fatal = false
  noBits : s.enc.bitsLeft = 0
  boundary : s.enc.tickCnt = 0
  fifo : s.enc.fifo = []
  busy : s.enc.dmaBusy = !ws.isEmpty
  count : s.enc.dmaIdx + ws.length = s.cfg.nPix
  words : ∀ j < ws.length, Memory.read s.enc.wordbuf (s.enc.dmaIdx + j) = ws[j]?
  low : ws = [] → s.enc.led = false

/-- One step of the transfer and 25 of the shifter. -/
def transferRound : List Event := .run .dma :: List.replicate 25 (.run .shift)

/-- The state after a round: the word has been handed off, used up and sent. -/
def roundOver (w : Word) (s : State) : State := wordSent w [] (wordMoved w s)

theorem run_round {w : Word} {ws : List Word} {s : State} {es : List Event} (h : Streaming (w :: ws) s)
    (hp : s.env.pending = transferRound ++ es) : Sys2Proof.core.run 26 s = .next (roundOver w (withPending s es)) := by
  obtain ⟨-, hdepth, -⟩ := Config.legal_iff.1 h.legal
  obtain ⟨later, hlater⟩ : ∃ later, later = List.replicate 25 (Event.run .shift) ++ es := ⟨_, rfl⟩
  have hcount := h.count
  rw [List.length_cons] at hcount
  have hmove : exec .encDma (withPending s later) = .next (wordMoved w (withPending s later)) := by
    refine exec_encDma_moves (s := withPending s later) h.running h.busy ?room ?inside ?word
    case room => exact (congrArg List.length h.fifo).trans_lt hdepth
    case inside => change s.enc.dmaIdx < s.cfg.nPix; omega
    case word => exact h.words 0 (Nat.zero_lt_succ _)
  have hstep : step s = .next (wordMoved w (withPending s later)) :=
    (step_run h.legal (a := .dma) (by rw [hp, hlater]; rfl)).trans hmove
  refine (run_succ (M := Sys2Proof.core) 25 hstep).trans ?_
  refine run_word (s := wordMoved w (withPending s later)) h.legal h.running h.noBits h.boundary ?_ hlater
  exact congrArg (· ++ [w]) h.fifo

theorem Streaming.roundOver {w : Word} {ws : List Word} {s : State} (h : Streaming (w :: ws) s) (es : List Event) :
    Streaming ws (roundOver w (withPending s es)) where
  legal := h.legal
  running := h.running
  noBits := rfl
  boundary := rfl
  fifo := rfl
  busy := by
    have hcount := h.count
    change decide (s.enc.dmaIdx + 1 ≠ s.cfg.nPix) = _
    rw [← hcount]
    cases ws <;> simp
  count := by
    have hcount := h.count
    rw [List.length_cons] at hcount
    change s.enc.dmaIdx + 1 + ws.length = s.cfg.nPix
    omega
  words := fun j hj => by
    have hword := h.words (j + 1) (Nat.succ_lt_succ hj)
    rwa [Nat.add_comm j 1, ← Nat.add_assoc, Nat.add_comm 1 j] at hword
  low := fun _ => rfl

/-- As many rounds as there are words send them all. -/
theorem run_rounds {ws : List Word} {s : State} {es : List Event} (h : Streaming ws s)
    (hp : s.env.pending = (List.replicate ws.length transferRound).flatten ++ es) :
    ∃ u, Sys2Proof.core.run (26 * ws.length) s = .next u ∧ Streaming [] u ∧
      u.trace.ledBits = s.trace.ledBits ++ ws.flatMap wordBits ∧
      u.trace.ledTicks = s.trace.ledTicks ++ (ws.flatMap wordBits).flatMap (cellTicks s.cfg) ∧ u.env.pending = es := by
  induction ws generalizing s with
  | nil => exact ⟨s, rfl, h, by simp, by simp, hp⟩
  | cons w ws ih =>
    obtain ⟨later, hlater⟩ : ∃ later, later = (List.replicate ws.length transferRound).flatten ++ es := ⟨_, rfl⟩
    have hround := run_round (es := later) h (by rw [hp, hlater]; simp [List.replicate_succ])
    obtain ⟨u, hrun, hdone, hbits, hticks, hpending⟩ := ih (h.roundOver later) hlater
    refine ⟨u, ?_, hdone, ?_, ?_, hpending⟩
    · rw [List.length_cons, Nat.mul_succ, Nat.add_comm, run_add (M := Sys2Proof.core) _ hround, hrun]
    · rw [hbits, List.flatMap_cons, ← List.append_assoc]; rfl
    · rw [hticks, List.flatMap_cons, List.flatMap_append, ← List.append_assoc]; rfl

/-- There is a pixel, so there is a word to send (rule R4). -/
theorem map_packPixel_ne_nil {c : Config} {px : List Pixel} (hl : c.legal = true) (hlen : px.length = c.nPix) :
    px.map packPixel ≠ [] := by
  obtain ⟨hnPix, -⟩ := Config.legal_iff.1 hl
  rintro hnil
  rw [List.map_eq_nil_iff.1 hnil, List.length_nil] at hlen
  omega

theorem streaming_writeStarted {s : State} {px : List Pixel} (es : List Event) (hl : s.cfg.legal = true)
    (hf : s.sys.fatal = false) (hfifo : s.enc.fifo = []) (hb : s.enc.bitsLeft = 0) (hcnt : s.enc.tickCnt = 0)
    (hlen : px.length = s.cfg.nPix) : Streaming (px.map packPixel) (withPending (writeStarted px s) es) where
  legal := hl
  running := hf
  noBits := hb
  boundary := hcnt
  fifo := hfifo
  busy := by
    rw [List.isEmpty_eq_false_iff.2 (map_packPixel_ne_nil hl hlen)]
    rfl
  count := by
    rw [List.length_map, hlen]
    exact Nat.zero_add _
  words := fun j _ => by
    rw [← Memory.read_ofList]
    exact congrArg _ (Nat.zero_add j)
  low := fun hnil => absurd hnil (map_packPixel_ne_nil hl hlen)

/-- Settles O47: the write starts the transfer, and each round sends the next word. -/
theorem oneWritePutsItsBitsOnTheWire : Obligations.OneWritePutsItsBitsOnTheWire := by
  intro s t px es hl hf idle hfifo hb hcnt hph hlen hwrite
  obtain rfl : writeStarted px s = t := by simpa [exec_encWrite_of_idle hf idle px] using hwrite
  have hstart :=
    streaming_writeStarted ((List.replicate s.cfg.nPix transferRound).flatten ++ es) hl hf hfifo hb hcnt hlen
  have hwords : (px.map packPixel).length = s.cfg.nPix := by rw [List.length_map, hlen]
  obtain ⟨u, hrun, hdone, hbits, hticks, hpending⟩ := run_rounds hstart (es := es) (by rw [hwords]; rfl)
  rw [flatMap_wordBits_packPixel] at hbits hticks
  rw [hwords] at hrun
  exact ⟨u, hrun, hbits, hticks, hdone.busy, hdone.fifo, hdone.noBits, hdone.low rfl, hpending⟩


end Sys2Proof.Machine
end

section
/-! The statements of `43_encoder.md`, third part: the bits sent and still owed (rules R140 to R142). -/

namespace Sys2Proof.Machine.Memory

variable {α : Type}

/-- A block read is its first element and the block after it. -/
theorem readBlock_succ {m : Memory α} {i n : Nat} {v : α} {vs : List α} (hm : wf m = true) (hv : read m i = some v)
    (h : readBlock m i (n + 1) = some vs) : ∃ ws, vs = v :: ws ∧ readBlock m (i + 1) n = some ws := by
  obtain ⟨hlen, hread⟩ := (readBlock_eq_some_iff hm).1 h
  cases vs with
  | nil => simp at hlen
  | cons w ws =>
    have hfirst : some v = some w := hv.symm.trans (hread 0 (Nat.zero_lt_succ n))
    refine ⟨ws, by rw [Option.some.inj hfirst], (readBlock_eq_some_iff hm).2 ⟨by simpa using hlen, fun j hj => ?_⟩⟩
    rw [Nat.add_right_comm]
    exact hread (j + 1) (Nat.succ_lt_succ hj)

/-- The rest of a written block has been written. -/
theorem readBlock_of_written {m : Memory α} {i n : Nat} (hm : wf m = true) (h : written m 0 n = true) (hi : i ≤ n) :
    ∃ vs, readBlock m i (n - i) = some vs := by
  obtain ⟨vs, hvs⟩ := Option.isSome_iff_exists.1 h
  obtain ⟨hlen, hread⟩ := (readBlock_wf_iff hm).1 hvs
  refine ⟨vs.drop i, (readBlock_eq_some_iff hm).2 ⟨by rw [List.length_drop, hlen], fun j hj => ?_⟩⟩
  rw [hread (i + j) (by omega), List.getElem?_drop]

end Sys2Proof.Machine.Memory

namespace Sys2Proof.Safety

open Sys2Proof.Machine

/-! ### The words of the transfer and the bits sent or owed -/

/-- The words that the transfer in progress has still to hand off. -/
def transferWords (s : State) : List Word :=
  if s.enc.dmaBusy then
    (Memory.readBlock s.enc.wordbuf s.enc.dmaIdx (s.cfg.nPix - s.enc.dmaIdx)).getD []
  else []

theorem transferWords_of_idle {s : State} (idle : s.enc.dmaBusy = false) : transferWords s = [] :=
  if_neg (Bool.eq_false_iff.1 idle)

theorem transferWords_of_readBlock {s : State} {ws : List Word} (busy : s.enc.dmaBusy = true)
    (h : Memory.readBlock s.enc.wordbuf s.enc.dmaIdx (s.cfg.nPix - s.enc.dmaIdx) = some ws) :
    transferWords s = ws := by
  rw [transferWords, if_pos busy, h, Option.getD_some]

theorem owedBits_eq (s : State) :
    owedBits s = shiftBits s.enc.osr s.enc.bitsLeft ++ (s.enc.fifo ++ transferWords s).flatMap wordBits := by
  rw [List.flatMap_append, ← List.append_assoc, owedBits, transferWords]
  split <;> rfl

/-- The bits sent and those that the encoder still holds, whatever went out after a fault. -/
def sentOrHeld (s : State) : List Level := s.trace.ledBits ++ owedBits s

theorem promised_of_noRunOn {s : State} (h : s.sys.runOn = 0) : promised s = sentOrHeld s := by
  rw [promised, owed, h, List.drop_zero, sentOrHeld]

theorem noRunOn_of_running {s : State} (h : Inv s) (running : s.sys.fatal = false) : s.sys.runOn = 0 :=
  ((sysOk_of_running running).1 h.sys).2

/-- In a running block the promise is kept by a step that keeps the bits sent or held. -/
theorem promised_of_sentOrHeld {s t : State} (h : Inv s) (running : s.sys.fatal = false)
    (hrunOn : t.sys.runOn = s.sys.runOn) (heq : sentOrHeld t = sentOrHeld s) : promised t = promised s := by
  have hnone := noRunOn_of_running h running
  rw [promised_of_noRunOn hnone, promised_of_noRunOn (hrunOn.trans hnone), heq]

/-- The promise is made of the encoder, the bits sent and the count of cells after the fault. -/
theorem promised_congr {s t : State} (hcfg : t.cfg = s.cfg) (henc : t.enc = s.enc) (hsys : t.sys = s.sys)
    (hbits : t.trace.ledBits = s.trace.ledBits) : promised t = promised s := by
  rw [promised, promised, owed, owed, owedBits, owedBits, hcfg, henc, hsys, hbits]

theorem promised_receiveSide {s t : State} (h : onlyReceiveSide s t) : promised t = promised s := by
  obtain ⟨hcfg, -, henc, hsys, -, -, -, hbits, -⟩ := h
  exact promised_congr hcfg henc hsys hbits

/-! ### The bit generator moves the first bit held to the wire (rules R134, R135 and R142) -/

theorem sentOrHeld_pull (s : State) : sentOrHeld (pull s) = sentOrHeld s := by
  obtain ⟨w, ws, hfifo, hb, heq⟩ | ⟨-, heq⟩ := pull_cases s
  · simp [heq, sentOrHeld, owedBits, hfifo, hb, wordBits, shiftBits]
  · rw [heq]

/-- A cell that ends records the next bit and shifts it out. -/
theorem sentOrHeld_cellEnds {s t : State} (hpos : 0 < s.enc.bitsLeft) (hle : s.enc.bitsLeft ≤ 24)
    (henc : t.enc =
      { s.enc with
        osr := s.enc.osr <<< 1, bitsLeft := s.enc.bitsLeft - 1, phase := .start, tickCnt := 0, led := false })
    (hcfg : t.cfg = s.cfg) (hbits : t.trace.ledBits = s.trace.ledBits ++ [nextBit s]) :
    sentOrHeld t = sentOrHeld s := by
  obtain ⟨n, hn⟩ := Nat.exists_eq_succ_of_ne_zero hpos.ne'
  have hshift : shiftBits s.enc.osr s.enc.bitsLeft = nextBit s :: shiftBits (s.enc.osr <<< 1) (s.enc.bitsLeft - 1) := by
    rw [hn]
    exact shiftBits_succ s.enc.osr n (by omega)
  simp only [sentOrHeld, owedBits, henc, hcfg, hbits, hshift, List.append_assoc, List.cons_append, List.nil_append]

theorem sentOrHeld_cellStep {s : State} (hpos : 0 < s.enc.bitsLeft) (hle : s.enc.bitsLeft ≤ 24) :
    sentOrHeld (cellStep s) = sentOrHeld s := sentOrHeld_cellEnds hpos hle rfl rfl rfl

theorem sentOrHeld_finishCell {s : State} (hle : s.enc.bitsLeft ≤ 24) : sentOrHeld (finishCell s) = sentOrHeld s := by
  unfold finishCell
  split
  next h => exact sentOrHeld_cellStep h.2 hle
  next => rfl

theorem sentOrHeld_cellTick {s : State} (hpos : 0 < s.enc.bitsLeft) (hle : s.enc.bitsLeft ≤ 24) :
    sentOrHeld (cellTick s) = sentOrHeld s := by
  obtain ⟨ph, n, -, heq⟩ | heq := cellTick_cases s <;> rw [heq]
  · rfl
  · exact sentOrHeld_cellEnds hpos hle rfl rfl rfl

theorem bitsLeft_pull_le {s : State} (hle : s.enc.bitsLeft ≤ 24) : (pull s).enc.bitsLeft ≤ 24 := by
  obtain ⟨w, ws, -, -, heq⟩ | ⟨-, heq⟩ := pull_cases s <;> rw [heq]
  · exact le_refl 24
  · exact hle

theorem sentOrHeld_tick {s : State} (hle : s.enc.bitsLeft ≤ 24) : sentOrHeld (tick s) = sentOrHeld s := by
  rw [← sentOrHeld_pull s]
  unfold tick
  simp only
  split
  next => rfl
  next hb => exact sentOrHeld_cellTick (Nat.pos_of_ne_zero hb) (bitsLeft_pull_le hle)

theorem sentOrHeld_encClock {s : State} (hle : s.enc.bitsLeft ≤ 24) : sentOrHeld (encClock s) = sentOrHeld s := by
  unfold encClock
  simp only
  split
  · exact sentOrHeld_tick (s := s.withEnc _) hle
  · rfl

/-! ### The transfer hands its first word to the FIFO (rule R133) -/

theorem transferWords_moveWord {s t : State} (h : Inv s) (busy : s.enc.dmaBusy = true) (ht : moveWord s = .ok t) :
    t.enc.fifo ++ transferWords t = s.enc.fifo ++ transferWords s := by
  obtain ⟨w, hlt, hread, rfl⟩ := moveWord_ok_iff.1 ht
  obtain ⟨hbuf, -⟩ := encOk_iff.1 h.enc
  obtain ⟨-, hwritten, -⟩ := (dmaOk_iff.1 h.dma).1 busy
  have hwf := wf_of_bufferOk hbuf
  obtain ⟨vs, hvs⟩ := Memory.readBlock_of_written hwf hwritten hlt.le
  obtain ⟨n, hn⟩ : ∃ n, s.cfg.nPix - s.enc.dmaIdx = n + 1 := ⟨s.cfg.nPix - s.enc.dmaIdx - 1, by omega⟩
  have hold := transferWords_of_readBlock busy hvs
  rw [hn] at hvs
  obtain ⟨ws, rfl, hws⟩ := Memory.readBlock_succ hwf hread hvs
  rw [hold, List.append_cons s.enc.fifo w ws]
  refine congrArg (s.enc.fifo ++ [w] ++ ·) ?_
  by_cases hlast : s.enc.dmaIdx + 1 = s.cfg.nPix
  case pos =>
    obtain rfl : n = 0 := by omega
    have hnone : some [] = some ws := (Memory.readBlock_zero _ _).symm.trans hws
    rw [transferWords_of_idle (if_pos hlast)]
    exact Option.some.inj hnone
  case neg =>
    refine transferWords_of_readBlock ((if_neg hlast).trans busy) ?_
    have hcount : s.cfg.nPix - (s.enc.dmaIdx + 1) = n := by omega
    rw [← hws, ← hcount]
    rfl

theorem sentOrHeld_moveWord {s t : State} (h : Inv s) (busy : s.enc.dmaBusy = true) (ht : moveWord s = .ok t) :
    sentOrHeld t = sentOrHeld s := by
  have hwords := transferWords_moveWord h busy ht
  obtain ⟨w, -, -, rfl⟩ := moveWord_ok_iff.1 ht
  rw [sentOrHeld, sentOrHeld, owedBits_eq, owedBits_eq, hwords]
  rfl

/-! ### RL.MAP promises the bits of its frame, and no other step changes the promise (rules R126 and R140) -/

theorem sentOrHeld_mapped {s : State} (f : Frame) (idle : s.enc.dmaBusy = false) :
    sentOrHeld (mapped f s) = sentOrHeld s ++ ledFrameBits (mapFrame s.cfg.nPix f) := by
  have hwords : transferWords (mapped f s) = (mapFrame s.cfg.nPix f).map packPixel := by
    refine transferWords_of_readBlock rfl ?_
    have hlen : s.cfg.nPix = ((mapFrame s.cfg.nPix f).map packPixel).length := by simp
    have hall := Memory.readBlock_ofList ((mapFrame s.cfg.nPix f).map packPixel)
    rwa [← hlen] at hall
  rw [sentOrHeld, sentOrHeld, owedBits_eq, owedBits_eq, hwords, transferWords_of_idle idle, List.append_nil,
    List.flatMap_append, flatMap_wordBits_packPixel, ← List.append_assoc, ← List.append_assoc, ← List.append_assoc]
  rfl

theorem promised_rlMap {s t : State} (h : Inv s) (running : s.sys.fatal = false) (ht : rlMap s = .ok t) :
    ∃ f, Memory.readBlock s.rl.frame 0 512 = some f ∧
      promised t = promised s ++ ledFrameBits (mapFrame s.cfg.nPix f) := by
  obtain ⟨f, hf, idle, rfl⟩ := rlMap_ok_iff.1 ht
  have hnone := noRunOn_of_running h running
  refine ⟨f, hf, ?_⟩
  rw [promised_of_noRunOn hnone, ← sentOrHeld_mapped f idle]
  exact promised_of_noRunOn (s := mapped f s) hnone

theorem promised_runOnCell (s : State) : promised (runOnCell s) = promised s := by
  cases hf : s.sys.fatal with
  | false => rw [runOnCell, if_neg (by simp [hf])]
  | true =>
    obtain heq | ⟨v, ho, heq⟩ := runOnCell_cases hf
    · rw [heq]
    · rw [promised, promised, ho, List.append_cons]
      rw [heq]
      rfl

theorem runOn_of_onlyShifter {s t : State} (h : onlyShifter s t) : t.sys.runOn = s.sys.runOn := by
  obtain ⟨_, _, _, rfl, -⟩ := h
  rfl

theorem runOn_moveWord {s t : State} (h : moveWord s = .ok t) : t.sys.runOn = s.sys.runOn := by
  obtain ⟨_, -, -, rfl⟩ := moveWord_ok_iff.1 h
  rfl

theorem promised_takeHardwareFault (s : State) : promised (takeHardwareFault s) = promised s := rfl

/-- Every step of the block keeps the promise, but for reset and the mapping step of a running block. -/
theorem promised_blockStep {s t : State} {e : Event} (h : Inv s) (hst : BlockStep s e t) (hr : e ≠ .rst)
    (hmap : ¬ (e = .run .rl ∧ s.rl.state = .map ∧ s.sys.fatal = false)) : promised t = promised s := by
  obtain ⟨-, -, -, -, hle, -⟩ := encOk_iff.1 h.enc
  have hshifter : ∀ {u}, s.sys.fatal = false → onlyShifter s u → sentOrHeld u = sentOrHeld s →
      promised u = promised s :=
    fun running hu => promised_of_sentOrHeld h running (runOn_of_onlyShifter hu)
  cases hst with
  | stay => rfl
  | ready v => rfl
  | character b running ht => exact promised_receiveSide (onlyReceiveSide_character ht)
  | readEnds result atBreak running ht => exact promised_receiveSide (onlyReceiveSide_complete ht)
  | lineTimeout running ht => exact promised_receiveSide (onlyReceiveSide_lineTimeout ht)
  | take running state full ht =>
    obtain ⟨f, -, rfl⟩ := rlTake_ok_iff.1 ht
    rfl
  | map running state ht => exact absurd ⟨rfl, state, running⟩ hmap
  | writeEnds running state done => rfl
  | publish running state ht =>
    obtain ⟨f, -, rfl⟩ := rlPublish_ok_iff.1 ht
    exact promised_congr (publish_cfg _ _ _) (publish_enc _ _ _) (publish_sys _ _ _) (publish_ledBits _ _ _)
  | moveWord running busy room ht =>
    exact promised_of_sentOrHeld h running (runOn_moveWord ht) (sentOrHeld_moveWord h busy ht)
  | pull running => exact hshifter running (onlyShifter_pull s) (sentOrHeld_pull s)
  | cell running bits => exact hshifter running (onlyShifter_cellStep s) (sentOrHeld_cellStep bits hle)
  | idle running idle => rfl
  | tick running => exact hshifter running (onlyShifter_tick s) (sentOrHeld_tick hle)
  | clock running => exact hshifter running (onlyShifter_encClock s) (sentOrHeld_encClock hle)
  | fault running =>
    exact (promised_takeHardwareFault _).trans
      (hshifter running (onlyShifter_finishCell s) (sentOrHeld_finishCell hle))
  | reset => exact absurd rfl hr
  | runOn => exact promised_runOnCell s

/-- The hidden levels of the line do not touch the promise. -/
theorem promised_lineMoved {s t : State} (h : lineMoved s t) : promised t = promised s := by
  obtain ⟨⟨_, _, rfl⟩, -⟩ := h
  rfl

/-- Settles O46: RL.MAP's own step promises the bits of its frame, and every other kind of step keeps the promise. -/
theorem everyStepKeepsThePromisedBits : Obligations.EveryStepKeepsThePromisedBits := by
  refine fun s t e es h hp hc hr ht => ⟨?map, fun hmap => ?others⟩
  case map =>
    rintro rfl state running
    have hsel : select .rl s = .rlMap := by rw [select, state]
    rw [step_run h.legal hp, hsel] at ht
    have hmap := (ok_of_live (s := withPending s es) running ht).symm.trans (if_pos state)
    exact promised_rlMap (s := withPending s es) (h.withEnv _) running hmap.symm
  case others =>
    obtain ⟨u, hmoved, hst⟩ := step_block hp hc ht
    have hu : Inv u := inv_lineMoved (h.withEnv _) hmoved
    rw [promised_blockStep hu hst hr ?_, promised_lineMoved hmoved]
    · rfl
    · obtain ⟨⟨_, _, rfl⟩, -⟩ := hmoved
      exact hmap

end Sys2Proof.Safety
end

section
/-! The statements of `43_encoder.md`, fourth part: the two clock dividers and the levels they drive (rules R17, R61,
R90 and R143; log entries 11 and 12). -/

namespace Sys2Proof.Machine

open Sys2Proof.Safety

/-! ### One tick is seen on the line and leaves the divider alone (rules R30, R134 and R138) -/

theorem cellTick_drives (s : State) :
    (cellTick s).trace.ledTicks = s.trace.ledTicks ++ [(cellTick s).enc.led] ∧
      (cellTick s).enc.divAcc = s.enc.divAcc := by
  unfold cellTick
  simp only
  split
  · cases hph : (tickPhase s).1 <;> exact ⟨rfl, rfl⟩
  · exact ⟨rfl, rfl⟩

theorem pull_keeps (s : State) :
    (pull s).trace.ledTicks = s.trace.ledTicks ∧ (pull s).enc.divAcc = s.enc.divAcc := by
  obtain ⟨w, ws, -, -, heq⟩ | ⟨-, heq⟩ := pull_cases s <;> rw [heq] <;> exact ⟨rfl, rfl⟩

theorem tick_drives (s : State) :
    (tick s).trace.ledTicks = s.trace.ledTicks ++ [(tick s).enc.led] ∧ (tick s).enc.divAcc = s.enc.divAcc := by
  obtain ⟨hticks, hacc⟩ := pull_keeps s
  rw [← hticks, ← hacc]
  unfold tick
  simp only
  split
  · exact ⟨rfl, rfl⟩
  · exact cellTick_drives _

/-! ### A clock of the encoder (rule R143) -/

/-- A tick event of a running block is one tick, an idle shifter's included. -/
theorem step_tick {s : State} {es : List Event} (hl : s.cfg.legal = true) (hf : s.sys.fatal = false)
    (hp : s.env.pending = .encTick :: es) : step s = .next (tick (withPending s es)) := by
  rw [step_pending hl hp, fetch]
  have hf' : (withPending s es).sys.fatal = false := hf
  generalize withPending s es = u at hf'
  by_cases hidle : shifterIdle u = true
  · obtain ⟨hb, hfifo⟩ := shifterIdle_iff.1 hidle
    have htick : tick u = idleTick u := by
      rw [tick, pull_waits (.inr hfifo)]
      exact if_pos hb
    have hexec : exec .encIdle u = .next (idleTick u) := live_of_ok hf' (congrArg _ (if_pos hidle))
    rw [htick, ← hexec]
    simp [fetchTick, hf', hidle, perform]
  · simp [fetchTick, hf', hidle, perform]

theorem step_clock {s : State} {es : List Event} (hl : s.cfg.legal = true) (hf : s.sys.fatal = false)
    (hp : s.env.pending = .encClk :: es) : step s = .next (encClock (withPending s es)) := by
  have hf' : ¬ (withPending s es).sys.fatal = true := Bool.eq_false_iff.1 hf
  rw [step_pending hl hp, fetch, if_neg hf', perform]

/-- The divider's accumulator stands at `n`. -/
def withDivAcc (n : Nat) (s : State) : State := s.withEnc { s.enc with divAcc := n }

theorem encClock_counts {s : State} (h : s.enc.divAcc + 256 < s.enc.clkdiv.toNat) :
    encClock s = withDivAcc (s.enc.divAcc + 256) s := if_neg (Nat.not_le.2 h)

theorem encClock_ticks {s : State} (h : s.enc.clkdiv.toNat ≤ s.enc.divAcc + 256) :
    encClock s = tick (withDivAcc (s.enc.divAcc + 256 - s.enc.clkdiv.toNat) s) := if_pos h

/-- The accumulator counts modulo the divisor, and each wrap is a tick. -/
theorem encClock_divides {s : State} (hlo : 256 ≤ s.enc.clkdiv.toNat) (hacc : s.enc.divAcc < s.enc.clkdiv.toNat) :
    (encClock s).enc.divAcc = (s.enc.divAcc + 256) % s.enc.clkdiv.toNat ∧
      (encClock s).enc.clkdiv = s.enc.clkdiv ∧
      (s.enc.clkdiv.toNat ≤ s.enc.divAcc + 256 →
        (encClock s).trace.ledTicks = s.trace.ledTicks ++ [(encClock s).enc.led] ∧
          (encClock s).rx = s.rx ∧ (encClock s).rl = s.rl ∧ (encClock s).mbx = s.mbx) := by
  have hrest := onlyShifter_encClock s
  obtain hlt | hle := Nat.lt_or_ge (s.enc.divAcc + 256) s.enc.clkdiv.toNat
  case inl =>
    rw [encClock_counts hlt, Nat.mod_eq_of_lt hlt]
    exact ⟨rfl, rfl, fun h => absurd h (Nat.not_le.2 hlt)⟩
  case inr =>
    have hmod : (s.enc.divAcc + 256) % s.enc.clkdiv.toNat = s.enc.divAcc + 256 - s.enc.clkdiv.toNat := by
      rw [Nat.mod_eq_sub_mod hle, Nat.mod_eq_of_lt (by omega)]
    obtain ⟨hticks, hdiv⟩ := tick_drives (withDivAcc (s.enc.divAcc + 256 - s.enc.clkdiv.toNat) s)
    rw [← encClock_ticks hle] at hticks hdiv
    obtain ⟨e, bits, ticks, heq, -, -, -, hclk⟩ := hrest
    rw [hmod]
    refine ⟨hdiv, ?_, fun _ => ⟨hticks, ?_, ?_, ?_⟩⟩ <;> rw [heq]
    · exact hclk
    all_goals rfl

/-! ### The clocks of one serial bit time (rules R17, R61 and R90) -/

theorem run_of_step_eq {M : Host.Core} {s t : M.State} (k : Nat) (h : M.step s = M.step t) :
    M.run (k + 1) s = M.run (k + 1) t := by
  simp only [Host.Core.run, h]

theorem step_lineClk {s : State} {v : Level} {es : List Event} (hl : s.cfg.legal = true) :
    step (withPending s (.lineClk v :: es)) = perform (lineClock v (withPending s es)) :=
  step_pending (s := withPending s (.lineClk v :: es)) hl rfl

/-- Clocks of the line of which all but the last only take one state to the next of a sequence. -/
theorem run_lineClocks {v : Level} {f : Nat → State} {k : Nat} (es : List Event) (hl : ∀ n, (f n).cfg.legal = true)
    (h : ∀ n < k, ∀ es, lineClock v (withPending (f n) es) = .quiet (withPending (f (n + 1)) es)) :
    Sys2Proof.core.run (k + 1) (withPending (f 0) (List.replicate (k + 1) (.lineClk v) ++ es)) =
      perform (lineClock v (withPending (f k) es)) := by
  induction k generalizing f with
  | zero => exact run_one.trans (step_lineClk (hl 0))
  | succ k ih =>
    have hfirst := h 0 (Nat.zero_lt_succ k) (List.replicate (k + 1) (.lineClk v) ++ es)
    have hstep := (step_lineClk (hl 0)).trans (congrArg perform hfirst)
    refine (run_succ (M := Sys2Proof.core) (k + 1) hstep).trans ?_
    exact ih (f := fun n => f (n + 1)) (fun n => hl (n + 1)) fun n hn => h (n + 1) (Nat.succ_lt_succ hn)

/-- As many clocks as a serial bit time has, from the state of a sequence with which it begins. -/
theorem run_bitTime {v : Level} {f : Nat → State} {s : State} {es : List Event} (hl : ∀ n, (f n).cfg.legal = true)
    (h0 : f 0 = s) (hp : s.env.pending = List.replicate (clocksPerBit s.cfg) (.lineClk v) ++ es)
    (h : ∀ n, n + 1 < clocksPerBit s.cfg →
      ∀ es, lineClock v (withPending (f n) es) = .quiet (withPending (f (n + 1)) es)) :
    Sys2Proof.core.run (clocksPerBit s.cfg) s =
      perform (lineClock v (withPending (f (clocksPerBit s.cfg - 1)) es)) := by
  obtain ⟨k, hk⟩ : ∃ k, clocksPerBit s.cfg = k + 1 := Nat.exists_eq_succ_of_ne_zero (clocksPerBit_pos s.cfg).ne'
  have hs : s = withPending (f 0) (List.replicate (k + 1) (.lineClk v) ++ es) := by
    rw [h0, ← hk, ← hp]
    rfl
  rw [hk] at h ⊢
  exact (congrArg (Sys2Proof.core.run (k + 1)) hs).trans
    (run_lineClocks es hl fun n hn => h n (Nat.succ_lt_succ hn))

theorem lineClock_idle {s : State} (hf : s.sys.fatal = false) (hw : s.rx.serial.waitHigh = false)
    (ho : s.rx.serial.opened = false) :
    lineClock true s =
      if clocksPerBit s.cfg ≤ s.rx.serial.baudCnt + 1 then idleBit (setBaud 0 s)
      else .quiet (setBaud (s.rx.serial.baudCnt + 1) s) := by
  simp [lineClock, hf, hw, ho]

/-- While the receiver waits for a high line a clock is as a bit time (rule R61). -/
theorem lineClock_waiting {s : State} (hw : s.rx.serial.waitHigh = true) (v : Level) :
    lineClock v s = lineBit v s := by
  rw [lineClock, lineBit, if_pos hw, if_pos hw]

theorem lineClock_opened {s : State} (hf : s.sys.fatal = false) (hw : s.rx.serial.waitHigh = false)
    (ho : s.rx.serial.opened = true) (v : Level) : lineClock v s = windowClock v s := by
  simp [lineClock, hf, hw, ho]

theorem lineBit_opened {s : State} (hf : s.sys.fatal = false) (hw : s.rx.serial.waitHigh = false)
    (ho : s.rx.serial.opened = true) (v : Level) : lineBit v s = windowBit v s := by
  simp [lineBit, hf, hw, ho]

section
variable {s : State} {es : List Event} (hl : s.cfg.legal = true)
include hl

/-- Line input has no effect in the fatal state (rule R91). -/
theorem run_bitTime_fatal {v : Level} (hf : s.sys.fatal = true)
    (hp : s.env.pending = List.replicate (clocksPerBit s.cfg) (.lineClk v) ++ es) :
    Sys2Proof.core.run (clocksPerBit s.cfg) s = perform (lineBit v (withPending s es)) := by
  rw [run_bitTime (f := fun _ => s) (fun _ => hl) rfl hp
    fun _ _ es => lineClock_of_fatal (s := withPending s es) hf v]
  exact congrArg perform ((lineClock_of_fatal (s := withPending s es) hf v).trans
    (lineBit_of_fatal (s := withPending s es) hf v).symm)

/-- Between windows, with the line high, the clocks count and the last one ends an idle bit time (rule R90). -/
theorem run_bitTime_idle (hf : s.sys.fatal = false) (hw : s.rx.serial.waitHigh = false)
    (ho : s.rx.serial.opened = false) (hbaud : s.rx.serial.baudCnt = 0)
    (hp : s.env.pending = List.replicate (clocksPerBit s.cfg) (.lineClk true) ++ es) :
    Sys2Proof.core.run (clocksPerBit s.cfg) s = perform (lineBit true (withPending s es)) := by
  have hclock : ∀ n es, lineClock true (withPending (setBaud n s) es) =
      if clocksPerBit s.cfg ≤ n + 1 then idleBit (withPending (setBaud 0 s) es)
      else .quiet (withPending (setBaud (n + 1) s) es) :=
    fun n es => lineClock_idle (s := withPending (setBaud n s) es) hf hw ho
  rw [run_bitTime (f := fun n => setBaud n s) (fun _ => hl) (setBaud_self hbaud) hp
    fun n hn es => (hclock n es).trans (if_neg (Nat.not_le.2 hn)), hclock, if_pos (by omega), setBaud_self hbaud,
    lineBit_idle (s := withPending s es) hf hw ho]

end

/-- The sample of a bit time has been taken (rule R61). -/
def sampleKept (v : Level) (s : State) : State :=
  s.withRx { s.rx with serial := { s.rx.serial with sampler := s.rx.serial.sampler ++ [v] } }

section
variable {s : State} {v : Level} (ho : s.rx.serial.opened = true)
include ho

/-- A clock at the centre of a bit time takes its sample. -/
theorem windowClock_centre (hg : s.rx.serial.bitCnt ≠ 0 ∨ v = false)
    (hn : s.rx.serial.baudCnt = clocksPerBit s.cfg / 2) :
    windowClock v s =
      if clocksPerBit s.cfg ≤ s.rx.serial.baudCnt + 1 then endBit v (sampleKept v s)
      else .quiet (setBaud (s.rx.serial.baudCnt + 1) (sampleKept v s)) := by
  obtain ⟨h0, rfl, -⟩ | ⟨-, h⟩ := takeSample_cases v s
  · simp [h0] at hg
  · rw [windowClock, if_pos hn, h]
    exact if_pos ho

/-- A clock past the centre that is the last of its bit time ends it. -/
theorem windowClock_ends (hn : s.rx.serial.baudCnt ≠ clocksPerBit s.cfg / 2)
    (hlast : clocksPerBit s.cfg ≤ s.rx.serial.baudCnt + 1) : windowClock v s = endBit v s := by
  simp [windowClock, hn, ho, hlast]

end

/-- An open window `n` clocks into a bit time: past the centre its sample has been taken (log entry 11). -/
def intoBit (v : Level) (s : State) (n : Nat) : State :=
  setBaud n (if n ≤ clocksPerBit s.cfg / 2 then s else sampleKept v s)

theorem intoBit_of_le {v : Level} {s : State} {n : Nat} (h : n ≤ clocksPerBit s.cfg / 2) :
    intoBit v s n = setBaud n s := congrArg (setBaud n) (if_pos h)

theorem intoBit_of_lt {v : Level} {s : State} {n : Nat} (h : clocksPerBit s.cfg / 2 < n) :
    intoBit v s n = setBaud n (sampleKept v s) := congrArg (setBaud n) (if_neg (Nat.not_le.2 h))

section
variable {s : State} {v : Level} (hf : s.sys.fatal = false) (hw : s.rx.serial.waitHigh = false)
  (ho : s.rx.serial.opened = true) (hg : s.rx.serial.bitCnt ≠ 0 ∨ v = false)
include hf hw ho hg

/-- A clock before the last of a bit time goes one clock further into it. -/
theorem lineClock_intoBit {n : Nat} (hn : n + 1 < clocksPerBit s.cfg) (es : List Event) :
    lineClock v (withPending (intoBit v s n) es) = .quiet (withPending (intoBit v s (n + 1)) es) := by
  obtain hlt | heq | hgt := Nat.lt_trichotomy n (clocksPerBit s.cfg / 2)
  · rw [intoBit_of_le hlt.le, intoBit_of_le hlt, lineClock_opened (s := withPending (setBaud n s) es) hf hw ho]
    exact windowClock_counts (s := withPending (setBaud n s) es) ho hlt.ne hn
  · rw [intoBit_of_le heq.le, intoBit_of_lt (by omega), lineClock_opened (s := withPending (setBaud n s) es) hf hw ho]
    exact (windowClock_centre (s := withPending (setBaud n s) es) ho hg heq).trans (if_neg (Nat.not_le.2 hn))
  · rw [intoBit_of_lt hgt, intoBit_of_lt (by omega),
      lineClock_opened (s := withPending (setBaud n (sampleKept v s)) es) hf hw ho]
    exact windowClock_counts (s := withPending (setBaud n (sampleKept v s)) es) ho hgt.ne' hn

/-- The last clock of a bit time ends it with its sample taken. -/
theorem lineClock_lastIntoBit {n : Nat} (hn : n + 1 = clocksPerBit s.cfg) (es : List Event) :
    lineClock v (withPending (intoBit v s n) es) = endBit v (sampleKept v (withPending s es)) := by
  obtain heq | hgt : n = clocksPerBit s.cfg / 2 ∨ clocksPerBit s.cfg / 2 < n := by omega
  · rw [intoBit_of_le heq.le, lineClock_opened (s := withPending (setBaud n s) es) hf hw ho]
    exact (windowClock_centre (s := withPending (setBaud n s) es) ho hg heq).trans (if_pos hn.ge)
  · rw [intoBit_of_lt hgt, lineClock_opened (s := withPending (setBaud n (sampleKept v s)) es) hf hw ho]
    exact windowClock_ends (s := withPending (setBaud n (sampleKept v s)) es) ho hgt.ne' hn.ge

/-- The clocks of a bit time of an open window whose sample is still due and is no glitch are that bit time. -/
theorem run_bitTime_opened {es : List Event} (hl : s.cfg.legal = true) (hbaud : s.rx.serial.baudCnt = 0)
    (hdue : s.rx.serial.sampler.length ≤ s.rx.serial.bitCnt)
    (hp : s.env.pending = List.replicate (clocksPerBit s.cfg) (.lineClk v) ++ es) :
    Sys2Proof.core.run (clocksPerBit s.cfg) s = perform (lineBit v (withPending s es)) := by
  have hlegal : ∀ n, (intoBit v s n).cfg.legal = true := by
    intro n
    unfold intoBit
    split <;> exact hl
  have hstart : intoBit v s 0 = s := by
    rw [intoBit, if_pos (Nat.zero_le _), setBaud_self hbaud]
  have hpos := clocksPerBit_pos s.cfg
  rw [run_bitTime hlegal hstart hp fun n hn => lineClock_intoBit hf hw ho hg hn,
    lineClock_lastIntoBit hf hw ho hg (by omega), lineBit_opened (s := withPending s es) hf hw ho,
    windowBit_due (s := withPending s es) ho hdue hg]
  rfl

end

/-! ### The falling edge (rule R61) -/

section
variable {s : State} (hf : s.sys.fatal = false) (hw : s.rx.serial.waitHigh = false)
  (ho : s.rx.serial.opened = false)
include hf hw ho

theorem lineClock_falling : lineClock false s = lineClock false (openWindow s) := by
  rw [lineClock_opened (s := openWindow s) hf hw rfl]
  simp [lineClock, hf, hw, ho]

theorem lineBit_falling : lineBit false s = lineBit false (openWindow s) := by
  rw [lineBit_opened (s := openWindow s) hf hw rfl]
  simp [lineBit, hf, hw, ho]

/-- A low line with no window open: the first clock opens the window, and the clocks are its first bit time. -/
theorem run_bitTime_falling {es : List Event} (hl : s.cfg.legal = true)
    (hp : s.env.pending = List.replicate (clocksPerBit s.cfg) (.lineClk false) ++ es) :
    Sys2Proof.core.run (clocksPerBit s.cfg) s = perform (lineBit false (withPending s es)) := by
  obtain ⟨k, hk⟩ : ∃ k, clocksPerBit s.cfg = k + 1 := Nat.exists_eq_succ_of_ne_zero (clocksPerBit_pos s.cfg).ne'
  have hp' : s.env.pending = .lineClk false :: (List.replicate k (.lineClk false) ++ es) := by rw [hp, hk]; rfl
  have hstep : step s = step (openWindow s) := by
    rw [step_pending hl hp', step_pending (s := openWindow s) hl hp']
    exact congrArg perform (lineClock_falling (s := withPending s _) hf hw ho)
  have hopen := run_bitTime_opened (s := openWindow s) (v := false) hf hw rfl (.inr rfl) hl rfl le_rfl hp
  have hrun : Sys2Proof.core.run (clocksPerBit s.cfg) s = Sys2Proof.core.run (clocksPerBit s.cfg) (openWindow s) := by
    rw [hk]
    exact run_of_step_eq k hstep
  rw [lineBit_falling (s := withPending s es) hf hw ho]
  exact hrun.trans hopen

end

/-- Settles O11: a clock of the encoder by the accumulator, a serial bit time by what the receiver is doing. -/
theorem clockDividersDriveTheirLevels : Obligations.ClockDividersDriveTheirLevels := by
  refine ⟨?encoder, ?serial, ?waiting⟩
  case encoder =>
    intro s es hl hf hlo hacc hp
    have hstep := step_clock hl hf hp
    refine ⟨fun hlt => ?counts, fun hle => ?ticks, encClock (withPending s es), hstep, ?divides⟩
    case counts => rw [hstep, encClock_counts (s := withPending s es) hlt]; rfl
    case ticks =>
      rw [hstep, encClock_ticks (s := withPending s es) hle]
      exact (step_tick
        (s := withPending (withDivAcc (s.enc.divAcc + 256 - s.enc.clkdiv.toNat) s) (.encTick :: es)) hl hf rfl).symm
    case divides => exact encClock_divides (s := withPending s es) hlo hacc
  case serial =>
    intro s v es hl hw hbaud hdue hglitch hp
    rw [step_pending (s := withPending s (.lineBit v :: es)) hl rfl]
    cases hf : s.sys.fatal with
    | true => exact run_bitTime_fatal hl hf hp
    | false =>
      cases ho : s.rx.serial.opened with
      | true =>
        have hg : s.rx.serial.bitCnt ≠ 0 ∨ v = false := by
          cases v with
          | false => exact .inr rfl
          | true => exact .inl fun hb => hglitch ⟨ho, hb, rfl⟩
        exact run_bitTime_opened hf hw ho hg hl hbaud (hdue ho) hp
      | false =>
        cases v with
        | true => exact run_bitTime_idle hl hf hw ho hbaud hp
        | false => exact run_bitTime_falling hf hw ho hl hp
  case waiting =>
    intro s v es hl hw hp
    rw [step_pending hl hp, step_pending (s := withPending s (.lineBit v :: es)) hl rfl]
    exact congrArg perform (lineClock_waiting (s := withPending s es) hw v)

end Sys2Proof.Machine
end

section
/-! The statements of `44_publisher.md` (rules R150, R151 and R154). For R154 the host's side of a state is forgotten:
each operation gives the same from a state and from the state without it, but for that side (`forgetHost_<op>`), and
one that neither reads nor writes the host's side gives just what the forgetting leaves (`<op>_forgetHost`). -/

namespace Sys2Proof.Safety

open Sys2Proof.Machine

/-! ### A publish attempt (rules R150 and R151) -/

theorem publish_of_ready {s : State} (h : s.env.pubReady = true) (c : Ctx) (f : Frame) :
    publish c f s = publishSuccess c f s := if_pos h

theorem publish_of_notReady {s : State} (h : s.env.pubReady = false) (c : Ctx) (f : Frame) :
    publish c f s = publishFailure s := if_neg (Bool.eq_false_iff.1 h)

theorem exec_pubPublish {s : State} (hf : s.sys.fatal = false) (c : Ctx) (f : Frame) :
    exec (.pubPublish c f) s = .next ((publish c f s).withRet (some (.published s.env.pubReady))) := live_ok hf _

theorem exec_pubPublishFail_of_notReady {s : State} (hf : s.sys.fatal = false) (h : s.env.pubReady = false) (c : Ctx)
    (f : Frame) :
    exec (.pubPublishFail c f) s = .next ((publishFailure s).withRet (some (.published false))) :=
  live_of_ok hf (congrArg Except.ok (if_neg (Bool.eq_false_iff.1 h)))

theorem exec_pubPublishFail_of_ready {s : State} (hf : s.sys.fatal = false) (h : s.env.pubReady = true) (c : Ctx)
    (f : Frame) : exec (.pubPublishFail c f) s = .next s :=
  live_of_ok hf (congrArg Except.ok (if_pos h))

/-- Settles O48: by the draw, the message and the count of a success, or the log entry of a failure. -/
theorem publishSendsOrLogs : Obligations.PublishSendsOrLogs := by
  refine fun s c f hf => ⟨fun ready => ?sends, fun busy => ⟨?logs, ?fails⟩, fun ready => ?notSelected⟩
  case sends =>
    refine ⟨_, exec_pubPublish hf c f, ?_⟩
    rw [ready, publish_of_ready ready]
    exact ⟨rfl, seq_setSeq_same .., fun d hd => seq_setSeq_other _ _ hd, rfl, rfl⟩
  case logs => rw [exec_pubPublish hf, busy, publish_of_notReady busy]; rfl
  case fails => exact exec_pubPublishFail_of_notReady hf busy c f
  case notSelected => exact exec_pubPublishFail_of_ready hf ready c f

/-! ### A state without the host's side -/

/-- A pending event, with the level that the host will put on `pub_ready` forgotten. -/
def forgetLevel : Event → Event
  | .ready _ => .ready false
  | e => e

/-- A state with the publisher, what the host sees of it and what the host does forgotten: the counters, the `PUB` and
`LOG` traces, what a call returned, and the levels of `pub_ready` now and to come. -/
def forgetHost (s : State) : State :=
  { s with
    pub := ⟨0, 0⟩, trace := { s.trace with pub := [], log := [] }, ret := none,
    env := { pending := forgetReady s.env.pending, pubReady := false } }

/-- A result with the host's side of its state forgotten. -/
def forgetHostResult : Except Fault State → Except Fault State := Except.map forgetHost

/-- An outcome with the host's side of its next state forgotten. -/
def forgetHostOutcome : Host.Outcome State Fault Refusal → Host.Outcome State Fault Refusal
  | .next s => .next (forgetHost s)
  | .fault f => .fault f
  | .refused r => .refused r

/-- What an event comes to, with the host's side forgotten. -/
def forgetHostFetched : Fetched → Fetched
  | .run i s => .run i (forgetHost s)
  | .quiet s => .quiet (forgetHost s)
  | .reject r => .reject r

@[simp] theorem forgetHost_cfg (s : State) : (forgetHost s).cfg = s.cfg := rfl
@[simp] theorem forgetHost_rx (s : State) : (forgetHost s).rx = s.rx := rfl
@[simp] theorem forgetHost_mbx (s : State) : (forgetHost s).mbx = s.mbx := rfl
@[simp] theorem forgetHost_rl (s : State) : (forgetHost s).rl = s.rl := rfl
@[simp] theorem forgetHost_enc (s : State) : (forgetHost s).enc = s.enc := rfl
@[simp] theorem forgetHost_pending (s : State) : (forgetHost s).env.pending = forgetReady s.env.pending := rfl
@[simp] theorem forgetHost_withRet (s : State) (x : Option Ret) : forgetHost (s.withRet x) = forgetHost s := rfl

theorem sameLights_iff_forgetHost {s t : State} : sameLights s t ↔ forgetHost s = forgetHost t := by
  simp [sameLights, forgetHost, State.mk.injEq, and_assoc]

theorem sameLightsOutcome_iff_forgetHost {a b : Host.Outcome State Fault Refusal} :
    sameLightsOutcome a b ↔ forgetHostOutcome a = forgetHostOutcome b := by
  cases a <;> cases b <;> simp [sameLightsOutcome, forgetHostOutcome, sameLights_iff_forgetHost]

theorem forgetReady_cons (e : Event) (es : List Event) : forgetReady (e :: es) = forgetLevel e :: forgetReady es := rfl

theorem forgetReady_forgetReady (es : List Event) : forgetReady (forgetReady es) = forgetReady es := by
  induction es with
  | nil => rfl
  | cons e es ih => rw [forgetReady_cons, forgetReady_cons, ih]; cases e <;> rfl

theorem forgetHost_forgetHost (s : State) : forgetHost (forgetHost s) = forgetHost s := by
  simp only [forgetHost, forgetReady_forgetReady]

theorem forgetHostResult_forgetHostResult (r : Except Fault State) :
    forgetHostResult (forgetHostResult r) = forgetHostResult r := by
  cases r with
  | error e => rfl
  | ok s => exact congrArg Except.ok (forgetHost_forgetHost s)

/-- A choice by the same condition, whose branches are the images of the other's, is its image. -/
theorem ite_eq_map {α β : Type} (g : α → β) {c c' : Prop} [Decidable c] [Decidable c'] {a b : α} {a' b' : β}
    (hc : c' ↔ c) (ha : a' = g a) (hb : b' = g b) : (if c' then a' else b') = g (if c then a else b) := by
  simp only [hc, apply_ite g, ha, hb]

section
variable (s : State)

/-! ### Operations of a unit, and those that a condition enables -/

theorem forgetHost_live {r r' : Except Fault State} (h : forgetHostResult r' = forgetHostResult r) :
    forgetHostOutcome (live (forgetHost s) r') = forgetHostOutcome (live s r) := by
  refine map_ite_congr forgetHostOutcome Iff.rfl (congrArg Host.Outcome.next (forgetHost_forgetHost s)) ?_
  cases r <;> cases r' <;> simp_all [forgetHostOutcome, forgetHostResult, Except.map]

theorem forgetHost_live_ok {t t' : State} (h : forgetHost t' = forgetHost t) :
    forgetHostOutcome (live (forgetHost s) (.ok t')) = forgetHostOutcome (live s (.ok t)) :=
  forgetHost_live s (congrArg Except.ok h)

/-- An operation that neither reads nor writes the host's side. -/
theorem forgetHost_live_blind {r r' : Except Fault State} (h : r' = forgetHostResult r) :
    forgetHostOutcome (live (forgetHost s) r') = forgetHostOutcome (live s r) :=
  forgetHost_live s (by rw [h, forgetHostResult_forgetHostResult])

theorem forgetHost_live_blind_ok {t t' : State} (h : t' = forgetHost t) :
    forgetHostOutcome (live (forgetHost s) (.ok t')) = forgetHostOutcome (live s (.ok t)) :=
  forgetHost_live_blind s (congrArg Except.ok h)

/-- An operation that a condition enables, and that does not touch the host's side. -/
theorem forgetHost_live_blind_ite {c c' : Prop} [Decidable c] [Decidable c'] {r r' : Except Fault State} (hc : c' ↔ c)
    (h : r' = forgetHostResult r) :
    forgetHostOutcome (live (forgetHost s) (if c' then r' else .ok (forgetHost s))) =
      forgetHostOutcome (live s (if c then r else .ok s)) :=
  forgetHost_live_blind s (ite_eq_map forgetHostResult hc h rfl)

/-- An operation that a condition enables. -/
theorem forgetHost_live_ite {c c' : Prop} [Decidable c] [Decidable c'] {r r' : Except Fault State} (hc : c' ↔ c)
    (h : forgetHostResult r' = forgetHostResult r) :
    forgetHostOutcome (live (forgetHost s) (if c' then r' else .ok (forgetHost s))) =
      forgetHostOutcome (live s (if c then r else .ok s)) :=
  forgetHost_live s (map_ite_congr forgetHostResult hc h (congrArg Except.ok (forgetHost_forgetHost s)))

/-! ### What the publisher does is forgotten (rule R154), and what goes to the log -/

theorem forgetHost_publish (c : Ctx) (f : Frame) : forgetHost (publish c f s) = forgetHost s := by
  unfold publish
  split <;> rfl

theorem forgetHost_publishAt (c : Ctx) (f : Frame) (p : Prop) [Decidable p] :
    forgetHost (if p then publish c f s else s) = forgetHost s := by
  rw [apply_ite forgetHost, forgetHost_publish, ite_self]

theorem forgetHost_drop (kind : ReceiveKind) (atBreak : Bool) :
    forgetHost (drop kind atBreak (forgetHost s)) = forgetHost (drop kind atBreak s) := by
  rw [drop_eq, drop_eq]
  exact forgetHost_forgetHost (s.withRx { s.rx with first := s.rx.first || resyncs s.cfg atBreak })

/-! ### The receiver -/

theorem build_forgetHost (n : Nat) : build n (forgetHost s) = build n s := rfl

theorem forgetHost_deliver (n : Nat) : forgetHostResult (deliver n (forgetHost s)) = forgetHostResult (deliver n s) := by
  simp only [deliver, build_forgetHost]
  cases build n s with
  | error e => rfl
  | ok f =>
    have hdeposit (t : State) : forgetHost (deposit f t) = deposit f (forgetHost t) := rfl
    refine congrArg Except.ok ?_
    rw [hdeposit, hdeposit, forgetHost_publishAt, forgetHost_publishAt, forgetHost_forgetHost]

theorem forgetHost_complete (result : ReadResult) (atBreak : Bool) :
    forgetHostResult (complete result atBreak (forgetHost s)) = forgetHostResult (complete result atBreak s) := by
  have hswap : swapBuffers (forgetHost s) = forgetHost (swapBuffers s) := rfl
  simp only [complete, hswap]
  cases result with
  | err kind => exact congrArg Except.ok (forgetHost_drop _ kind atBreak)
  | ok n =>
    exact map_ite_congr forgetHostResult Iff.rfl
      (congrArg Except.ok (forgetHost_forgetHost (discard (swapBuffers s)))) (forgetHost_deliver _ n)

theorem forgetHost_character (b : Byte) :
    forgetHostResult (character b (forgetHost s)) = forgetHostResult (character b s) := by
  simp only [character, forgetHost_cfg, forgetHost_rx]
  cases bufWrite .rxBuf s.cfg.rxCap (s.rx.buf s.rx.active) s.rx.count b with
  | error e => rfl
  | ok m =>
    exact map_ite_congr forgetHostResult Iff.rfl (forgetHost_complete (s.withRx _) (.err .overrun) false)
      (congrArg Except.ok (forgetHost_forgetHost (s.withRx _)))

theorem lineTimeout_eq_map : lineTimeout s = (complete (.ok s.rx.count) false s).map setFirst := by
  unfold lineTimeout
  cases complete (.ok s.rx.count) false s <;> rfl

theorem forgetHost_lineTimeout :
    forgetHostResult (lineTimeout (forgetHost s)) = forgetHostResult (lineTimeout s) := by
  have hfirst (r : Except Fault State) : forgetHostResult (r.map setFirst) = (forgetHostResult r).map setFirst := by
    cases r <;> rfl
  rw [lineTimeout_eq_map, lineTimeout_eq_map, hfirst, hfirst]
  exact congrArg _ (forgetHost_complete s (.ok s.rx.count) false)

/-! ### The mailbox and the render loop -/

theorem forgetHost_mbxTake : forgetHostOutcome (execMbxTake (forgetHost s)) = forgetHostOutcome (execMbxTake s) := by
  refine forgetHost_live_ite s Iff.rfl ?_
  simp only [takeFrame, forgetHost_mbx]
  cases bufBlock .slot s.mbx.slot frameLen with
  | error e => rfl
  | ok f => exact congrArg Except.ok (forgetHost_forgetHost (s.withMbx _))

theorem rlTake_forgetHost : rlTake (forgetHost s) = forgetHostResult (rlTake s) := by
  simp only [rlTake, takeFrame, forgetHost_mbx]
  cases bufBlock .slot s.mbx.slot frameLen <;> rfl

theorem write_forgetHost (px : List Pixel) : write px (forgetHost s) = forgetHostResult (write px s) :=
  ite_eq_map forgetHostResult Iff.rfl rfl rfl

theorem rlMap_forgetHost : rlMap (forgetHost s) = forgetHostResult (rlMap s) := by
  simp only [rlMap, forgetHost_rl]
  cases bufBlock .rlFrame s.rl.frame frameLen with
  | error e => rfl
  | ok f => exact write_forgetHost (s.withRl _) _

theorem forgetHost_rlPublish : forgetHostResult (rlPublish (forgetHost s)) = forgetHostResult (rlPublish s) := by
  have hstate (t : State) : forgetHost (setRlState .take t) = setRlState .take (forgetHost t) := rfl
  simp only [rlPublish, forgetHost_rl]
  cases bufBlock .rlFrame s.rl.frame frameLen with
  | error e => rfl
  | ok f =>
    refine congrArg Except.ok ?_
    rw [hstate, hstate, forgetHost_publish, forgetHost_publish, forgetHost_forgetHost]

/-! ### The encoder -/

theorem forgetHost_takeHardwareFault :
    forgetHost (takeHardwareFault (forgetHost s)) = forgetHost (takeHardwareFault s) :=
  forgetHost_forgetHost ((s.withSys { s.sys with fatal := true }).withTrace (s.trace.emitFatal .hardwareFault))

theorem forgetHost_initialise : forgetHost (initialise (forgetHost s)) = forgetHost (initialise s) :=
  map_ite_congr forgetHost Iff.rfl (forgetHost_forgetHost (initFields s)) (forgetHost_takeHardwareFault (initFields s))

theorem moveWord_forgetHost : moveWord (forgetHost s) = forgetHostResult (moveWord s) := by
  simp only [moveWord, forgetHost_cfg, forgetHost_enc]
  cases bufRead .wordbuf s.cfg.nPix s.enc.wordbuf s.enc.dmaIdx with
  | error e => rfl
  | ok w => exact congrArg Except.ok (ite_eq_map forgetHost Iff.rfl rfl rfl)

theorem pull_forgetHost : pull (forgetHost s) = forgetHost (pull s) := by
  simp only [pull, forgetHost_enc]
  cases s.enc.fifo with
  | nil => rfl
  | cons w ws => exact ite_eq_map forgetHost Iff.rfl rfl rfl

theorem cellTick_forgetHost : cellTick (forgetHost s) = forgetHost (cellTick s) := by
  have hphase : tickPhase (forgetHost s) = tickPhase s := rfl
  refine ite_eq_map forgetHost Iff.rfl ?_ rfl
  rw [hphase]
  cases (tickPhase s).1 <;> rfl

theorem tick_forgetHost : tick (forgetHost s) = forgetHost (tick s) := by
  simp only [tick, pull_forgetHost]
  exact ite_eq_map forgetHost Iff.rfl rfl (cellTick_forgetHost (pull s))

theorem encClock_forgetHost : encClock (forgetHost s) = forgetHost (encClock s) :=
  ite_eq_map forgetHost Iff.rfl (tick_forgetHost (s.withEnc _)) rfl

theorem finishCell_forgetHost : finishCell (forgetHost s) = forgetHost (finishCell s) :=
  ite_eq_map forgetHost Iff.rfl rfl rfl

theorem runOnCell_forgetHost : runOnCell (forgetHost s) = forgetHost (runOnCell s) := by
  have howed : owed (forgetHost s) = owed s := rfl
  refine ite_eq_map forgetHost Iff.rfl ?_ rfl
  rw [howed]
  cases owed s <;> rfl

/-! ### The line -/

theorem lineWindow_forgetHost (w : BitVec 11) :
    lineWindow w (forgetHost s) = forgetHostFetched (lineWindow w s) := by
  unfold lineWindow
  cases decodeSerial w <;> rfl

theorem takeSample_forgetHost (v : Level) : takeSample v (forgetHost s) = forgetHost (takeSample v s) :=
  ite_eq_map forgetHost Iff.rfl rfl rfl

/-- A sample that falls due by a condition. -/
theorem sampleIf_forgetHost (v : Level) (due : Prop) [Decidable due] :
    (if due then takeSample v (forgetHost s) else forgetHost s) = forgetHost (if due then takeSample v s else s) :=
  ite_eq_map forgetHost Iff.rfl (takeSample_forgetHost s v) rfl

theorem endBit_forgetHost (v : Level) : endBit v (forgetHost s) = forgetHostFetched (endBit v s) :=
  ite_eq_map forgetHostFetched Iff.rfl rfl (lineWindow_forgetHost (closeWindow _ s) _)

theorem idleBit_forgetHost : idleBit (forgetHost s) = forgetHostFetched (idleBit s) :=
  ite_eq_map forgetHostFetched Iff.rfl rfl (ite_eq_map forgetHostFetched Iff.rfl rfl rfl)

theorem windowBit_forgetHost (v : Level) : windowBit v (forgetHost s) = forgetHostFetched (windowBit v s) := by
  simp only [windowBit, sampleIf_forgetHost]
  exact ite_eq_map forgetHostFetched Iff.rfl (endBit_forgetHost _ v) rfl

theorem windowClock_forgetHost (v : Level) : windowClock v (forgetHost s) = forgetHostFetched (windowClock v s) := by
  simp only [windowClock, sampleIf_forgetHost]
  exact ite_eq_map forgetHostFetched Iff.rfl
    (ite_eq_map forgetHostFetched Iff.rfl (endBit_forgetHost _ v) rfl) rfl

theorem lineBit_forgetHost (v : Level) : lineBit v (forgetHost s) = forgetHostFetched (lineBit v s) :=
  ite_eq_map forgetHostFetched Iff.rfl rfl <|
    ite_eq_map forgetHostFetched Iff.rfl (by cases v <;> rfl) <|
      ite_eq_map forgetHostFetched Iff.rfl (windowBit_forgetHost s v) <|
        ite_eq_map forgetHostFetched Iff.rfl (idleBit_forgetHost s) (windowBit_forgetHost (openWindow s) false)

theorem lineClock_forgetHost (v : Level) : lineClock v (forgetHost s) = forgetHostFetched (lineClock v s) :=
  ite_eq_map forgetHostFetched Iff.rfl rfl <|
    ite_eq_map forgetHostFetched Iff.rfl (by cases v <;> rfl) <|
      ite_eq_map forgetHostFetched Iff.rfl (windowClock_forgetHost s v) <|
        ite_eq_map forgetHostFetched Iff.rfl
          (ite_eq_map forgetHostFetched Iff.rfl (idleBit_forgetHost (setBaud 0 s)) rfl)
          (windowClock_forgetHost (openWindow s) false)

/-! ### What an event comes to -/

theorem fetchTick_forgetHost : fetchTick (forgetHost s) = forgetHostFetched (fetchTick s) :=
  ite_eq_map forgetHostFetched Iff.rfl rfl <|
    ite_eq_map forgetHostFetched Iff.rfl rfl (congrArg Fetched.quiet (tick_forgetHost s))

theorem fetchCall_forgetHost (c : Code) : fetchCall c (forgetHost s) = forgetHostFetched (fetchCall c s) := by
  simp only [fetchCall, forgetHost_cfg]
  split <;> rfl

theorem fetch_forgetHost (e : Event) : fetch (forgetLevel e) (forgetHost s) = forgetHostFetched (fetch e s) := by
  cases e with
  | window w => exact lineWindow_forgetHost s w
  | lineBit v => exact lineBit_forgetHost s v
  | lineClk v => exact lineClock_forgetHost s v
  | idle => rfl
  | run a => rfl
  | encTick => exact fetchTick_forgetHost s
  | encClk => exact congrArg Fetched.quiet (ite_eq_map forgetHost Iff.rfl rfl (encClock_forgetHost s))
  | ready v => rfl
  | encFault => rfl
  | rst => rfl
  | runOn => exact congrArg Fetched.quiet (runOnCell_forgetHost s)
  | call c => exact fetchCall_forgetHost s c

/-! ### The operations and the step -/

theorem forgetHost_rxBuild (n : Nat) :
    forgetHostOutcome (execRxBuild n (forgetHost s)) = forgetHostOutcome (execRxBuild n s) := by
  refine forgetHost_live s ?_
  rw [build_forgetHost]
  cases build n s with
  | error e => rfl
  | ok f => exact congrArg Except.ok (forgetHost_forgetHost s)

theorem forgetHost_pubPublish (c : Ctx) (f : Frame) :
    forgetHostOutcome (execPubPublish c f (forgetHost s)) = forgetHostOutcome (execPubPublish c f s) := by
  refine forgetHost_live_ok s ?_
  rw [forgetHost_withRet, forgetHost_withRet, forgetHost_publish, forgetHost_publish, forgetHost_forgetHost]

theorem forgetHost_pubPublishFail (c : Ctx) (f : Frame) :
    forgetHostOutcome (execPubPublishFail c f (forgetHost s)) = forgetHostOutcome (execPubPublishFail c f s) := by
  have hfail (t : State) :
      forgetHost (if t.env.pubReady then t else (publishFailure t).withRet (some (.published false))) = forgetHost t := by
    split <;> rfl
  refine forgetHost_live_ok s ?_
  rw [hfail, hfail, forgetHost_forgetHost]

theorem forgetHost_sysFault : forgetHostOutcome (execSysFault (forgetHost s)) = forgetHostOutcome (execSysFault s) := by
  refine forgetHost_live_ok s ?_
  rw [finishCell_forgetHost, forgetHost_takeHardwareFault]

theorem forgetHost_sysReset : forgetHostOutcome (execSysReset (forgetHost s)) = forgetHostOutcome (execSysReset s) :=
  congrArg Host.Outcome.next (forgetHost_forgetHost (returnByReset s))

theorem forgetHost_exec (i : Instr) : forgetHostOutcome (exec i (forgetHost s)) = forgetHostOutcome (exec i s) := by
  cases i with
  | rxArm => exact forgetHost_live_blind_ok s (t := arm s) rfl
  | rxChr b => exact forgetHost_live s (forgetHost_character s b)
  | rxBrk => exact forgetHost_live s (forgetHost_complete s (breakResult s) true)
  | rxFerrStop1 d v => exact forgetHost_live s (forgetHost_complete s (.err .framing) false)
  | rxFerrStop2 d => exact forgetHost_live s (forgetHost_complete s (.err .framing) false)
  | rxFull => exact forgetHost_live s (forgetHost_complete s (.err .overrun) false)
  | rxComplete result atBreak => exact forgetHost_live s (forgetHost_complete s result atBreak)
  | rxDiscard => exact forgetHost_live_blind_ok s (t := discard s) rfl
  | rxBuild n => exact forgetHost_rxBuild s n
  | rxDeliver n => exact forgetHost_live s (forgetHost_deliver s n)
  | rxDrop kind atBreak => exact forgetHost_live_ok s (forgetHost_drop s kind atBreak)
  | rxIdle => exact forgetHost_live_ite s Iff.rfl (forgetHost_lineTimeout s)
  | mbxDeposit frame => exact forgetHost_live_blind_ok s (t := deposit frame s) rfl
  | mbxTake => exact forgetHost_mbxTake s
  | rlTake => exact forgetHost_live_blind_ite s Iff.rfl (rlTake_forgetHost s)
  | rlMap => exact forgetHost_live_blind_ite s Iff.rfl (rlMap_forgetHost s)
  | rlWrite => exact forgetHost_live_blind_ok s (ite_eq_map forgetHost Iff.rfl rfl rfl)
  | rlPublish => exact forgetHost_live_ite s Iff.rfl (forgetHost_rlPublish s)
  | encInit => exact forgetHost_live_ok s (forgetHost_initialise s)
  | encWrite pixels => exact forgetHost_live_blind s (write_forgetHost s pixels)
  | encPack pixels => exact forgetHost_live_blind_ok s (t := pack pixels s) rfl
  | encDma => exact forgetHost_live_blind_ite s Iff.rfl (moveWord_forgetHost s)
  | encDone => exact forgetHost_live_blind_ok s (t := transferDone s) rfl
  | encPull => exact forgetHost_live_blind_ok s (pull_forgetHost s)
  | encCell0 => exact forgetHost_live_blind_ok s (ite_eq_map forgetHost Iff.rfl rfl rfl)
  | encCell1 => exact forgetHost_live_blind_ok s (ite_eq_map forgetHost Iff.rfl rfl rfl)
  | encIdle => exact forgetHost_live_blind_ok s (ite_eq_map forgetHost Iff.rfl rfl rfl)
  | pubPublish ctx frame => exact forgetHost_pubPublish s ctx frame
  | pubPublishFail ctx frame => exact forgetHost_pubPublishFail s ctx frame
  | sysFault => exact forgetHost_sysFault s
  | sysReset => exact forgetHost_sysReset s

theorem forgetHost_perform (f : Fetched) :
    forgetHostOutcome (perform (forgetHostFetched f)) = forgetHostOutcome (perform f) := by
  cases f with
  | run i s => exact forgetHost_exec s i
  | quiet s => exact congrArg Host.Outcome.next (forgetHost_forgetHost s)
  | reject r => rfl

theorem dropEvent_forgetHost : dropEvent (forgetHost s) = forgetHost (dropEvent s) := by
  simp only [dropEvent, forgetHost, forgetReady, List.map_tail, State.withEnv]

theorem forgetHost_step : forgetHostOutcome (step (forgetHost s)) = forgetHostOutcome (step s) := by
  refine map_ite_congr forgetHostOutcome Iff.rfl ?_ rfl
  rw [dropEvent_forgetHost, forgetHost_pending]
  cases s.env.pending with
  | nil => exact congrArg Host.Outcome.next (forgetHost_forgetHost s)
  | cons e es =>
    rw [forgetReady_cons]
    simp only [fetch_forgetHost]
    exact forgetHost_perform _

end

/-- Settles O50: both steps are those of one state, the two states' common one without the host's side. -/
theorem hostCannotReachTheLights : Obligations.HostCannotReachTheLights := by
  intro s t h
  rw [sameLightsOutcome_iff_forgetHost, ← forgetHost_step s, ← forgetHost_step t, sameLights_iff_forgetHost.1 h]

end Sys2Proof.Safety
end

section
/-! The statements of `60_exceptions.md` (rules R164 to R166 and R171): the way into the fatal state and out of it, and
what each context leaves alone. -/

namespace Sys2Proof.Safety

open Sys2Proof.Machine

/-! ### Into the fatal state by SYS.FAULT (rule R165) -/

theorem finishCell_boundary {s : State} (h : s.enc.tickCnt = 0 ∨ s.enc.bitsLeft = 0) : finishCell s = s :=
  if_neg fun ⟨hcnt, hbits⟩ => h.elim hcnt hbits.ne'

theorem finishCell_inside {s : State} (hcnt : s.enc.tickCnt ≠ 0) (hbits : 0 < s.enc.bitsLeft) :
    finishCell s = cellStep s := if_pos ⟨hcnt, hbits⟩

/-- Settles O51: the cell in progress ends, the fault is taken, and in the state it leaves no operation runs. -/
theorem sysFaultEntersTheFatalState : Obligations.SysFaultEntersTheFatalState := by
  intro s hf stopped
  have hfault : exec .sysFault s = .next (takeHardwareFault (finishCell s)) := live_ok hf _
  refine ⟨fun hboundary => ?boundary, fun hcnt hbits => ?inside, _, hfault, fun i hi => ?stays⟩
  case boundary =>
    rw [hfault, finishCell_boundary hboundary]
    rfl
  case inside =>
    rw [hfault, finishCell_inside hcnt hbits, cellStep_eq]
    rfl
  case stays => exact noOperationRunsWhileFatal _ i rfl hi

/-! ### What changes the latch (rules R164 and R166) -/

/-- Reset leaves the latch set exactly when the divisor is illegal (rules R130 and R192). -/
@[simp] theorem returnByReset_fatal (s : State) : (returnByReset s).sys.fatal = !divisorLegal s.cfg :=
  State.resetOf_fatal s.cfg

theorem step_rst {s : State} {es : List Event} (hl : s.cfg.legal = true) (hp : s.env.pending = .rst :: es) :
    step s = .next (returnByReset (withPending s es)) := by
  rw [step_pending hl hp]
  rfl

/-- A direct call that leaves the fatal state is one of SYS.RESET (log entry 8). -/
theorem fetchCall_leaves_fatal {s t : State} {k : Code} (h : perform (fetchCall k s) = .next t)
    (hs : s.sys.fatal = true) (ht : t.sys.fatal = false) : decode s.cfg k = .ok .sysReset ∧ t = returnByReset s := by
  have hne : t ≠ s := by
    rintro rfl
    simp [hs] at ht
  cases hd : decode s.cfg k with
  | ok i =>
    rw [fetchCall_run hd, perform] at h
    by_cases hi : i = .sysReset
    · subst hi
      cases h
      exact ⟨rfl, rfl⟩
    · rw [noOperationRunsWhileFatal s i hs hi] at h
      cases h
      exact absurd rfl hne
  | error r =>
    by_cases hr : r = .glitch
    · rw [fetchCall_glitch (hr ▸ hd)] at h
      cases h
      exact absurd rfl hne
    · rw [fetchCall_reject hd hr] at h
      cases h

/-- Settles O54: only SYS.RESET runs in the fatal state, by its event or by a direct call, and it clears the latch when
the divisor is legal. -/
theorem onlyResetLeavesTheFatalState : Obligations.OnlyResetLeavesTheFatalState := by
  intro s t e es hp h hs ht
  have hl := legal_of_step_next h
  have hreset : (e = .rst ∨ ∃ k, e = .call k ∧ decode s.cfg k = .ok .sysReset) ∧
      t = returnByReset (withPending s es) := by
    cases hc : isCall e with
    | true =>
      cases e <;> simp only [isCall, Bool.false_eq_true] at hc
      case call k =>
        rw [step_call hl hp] at h
        obtain ⟨hd, rfl⟩ := fetchCall_leaves_fatal (s := withPending s es) h hs ht
        exact ⟨.inr ⟨k, rfl, hd⟩, rfl⟩
    | false =>
      by_cases hr : e = .rst
      · subst hr
        rw [step_rst hl hp] at h
        cases h
        exact ⟨.inl rfl, rfl⟩
      · obtain ⟨u, hu, -, -, -, -, -, -, hfatal, -⟩ := fatalStopsEveryUnit s e es hl hs hp hc hr
        rw [h] at hu
        cases hu
        simp [ht] at hfatal
  obtain ⟨hevent, rfl⟩ := hreset
  rw [returnByReset_fatal, Bool.not_eq_false'] at ht
  exact ⟨hevent, ht, rfl⟩

theorem fatal_of_onlyShifter {s t : State} (h : onlyShifter s t) : t.sys.fatal = s.sys.fatal := by
  obtain ⟨_, _, _, rfl, -⟩ := h
  rfl

theorem fatal_of_onlyReceiveSide {s t : State} (h : onlyReceiveSide s t) : t.sys.fatal = s.sys.fatal := by
  obtain ⟨-, -, -, hsys, -⟩ := h
  rw [hsys]

theorem runOnCell_fatal (s : State) : (runOnCell s).sys.fatal = s.sys.fatal := by
  unfold runOnCell
  split
  · split <;> rfl
  · rfl

/-- No unit touches the latch: only `enc_fault` and reset do (rule R164). -/
theorem fatal_blockStep {s t : State} {e : Event} (h : BlockStep s e t) (hfault : e ≠ .encFault) (hreset : e ≠ .rst) :
    t.sys.fatal = s.sys.fatal := by
  cases h with
  | stay => rfl
  | ready v => rfl
  | character b running h => exact fatal_of_onlyReceiveSide (onlyReceiveSide_character h)
  | readEnds result atBreak running h => exact fatal_of_onlyReceiveSide (onlyReceiveSide_complete h)
  | lineTimeout running h => exact fatal_of_onlyReceiveSide (onlyReceiveSide_lineTimeout h)
  | take running state full h =>
    obtain ⟨f, -, rfl⟩ := rlTake_ok_iff.1 h
    rfl
  | map running state h =>
    obtain ⟨f, -, -, rfl⟩ := rlMap_ok_iff.1 h
    rfl
  | writeEnds running state done => rfl
  | publish running state h =>
    obtain ⟨f, -, rfl⟩ := rlPublish_ok_iff.1 h
    exact congrArg Sys.fatal (publish_sys _ _ _)
  | moveWord running busy room h =>
    obtain ⟨w, -, -, rfl⟩ := moveWord_ok_iff.1 h
    rfl
  | pull running => exact fatal_of_onlyShifter (onlyShifter_pull s)
  | cell running bits => exact fatal_of_onlyShifter (onlyShifter_cellStep s)
  | idle running idle => exact fatal_of_onlyShifter (onlyShifter_idleTick s)
  | tick running => exact fatal_of_onlyShifter (onlyShifter_tick s)
  | clock running => exact fatal_of_onlyShifter (onlyShifter_encClock s)
  | fault running => exact absurd rfl hfault
  | reset => exact absurd rfl hreset
  | runOn => exact runOnCell_fatal s

/-- Settles O55: no other event touches the latch, and reset sets it only for an illegal divisor. -/
theorem onlyTheHardwareFaultIsFatal : Obligations.OnlyTheHardwareFaultIsFatal := by
  intro s t e es hp hc h hs ht
  by_cases hfault : e = .encFault
  · exact .inl hfault
  by_cases hreset : e = .rst
  · subst hreset
    rw [step_rst (legal_of_step_next h) hp] at h
    cases h
    rw [returnByReset_fatal, Bool.not_eq_true'] at ht
    exact .inr ⟨rfl, ht⟩
  · obtain ⟨u, ⟨⟨n, z, rfl⟩, -⟩, hu⟩ := step_block hp hc h
    have hsame : t.sys.fatal = s.sys.fatal := (fatal_blockStep hu hfault hreset).trans rfl
    simp [hsame, hs] at ht

/-! ### The receive context (rule R171) -/

theorem onlyReceiveSide.refl (s : State) : onlyReceiveSide s s :=
  ⟨rfl, rfl, rfl, rfl, rfl, rfl, rfl, rfl, rfl, rfl, .inl rfl⟩

theorem onlyReceiveSide_of_lineMoved {s u t : State} (hu : lineMoved s u) (h : onlyReceiveSide u t) :
    onlyReceiveSide s t := by
  obtain ⟨⟨_, _, rfl⟩, -⟩ := hu
  exact onlyReceiveSide_of_withRx h

/-- A line operation touches the receive context only, also when the block is fatal. -/
theorem onlyReceiveSide_exec_lineOp {i : Instr} {s t : State} (hi : isLineOp i) (h : exec i s = .next t) :
    onlyReceiveSide s t := by
  cases hf : s.sys.fatal with
  | false => exact onlyReceiveSide_lineOp hi hf h
  | true =>
    rw [noOperationRunsWhileFatal s i hf (ne_sysReset_of_isLineOp hi)] at h
    cases h
    exact .refl s

/-- A line event: its hidden levels move, then at most a line operation runs. -/
theorem onlyReceiveSide_of_yields {s t : State} {f : Fetched} (hf : yields (lineMoved s) f)
    (h : perform f = .next t) : onlyReceiveSide s t := by
  cases f with
  | run i u => exact onlyReceiveSide_of_lineMoved hf.2 (onlyReceiveSide_exec_lineOp hf.1 h)
  | quiet u => cases h; exact onlyReceiveSide_of_lineMoved hf (.refl _)
  | reject r => exact hf.elim

/-! ### The render context (rule R171) -/

theorem onlyRenderSide.refl (s : State) : onlyRenderSide s s := ⟨rfl, rfl, rfl, rfl, rfl, rfl, rfl, .inl rfl⟩

theorem onlyRenderSide_of_onlyShifter {s t : State} (h : onlyShifter s t) : onlyRenderSide s t := by
  obtain ⟨_, _, _, rfl, -⟩ := h
  exact ⟨rfl, rfl, rfl, rfl, rfl, rfl, rfl, .inl rfl⟩

/-- Everything an operation that waits for its condition can answer with a next state. -/
theorem live_ite_next {s t : State} {c : Prop} [Decidable c] {r : Except Fault State}
    (h : live s (if c then r else .ok s) = .next t) : t = s ∨ c ∧ r = .ok t := by
  obtain ⟨-, rfl⟩ | ⟨-, hok⟩ := live_next_iff.1 h
  · exact .inl rfl
  split at hok
  next hc => exact .inr ⟨hc, hok⟩
  next => cases hok; exact .inl rfl

theorem onlyRenderSide_rlTake {s t : State} (full : s.mbx.full = true) (h : rlTake s = .ok t) : onlyRenderSide s t := by
  obtain ⟨f, hslot, rfl⟩ := rlTake_ok_iff.1 h
  exact ⟨rfl, rfl, rfl, rfl, rfl, rfl, rfl, .inr ⟨full, rfl, f, hslot, rfl⟩⟩

theorem onlyRenderSide_rlMap {s t : State} (h : rlMap s = .ok t) : onlyRenderSide s t := by
  obtain ⟨f, -, -, rfl⟩ := rlMap_ok_iff.1 h
  exact ⟨rfl, rfl, rfl, rfl, rfl, rfl, rfl, .inl rfl⟩

theorem publish_seqReceive (f : Frame) (s : State) : (publish .render f s).pub.seqReceive = s.pub.seqReceive := by
  unfold publish
  split <;> rfl

theorem onlyRenderSide_rlPublish {s t : State} (h : rlPublish s = .ok t) : onlyRenderSide s t := by
  obtain ⟨f, -, rfl⟩ := rlPublish_ok_iff.1 h
  exact ⟨publish_cfg _ _ _, publish_rx _ _ _, publish_sys _ _ _, publish_ret _ _ _, publish_env _ _ _,
    publish_seqReceive f s, publish_fatalTrace _ _ _, .inl (publish_mbx _ _ _)⟩

theorem onlyRenderSide_rl {s t : State} (h : exec (select .rl s) s = .next t) : onlyRenderSide s t := by
  unfold select at h
  cases hst : s.rl.state <;> simp only [hst] at h
  case take =>
    obtain rfl | ⟨⟨-, full⟩, hok⟩ := live_ite_next h
    · exact .refl _
    · exact onlyRenderSide_rlTake full hok
  case map =>
    obtain rfl | ⟨-, hok⟩ := live_ite_next h
    · exact .refl _
    · exact onlyRenderSide_rlMap hok
  case write =>
    rw [exec, execRlWrite, ite_ok] at h
    obtain rfl | ⟨-, hok⟩ := live_ite_next h
    · exact .refl _
    · cases hok
      exact ⟨rfl, rfl, rfl, rfl, rfl, rfl, rfl, .inl rfl⟩
  case publish =>
    obtain rfl | ⟨-, hok⟩ := live_ite_next h
    · exact .refl _
    · exact onlyRenderSide_rlPublish hok

theorem onlyRenderSide_encDma {s t : State} (h : exec .encDma s = .next t) : onlyRenderSide s t := by
  obtain rfl | ⟨-, hok⟩ := live_ite_next h
  · exact .refl _
  · obtain ⟨w, -, -, rfl⟩ := moveWord_ok_iff.1 hok
    exact ⟨rfl, rfl, rfl, rfl, rfl, rfl, rfl, .inl rfl⟩

/-- An operation of the shifter whose effect is a plain state. -/
theorem onlyShifter_of_live_ok {s t u : State} (h : live s (.ok u) = .next t) (hu : onlyShifter s u) :
    onlyShifter s t := by
  obtain ⟨-, rfl⟩ | ⟨-, hok⟩ := live_next_iff.1 h
  · exact .refl _
  · cases hok
    exact hu

theorem onlyShifter_ite {s t : State} {c : Prop} [Decidable c] (h : onlyShifter s t) :
    onlyShifter s (if c then t else s) := by
  split
  · exact h
  · exact .refl s

theorem onlyShifter_encIdle {s t : State} (h : exec .encIdle s = .next t) : onlyShifter s t :=
  onlyShifter_of_live_ok h (onlyShifter_ite (onlyShifter_idleTick s))

theorem onlyShifter_shift {s t : State} (h : exec (select .shift s) s = .next t) : onlyShifter s t := by
  unfold select at h
  simp only at h
  split at h
  · split at h <;> exact onlyShifter_of_live_ok h (onlyShifter_ite (onlyShifter_cellStep s))
  split at h
  · exact onlyShifter_encIdle h
  · exact onlyShifter_of_live_ok h (onlyShifter_pull s)

theorem onlyShifter_fetchTick {s t : State} (h : perform (fetchTick s) = .next t) : onlyShifter s t := by
  unfold fetchTick at h
  split at h
  · cases h; exact .refl _
  split at h
  · exact onlyShifter_encIdle h
  · cases h; exact onlyShifter_tick s

theorem onlyShifter_fetch_encClk {s t : State} (h : perform (fetch .encClk s) = .next t) : onlyShifter s t := by
  rw [fetch] at h
  cases h
  split
  · exact .refl s
  · exact onlyShifter_encClock s

/-- A step of one of the render context's agents. -/
theorem onlyRenderSide_run {a : Agent} {s t : State} (h : exec (select a s) s = .next t) : onlyRenderSide s t := by
  cases a with
  | rl => exact onlyRenderSide_rl h
  | dma => exact onlyRenderSide_encDma h
  | shift => exact onlyRenderSide_of_onlyShifter (onlyShifter_shift h)

/-- Settles O59: a line event yields at most a line operation, and each event of the render context is an operation of
RL, a move of the transfer, or a step of the shifter. -/
theorem contextsTouchOnlyTheirOwnState : Obligations.ContextsTouchOnlyTheirOwnState := by
  intro s t e es hp h
  rw [step_pending (legal_of_step_next h) hp] at h
  refine ⟨?receive, ?render⟩
  case receive =>
    rintro (⟨w, rfl⟩ | rfl | ⟨v, rfl⟩ | ⟨v, rfl⟩)
    · exact onlyReceiveSide_of_yields (yields_lineWindow w (.refl _)) h
    · exact onlyReceiveSide_exec_lineOp (i := .rxIdle) trivial h
    · exact onlyReceiveSide_of_yields (yields_lineBit v _) h
    · exact onlyReceiveSide_of_yields (yields_lineClock v _) h
  case render =>
    rintro (⟨a, rfl⟩ | rfl | rfl)
    · exact onlyRenderSide_run h
    · exact onlyRenderSide_of_onlyShifter (onlyShifter_fetchTick h)
    · exact onlyRenderSide_of_onlyShifter (onlyShifter_fetch_encClk h)

end Sys2Proof.Safety
end

section
/-! The statement of `30_encoding.md` about codes written out (rules R61, R65, R67, R70 and R72; log entry 6). An
accepted code is the encoding of its operation; a rejected one falls under the lemma of its rejection. -/

namespace Sys2Proof.Machine

/-- A written-out code that is the encoding of a well-formed operation decodes to that operation. -/
theorem decode_of_encode_eq {c : Config} {k : Code} {i : Instr} (hlegal : c.legal = true) (hwf : i.wf c = true)
    (hcode : encode c i = k) : decode c k = .ok i := by
  rw [← hcode]
  exact decodeOfEncodeIsTheOperation c i hlegal hwf

/-- A high start sample is no start bit (rule R61). -/
theorem decodeSerial_glitch {w : BitVec 11} (hstart : w.getLsbD 0 = true) : decodeSerial w = .error .glitch :=
  if_pos hstart

/-- A transfer word with a bit in its low byte is rejected, whatever follows it (rules R65 and R72). -/
theorem decodeWords_cons_lowByte {w : Word} (hlow : w.extractLsb' 0 8 ≠ 0#8) (ws : List Word) :
    decodeWords (w :: ws) = .error .lowByte := by
  have hword : decodeWord w = .error .lowByte := if_neg hlow
  simp only [decodeWords, hword]

theorem decode_words_cons_lowByte {c : Config} {w : Word} {ws : List Word} (hcount : (w :: ws).length = c.nPix)
    (hlow : w.extractLsb' 0 8 ≠ 0#8) : decode c (.words (w :: ws)) = .error .lowByte := by
  simp only [decode, if_pos hcount, decodeWords_cons_lowByte hlow]

/-- Operands of a row of format OP that its operation does not admit (rule R72). -/
theorem decodeOp_badOperands {c : Config} {row : Nat} {args : List Nat} {i : Instr}
    (hrow : opRow row args = some (some i)) (hwf : i.wf c = false) : decodeOp c row args = .error .badOperands := by
  simp [decodeOp, hrow, hwf]

/-- Row 12 takes a whole frame and nothing else (rule R7). -/
theorem decodeOp_deposit_badOperands (c : Config) {frame : Frame} (hlen : frame.length ≠ frameLen) :
    decodeOp c 12 (frame.map BitVec.toNat) = .error .badOperands := by
  have hrow : opRow 12 (frame.map BitVec.toNat) = some (some (.mbxDeposit frame)) := by simp [opRow, byteArgs_map]
  exact decodeOp_badOperands hrow (decide_eq_false hlen)

/-- Settles O1: each accepted code is the encoding of its operation, each rejected one breaks its format's rule. -/
theorem sampleCodesDecode : Obligations.SampleCodesDecode := by
  have hlegal : Config.example1.legal = true := by decide
  refine ⟨?chr, ?brk, ?ferrStop2, ?ferrStop1, ?glitch, ?cell1, ?cell0, ?init, ?pack, ?lowByte, ?take, ?deposit⟩
  case chr => exact decode_of_encode_eq hlegal rfl rfl
  case brk => exact decode_of_encode_eq hlegal rfl rfl
  case ferrStop2 => exact decode_of_encode_eq hlegal rfl rfl
  case ferrStop1 => exact decode_of_encode_eq hlegal rfl rfl
  case glitch => exact decodeSerial_glitch rfl
  case cell1 => exact decode_of_encode_eq hlegal rfl rfl
  case cell0 => exact decode_of_encode_eq hlegal rfl rfl
  case init => exact decode_of_encode_eq hlegal (by decide) (by decide)
  case pack => exact decode_of_encode_eq hlegal rfl rfl
  case lowByte => exact decode_words_cons_lowByte rfl (by decide)
  case take => exact decode_of_encode_eq hlegal rfl rfl
  case deposit =>
    have hlen : (List.replicate 511 (0 : Byte)).length ≠ frameLen := by rw [List.length_replicate]; decide
    have hargs : (List.replicate 511 (0 : Byte)).map BitVec.toNat = List.replicate 511 0 := List.map_replicate
    rw [decode, ← hargs]
    exact decodeOp_deposit_badOperands _ hlen

end Sys2Proof.Machine
end
